-- ==== Sys2Proof/Word.lean ====
section
/-! DEFINITION. The word types of the engine: the command word and the binary32 pattern. -/

namespace Sys2Proof

/-- The type `F` of every sample, coefficient and parameter value: an IEEE 754 binary32 value held as
its 32-bit pattern, sign in bit 31, exponent in bits 30:23, fraction in bits 22:0
(40_numerics R100). `f32` and `bitsOf` of 00_scope R15 are therefore the identity. -/
abbrev F := BitVec 32

/-- A command word (30_encoding R80), and the width of an output frame (47_host_commands R241). -/
abbrev Word64 := BitVec 64

end Sys2Proof
end

