-- ==== Sys2Proof/Syntax.lean ====
section
/-! DEFINITION. The commands of KSV-CMD version 1: one constructor per row of the opcode table
(30_encoding R82), operands as 30_encoding R90 assembles them. -/

namespace Sys2Proof

/-- The four waveform kinds, 0 to 3 in this order (10_state R35). The set is closed (42_exciter R152). -/
inductive Wave where
  | sine | sawtooth | square | noise
deriving DecidableEq, Repr, Inhabited

/-- One command. Integer operands are mathematical integers (00_scope R14); `Instr.wellFormed` gives their ranges. -/
inductive Instr where
  /-- `NOP` (R83, R231). -/
  | nop
  /-- `PREPARE sampleRate, blockSize` (R84, R233). -/
  | prepare (blockSize : Nat) (sampleRate : F)
  /-- `SETP.GAIN value`, `k = 0` (R85, R234). -/
  | setpGain (value : F)
  /-- `SETP.WAVE kind`, `k = 1` (R88, R235). -/
  | setpWave (kind : Wave)
  /-- `SETP.DECAY value`, `k = 2` (R85, R234). -/
  | setpDecay (value : F)
  /-- `SETP.BURST value`, `k = 3` (R85, R234). -/
  | setpBurst (value : F)
  /-- `SETP.EXCUT value`, `k = 4` (R85, R234). -/
  | setpExcut (value : F)
  /-- `SETP.LOWCUT value`, `k = 5` (R85, R234). -/
  | setpLowcut (value : F)
  /-- `SETP.TREMRATE value`, `k = 6` (R85, R234). -/
  | setpTremrate (value : F)
  /-- `SETP.TREMDEPTH value`, `k = 7` (R85, R234). -/
  | setpTremdepth (value : F)
  /-- `SETP.REVSIZE value`, `k = 8` (R85, R234). -/
  | setpRevsize (value : F)
  /-- `SETP.REVMIX value`, `k = 9` (R85, R234). -/
  | setpRevmix (value : F)
  /-- `NOTEON pitch, velocity` (R86, R236). -/
  | noteon (pitch : Nat) (velocity : F)
  /-- `NOTEOFF` (R87, R238). -/
  | noteoff
  /-- `RENDER n` (R89, R239). -/
  | render (n : Nat)
deriving DecidableEq, Repr, Inhabited

/-- The mnemonic of a command, as the opcode table spells it. -/
def Instr.mnemonic : Instr → String
  | .nop => "NOP"
  | .prepare _ _ => "PREPARE"
  | .setpGain _ => "SETP.GAIN"
  | .setpWave _ => "SETP.WAVE"
  | .setpDecay _ => "SETP.DECAY"
  | .setpBurst _ => "SETP.BURST"
  | .setpExcut _ => "SETP.EXCUT"
  | .setpLowcut _ => "SETP.LOWCUT"
  | .setpTremrate _ => "SETP.TREMRATE"
  | .setpTremdepth _ => "SETP.TREMDEPTH"
  | .setpRevsize _ => "SETP.REVSIZE"
  | .setpRevmix _ => "SETP.REVMIX"
  | .noteon _ _ => "NOTEON"
  | .noteoff => "NOTEOFF"
  | .render _ => "RENDER"

end Sys2Proof
end

