-- ==== Sys2Proof/WellFormed.lean ====
section
/-! DEFINITION. Which commands have an encoding: the ranges of the integer operands (30_encoding R90). -/

namespace Sys2Proof

/-- The ranges of 30_encoding R90. `PREPARE` and `RENDER` carry a 24-bit count (R84, R89), `NOTEON` a 7-bit pitch
(R86); every pattern of a binary32 operand is legal (R85, R86) and the waveform kind is a closed type. -/
def Instr.wellFormed : Instr → Bool
  | .prepare blockSize _ => decide (blockSize < 2 ^ 24)
  | .noteon pitch _ => decide (pitch < 128)
  | .render n => decide (n < 2 ^ 24)
  | .nop => true
  | .setpGain _ => true
  | .setpWave _ => true
  | .setpDecay _ => true
  | .setpBurst _ => true
  | .setpExcut _ => true
  | .setpLowcut _ => true
  | .setpTremrate _ => true
  | .setpTremdepth _ => true
  | .setpRevsize _ => true
  | .setpRevmix _ => true
  | .noteoff => true

end Sys2Proof
end

