-- ==== Sys2Proof/Decode.lean ====
section
/-! DEFINITION. The decoder and the encoder of 30_encoding.md, the opcode table, the byte order of a listed
word, and the pseudo-instructions. -/

namespace Sys2Proof

/-- Why a word is no command: the cases of 30_encoding R91 and R92, by name. -/
inductive Illegal where
  /-- `OP` in `0x06..0xFF` (R91). -/
  | reservedOpcode
  /-- `A != 0` where it must be 0 (NOP, NOTEOFF). -/
  | operandANotZero
  /-- `B != 0` where it must be 0 (NOP, NOTEOFF, RENDER). -/
  | operandBNotZero
  /-- SETP with `A[23:4] != 0` or `A[3:0] >= 10`. -/
  | noSuchParameter
  /-- SETP.WAVE with `B[31:2] != 0`. -/
  | noSuchWave
  /-- NOTEON with `A[23:7] != 0`. -/
  | noSuchPitch
deriving DecidableEq, Repr

/-- What the decoder answers: a command, or ILLEGAL with its reason (30_encoding R93). -/
inductive Decoded where
  | command (i : Instr)
  | illegal (why : Illegal)
deriving DecidableEq, Repr

/-- `OP = W[63:56]` (30_encoding R80). -/
def opField (w : Word64) : BitVec 8 := w.extractLsb' 56 8

/-- `A = W[55:32]` (30_encoding R80). -/
def aField (w : Word64) : BitVec 24 := w.extractLsb' 32 24

/-- `B = W[31:0]` (30_encoding R80). -/
def bField (w : Word64) : BitVec 32 := w.extractLsb' 0 32

/-- The word `OP ++ A ++ B` (30_encoding R80). -/
def makeWord (op : BitVec 8) (a : BitVec 24) (b : BitVec 32) : Word64 := op ++ a ++ b

/-- The kind a two-bit field names: 0 Sine, 1 Sawtooth, 2 Square, 3 Noise (30_encoding R88). -/
def waveOfBits (b : BitVec 2) : Wave :=
  match b.toNat with
  | 0 => .sine
  | 1 => .sawtooth
  | 2 => .square
  | _ => .noise

/-- The two bits of a kind (30_encoding R88). -/
def bitsOfWave : Wave → BitVec 2
  | .sine => 0
  | .sawtooth => 1
  | .square => 2
  | .noise => 3

/-- The rows of `OP = 0x02`, by parameter number (30_encoding R85, R88, R92). -/
def decodeSetp (k : Nat) (b : BitVec 32) : Decoded :=
  match k with
  | 0 => .command (.setpGain b)
  | 1 => if b.extractLsb' 2 30 = 0 then .command (.setpWave (waveOfBits (b.extractLsb' 0 2))) else .illegal .noSuchWave
  | 2 => .command (.setpDecay b)
  | 3 => .command (.setpBurst b)
  | 4 => .command (.setpExcut b)
  | 5 => .command (.setpLowcut b)
  | 6 => .command (.setpTremrate b)
  | 7 => .command (.setpTremdepth b)
  | 8 => .command (.setpRevsize b)
  | 9 => .command (.setpRevmix b)
  | _ => .illegal .noSuchParameter

/-- The decoder: total, a function of the word alone (30_encoding R81, R93), with the rows of R82 and the
illegal words of R91 and R92. -/
def decode (w : Word64) : Decoded :=
  match (opField w).toNat with
  | 0 =>
    if aField w ≠ 0 then .illegal .operandANotZero
    else if bField w ≠ 0 then .illegal .operandBNotZero
    else .command .nop
  | 1 => .command (.prepare (aField w).toNat (bField w))
  | 2 => decodeSetp (aField w).toNat (bField w)
  | 3 =>
    if (aField w).toNat < 128 then .command (.noteon (aField w).toNat (bField w))
    else .illegal .noSuchPitch
  | 4 =>
    if aField w ≠ 0 then .illegal .operandANotZero
    else if bField w ≠ 0 then .illegal .operandBNotZero
    else .command .noteoff
  | 5 => if bField w ≠ 0 then .illegal .operandBNotZero else .command (.render (aField w).toNat)
  | _ => .illegal .reservedOpcode

/-- The word of a well-formed command (30_encoding R83 to R89). -/
def encode : Instr → Word64
  | .nop => makeWord 0x00 0 0
  | .prepare blockSize sampleRate => makeWord 0x01 (BitVec.ofNat 24 blockSize) sampleRate
  | .setpGain value => makeWord 0x02 0 value
  | .setpWave kind => makeWord 0x02 1 ((bitsOfWave kind).setWidth 32)
  | .setpDecay value => makeWord 0x02 2 value
  | .setpBurst value => makeWord 0x02 3 value
  | .setpExcut value => makeWord 0x02 4 value
  | .setpLowcut value => makeWord 0x02 5 value
  | .setpTremrate value => makeWord 0x02 6 value
  | .setpTremdepth value => makeWord 0x02 7 value
  | .setpRevsize value => makeWord 0x02 8 value
  | .setpRevmix value => makeWord 0x02 9 value
  | .noteon pitch velocity => makeWord 0x03 (BitVec.ofNat 24 pitch) velocity
  | .noteoff => makeWord 0x04 0 0
  | .render n => makeWord 0x05 (BitVec.ofNat 24 n) 0

/-- The command the decoder reads from a word of the opcode table, or none where the word is illegal. A command is
one 64-bit word, so the bits from `nbits` on are 0 and no layout in memory is involved (30_encoding R81). -/
def decodeTableWord (nbits w : Nat) : Option Instr :=
  match decode (BitVec.ofNat 64 (w % 2 ^ nbits)) with
  | .command i => some i
  | .illegal _ => none

/-- One row of the opcode table: a word matches it when `W & mask = match` (30_encoding R93). -/
structure Row where
  mnemonic : String
  mask : Word64
  pattern : Word64
deriving DecidableEq, Repr

/-- Whether a word matches a row (30_encoding R93). -/
def Row.accepts (r : Row) (w : Word64) : Bool := w &&& r.mask == r.pattern

/-- The opcode table in its own order (30_encoding R82 to R89). -/
def opcodeTable : List Row := [
  ⟨"NOP", 0xFFFFFFFFFFFFFFFF, 0x0000000000000000⟩,
  ⟨"PREPARE", 0xFF00000000000000, 0x0100000000000000⟩,
  ⟨"SETP.GAIN", 0xFFFFFFFF00000000, 0x0200000000000000⟩,
  ⟨"SETP.WAVE", 0xFFFFFFFFFFFFFFFC, 0x0200000100000000⟩,
  ⟨"SETP.DECAY", 0xFFFFFFFF00000000, 0x0200000200000000⟩,
  ⟨"SETP.BURST", 0xFFFFFFFF00000000, 0x0200000300000000⟩,
  ⟨"SETP.EXCUT", 0xFFFFFFFF00000000, 0x0200000400000000⟩,
  ⟨"SETP.LOWCUT", 0xFFFFFFFF00000000, 0x0200000500000000⟩,
  ⟨"SETP.TREMRATE", 0xFFFFFFFF00000000, 0x0200000600000000⟩,
  ⟨"SETP.TREMDEPTH", 0xFFFFFFFF00000000, 0x0200000700000000⟩,
  ⟨"SETP.REVSIZE", 0xFFFFFFFF00000000, 0x0200000800000000⟩,
  ⟨"SETP.REVMIX", 0xFFFFFFFF00000000, 0x0200000900000000⟩,
  ⟨"NOTEON", 0xFFFFFF8000000000, 0x0300000000000000⟩,
  ⟨"NOTEOFF", 0xFFFFFFFFFFFFFFFF, 0x0400000000000000⟩,
  ⟨"RENDER", 0xFF000000FFFFFFFF, 0x0500000000000000⟩]

/-- The bytes of a word or frame as a byte-addressed host lists them, least significant byte first
(20_memory R66, 30_encoding R97). -/
def wordBytes (w : Word64) : List (BitVec 8) :=
  [w.extractLsb' 0 8, w.extractLsb' 8 8, w.extractLsb' 16 8, w.extractLsb' 24 8,
   w.extractLsb' 32 8, w.extractLsb' 40 8, w.extractLsb' 48 8, w.extractLsb' 56 8]

/-- The word eight listed bytes stand for (20_memory R66); the port has no partial word (R67). -/
def wordOfBytes : List (BitVec 8) → Option Word64
  | [b0, b1, b2, b3, b4, b5, b6, b7] => some (b7 ++ b6 ++ b5 ++ b4 ++ b3 ++ b2 ++ b1 ++ b0)
  | _ => none

/-- `SNAPSHOT g, w, d, b, e, l, r, t, s, m`, the ten SETPs in the order of 30_encoding R96. -/
def snapshot (g : F) (w : Wave) (d b e l r t s m : F) : List Instr :=
  [.setpGain g, .setpWave w, .setpDecay d, .setpBurst b, .setpExcut e, .setpLowcut l, .setpTremrate r,
   .setpTremdepth t, .setpRevsize s, .setpRevmix m]

/-- `BLOCK snapshot, [ev1, ..., evm], n`: the snapshot, the events in their order, one RENDER (30_encoding R96,
47_host_commands R242). An event is a NOTEON or a NOTEOFF. -/
def block (snap : List Instr) (events : List Instr) (n : Nat) : List Instr :=
  snap ++ events ++ [.render n]

end Sys2Proof
end

