-- ==== Sys2Proof/Config.lean ====
section
/-! DEFINITION. The configuration: what an implementation fixes (00_scope R12), `NUM_VOICES` and `CURSOR_W` as the
parameters of the type of states and all else as the fields of `Engine` (log 11), and the free values: constants without a body, of which nothing
can be proved. Each free value is used in one place, which limits it to the properties the spec names. -/

namespace Sys2Proof.Config

/-- This hardware's `NUM_VOICES`, voices in the pool (00_scope R12, 45_voice_pool R194). -/
abbrev numVoices : Nat := 16

/-- This hardware's `CURSOR_W`, the width of `readCursor`, `writeCursor`, `LEN` and `BLOCK_SIZE` (00_scope R12). -/
abbrev cursorWidth : Nat := 32

/-- This hardware's `MAX_LEN`, the largest legal delay buffer length in words (00_scope R12). -/
abbrev maxLen : Nat := 262144

/-- This hardware's `MAX_BLOCK`, the largest legal block size in frames (00_scope R12). -/
abbrev maxBlock : Nat := 8192

/-- The configuration fields of 00_scope R12 that are values and functions: an instance of the engine. Every operation
that depends on one takes the record as an argument, so that a proof can quantify over it (92_eei_decisions, open
parameters). `Machine.ksv` is this hardware. Of the functions nothing is known but that they are functions
(43_feedback_filter R158, 46_global_effects R203). -/
structure Engine where
  /-- `MAX_LEN`, the largest legal delay buffer length in words. -/
  maxLen : Nat
  /-- `MAX_BLOCK`, the largest legal block size in frames. -/
  maxBlock : Nat
  /-- `BUF_SECONDS`, the delay buffer length in seconds. -/
  bufSeconds : F
  /-- `PITCH_ROM`, from MIDI pitch to frequency in Hz (44_voice R172). -/
  pitchRom : Nat → F
  /-- `VEL_GAIN`, from velocity to `noteGain` (44_voice R183). -/
  velGain : F → F
  /-- `DELAY_QUANT`, from `delayTimeSeconds·sampleRate` to an integer (44_voice R175, 90_conflicts C2). -/
  delayQuant : F → Int
  /-- `COEF_LP`, from rate and cutoff to `(b0, b1, a1)` (43_feedback_filter R158). -/
  coefLp : F → F → F × F × F
  /-- `COEF_HP`, from rate and low cut to `(b0, b1, a1)` (46_global_effects R203). -/
  coefHp : F → F → F × F × F

/-- The operations whose result can be a NaN that the spec does not identify (40_numerics R104). -/
inductive NanOp where
  | add | sub | mul | div | floor | fmod2 | sin | exp
deriving DecidableEq, Repr, Inhabited

/-- Free value (log 5): the pattern an operation answers where its result is a NaN (40_numerics R104).
`Machine.nanOf` limits it to the NaNs. -/
opaque rawNan : NanOp → F → F → F

/-- Free value (log 6): the engine's sine (40_numerics R110). `Machine.numSin` limits it to the named properties. -/
opaque rawSin : F → F

/-- Free value (log 7): the engine's exponential (40_numerics R111). `Machine.numExp` limits it to the named
properties. -/
opaque rawExp : F → F

/-- Free value (log 8): the stream of the shared noise source, by draw number (42_exciter R146). `Machine.noise`
limits it to NOISE_RANGE. -/
opaque rawNoise : Nat → F

/-- Free value (log 10): the integer `truncToInt` or `roundHalfAway` gives a NaN or an infinity, which the spec
leaves undefined and no rule asks for (40_numerics R107, R108). -/
opaque unstatedInteger : F → Int

/-- Free value (log 4): how many frames beyond `MAX_BLOCK` the output port's queue holds; R241 says
"at least `MAX_BLOCK` frames" (47_host_commands R241). -/
opaque extraQueue : Nat

/-- `RVState`, the opaque state of the reverb processor (60_exceptions R262), coded as a number (log 9). -/
structure RVState where
  code : Nat
deriving DecidableEq, Repr, Inhabited

/-- Free value (log 9): `RV.reset(sampleRate, blockSize)` (60_exceptions R262). -/
opaque rvReset : F → Nat → RVState

/-- Free value (log 9): the state `RV.process(st, size, n, L, R)` leaves (60_exceptions R262). -/
opaque rvNext : RVState → F → Nat → List F → List F → RVState

/-- Free value (log 9): wet sample `i` of the left channel of `RV.process(st, size, n, L, R)` (60_exceptions R262). -/
opaque rvLeft : RVState → F → Nat → List F → List F → Nat → F

/-- Free value (log 9): wet sample `i` of the right channel of `RV.process(st, size, n, L, R)` (60_exceptions R262). -/
opaque rvRight : RVState → F → Nat → List F → List F → Nat → F

end Sys2Proof.Config
end

