-- ==== Sys2Proof/Machine/Numerics.lean ====
section
/-! DEFINITION. The binary32 arithmetic, the conversions and the integer laws of 40_numerics.md.

Every finite value is a whole multiple of `2^-149`, so a finite value is handled as the integer that counts those
units (`fixOf`), sums, products and quotients are formed exactly on integers, and one function (`roundMag`) rounds
to nearest, ties to even.

The operations are marked irreducible so that simp and rfl never compute inside a sample; the kernel evaluates them
all the same, and a proof about one of them starts with `unfold`. -/

namespace Sys2Proof.Machine

open Sys2Proof.Config

/-! ### Constants (00_scope R16) -/

/-- `+0`. -/
def fZero : F := 0x00000000
/-- `0.5`. -/
def fHalf : F := 0x3F000000
/-- `1.0`. -/
def fOne : F := 0x3F800000
/-- `2.0`. -/
def fTwo : F := 0x40000000
/-- `TWO_PI` (R16). -/
def twoPi : F := 0x40C90FDB
/-- `NEG_TWO_PI` (R16). -/
def negTwoPi : F := 0xC0C90FDB
/-- `+Inf`. -/
def posInf : F := 0x7F800000
/-- `-Inf`. -/
def negInf : F := 0xFF800000

/-! ### The format (40_numerics R100) -/

/-- The sign bit, bit 31. -/
def signBit (x : F) : Bool := x.msb

/-- Bits 30:0: exponent and fraction. They order the magnitudes of all values that are no NaN. -/
def magBits (x : F) : Nat := x.toNat % 2 ^ 31

/-- `magBits` of an infinity; a finite value is below it, a NaN above it. -/
def infBits : Nat := 0x7F800000

/-- Exponent field all ones and fraction not 0. -/
def isNaN (x : F) : Bool := decide (infBits < magBits x)

/-- `+Inf` or `-Inf`. -/
def isInf (x : F) : Bool := magBits x == infBits

/-- Neither an infinity nor a NaN. -/
def isFinite (x : F) : Bool := decide (magBits x < infBits)

/-- `+0` or `-0`. -/
def isZero (x : F) : Bool := magBits x == 0

/-- The value with a sign and the 31 bits of a magnitude. -/
def makeF (negative : Bool) (mag : Nat) : F := BitVec.ofNat 32 (if negative then 2 ^ 31 + mag else mag)

/-- The magnitude of a finite value in units of `2^-149`: the fraction alone for a subnormal (R105), else the
fraction with its hidden bit, shifted by the exponent field less one. -/
def unitsOf (mag : Nat) : Nat :=
  if mag / 2 ^ 23 = 0 then mag % 2 ^ 23 else (2 ^ 23 + mag % 2 ^ 23) * 2 ^ (mag / 2 ^ 23 - 1)

/-- The number of units of `2^-149` in the value 1. -/
def unit : Nat := 2 ^ 149

/-- A finite value as a signed count of units of `2^-149`. -/
def fixOf (x : F) : Int := if signBit x then -(unitsOf (magBits x) : Int) else (unitsOf (magBits x) : Int)

/-! ### Rounding (40_numerics R101) -/

/-- `num / den` rounded to the nearest integer, ties to even. -/
def roundHalfEven (num den : Nat) : Nat :=
  if den < 2 * (num % den) ∨ (2 * (num % den) = den ∧ num / den % 2 = 1) then num / den + 1 else num / den

/-- How far a quotient is shifted to have a 24-bit significand: 0 for a quotient that has no more bits. -/
def shiftOf (q : Nat) : Nat := Nat.log2 q - 23

/-- The 31 bits of the magnitude nearest to `num / den` units, ties to even, were there no largest exponent: the
shift times `2^23` plus the rounded 24-bit significand, whose hidden bit, and a carry out of it, raise the exponent
field by themselves. -/
def roundBits (num den : Nat) : Nat :=
  shiftOf (num / den) * 2 ^ 23 + roundHalfEven num (den * 2 ^ shiftOf (num / den))

/-- The 31 bits of the binary32 magnitude nearest to `num / den` units, ties to even; an infinity on overflow
(R101). -/
@[irreducible] def roundMag (num den : Nat) : Nat :=
  if infBits ≤ roundBits num den then infBits else roundBits num den

/-- The free NaN of an operation, limited to the NaNs (R104, log 5). -/
@[irreducible] def nanOf (op : NanOp) (a b : F) : F :=
  if isNaN (rawNan op a b) then rawNan op a b else 0x7FC00000

/-! ### Arithmetic (40_numerics R101, R102) -/

/-- The sum of `a` and `b`, with `nan` as the NaN where there is none: the exact sum rounded; an exact zero is `-0`
only when both operands are `-0` (R101). -/
@[irreducible] def addCore (nan a b : F) : F :=
  if isNaN a || isNaN b then nan
  else if isInf a then (if isInf b && signBit a != signBit b then nan else a)
  else if isInf b then b
  else if fixOf a + fixOf b = 0 then makeF (signBit a && signBit b) 0
  else makeF (decide (fixOf a + fixOf b < 0)) (roundMag (fixOf a + fixOf b).natAbs 1)

/-- `fneg(a)`: inverts the sign bit (R102). -/
def fneg (a : F) : F := a ^^^ 0x80000000

/-- `fadd(a, b)` (R101). -/
@[irreducible] def fadd (a b : F) : F := addCore (nanOf .add a b) a b

/-- `fsub(a, b)` (R101). -/
@[irreducible] def fsub (a b : F) : F := addCore (nanOf .sub a b) a (fneg b)

/-- `fmul(a, b)` (R101): the sign is the product of the signs, also of a zero. -/
@[irreducible] def fmul (a b : F) : F :=
  if isNaN a || isNaN b || (isInf a && isZero b) || (isZero a && isInf b) then nanOf .mul a b
  else if isInf a || isInf b then makeF (signBit a != signBit b) infBits
  else makeF (signBit a != signBit b) (roundMag (unitsOf (magBits a) * unitsOf (magBits b)) unit)

/-- `fdiv(a, b)` (R101). -/
@[irreducible] def fdiv (a b : F) : F :=
  if isNaN a || isNaN b || (isInf a && isInf b) || (isZero a && isZero b) then nanOf .div a b
  else if isInf a || isZero b then makeF (signBit a != signBit b) infBits
  else if isInf b then makeF (signBit a != signBit b) 0
  else makeF (signBit a != signBit b) (roundMag (unitsOf (magBits a) * unit) (unitsOf (magBits b)))

/-! ### Comparisons (40_numerics R103) -/

/-- The place of a value that is no NaN in the order of R103: both zeros at 0, the infinities at the ends. -/
def orderKey (x : F) : Int := if signBit x then -(magBits x : Int) else (magBits x : Int)

/-- `flt(a, b)`: `a < b`, false with a NaN operand (R103). -/
@[irreducible] def flt (a b : F) : Bool := !isNaN a && !isNaN b && decide (orderKey a < orderKey b)

/-- `fgt(a, b)`: `a > b` (R103). -/
@[irreducible] def fgt (a b : F) : Bool := flt b a

/-- `fge(a, b)`: `a >= b`, false with a NaN operand (R103). -/
@[irreducible] def fge (a b : F) : Bool := !isNaN a && !isNaN b && decide (orderKey b ≤ orderKey a)

/-! ### Floor, conversions, derived operations (40_numerics R106 to R109, R115) -/

/-- `ffloor(x)` (R106): exact; zeros, infinities and NaNs give zeros, infinities and NaNs. -/
@[irreducible] def ffloor (x : F) : F :=
  if isNaN x then nanOf .floor x x
  else if isInf x || isZero x then x
  else makeF (decide (fixOf x / (unit : Int) < 0)) (roundMag ((fixOf x / (unit : Int)).natAbs * unit) 1)

/-- `truncToInt(x)`: the fraction discarded (R107); a free integer where the spec defines none (log 10). -/
@[irreducible] def truncToInt (x : F) : Int :=
  if isFinite x then (fixOf x).tdiv (unit : Int) else unstatedInteger x

/-- `roundHalfAway(x)`: nearest integer, halves away from zero (R108); a free integer where the spec defines none
(log 10). -/
def roundHalfAway (x : F) : Int :=
  if isFinite x then
    (if signBit x then -(((2 * unitsOf (magBits x) + unit) / (2 * unit) : Nat) : Int)
     else (((2 * unitsOf (magBits x) + unit) / (2 * unit) : Nat) : Int))
  else unstatedInteger x

/-- `wrap1(x) = fsub(x, ffloor(x))` (R109). -/
@[irreducible] def wrap1 (x : F) : F := fsub x (ffloor x)

/-- `fmod2(x)`: the remainder by 2 with the sign of `x` (R115). -/
@[irreducible] def fmod2 (x : F) : F :=
  if isFinite x then makeF (signBit x) (roundMag (unitsOf (magBits x) % (2 * unit)) 1)
  else nanOf .fmod2 x x

/-- `emod(a, n)`: the Euclidean remainder, for `n >= 1` (R113). -/
def emod (a n : Int) : Int := a % n

/-! ### The open functions, limited to their named properties (40_numerics R110, R111, 42_exciter R146) -/

/-- Whether a value is finite and in `[lo, hi]`. -/
def inRange (lo hi x : F) : Bool := isFinite x && fge x lo && fge hi x

/-- `NUM.sin(x)` (R110): SIN_ZERO, SIN_BOUND, SIN_FUN and SIN_NAN hold, nothing else is fixed. A raw value out of
bounds is replaced by a value in bounds, so that every function with the four properties is an instance and only
those are (log 6). -/
@[irreducible] def numSin (x : F) : F :=
  if isFinite x then
    if x = fZero then fZero
    else if inRange (fneg fOne) fOne (rawSin x) then rawSin x else fZero
  else nanOf .sin x x

/-- `NUM.exp(x)` (R111): EXP_ZERO, EXP_RANGE, EXP_FUN and EXP_NAN hold, nothing else is fixed (log 7). -/
@[irreducible] def numExp (x : F) : F :=
  if isNaN x then nanOf .exp x x
  else if isZero x then fOne
  else if x = negInf then fZero
  else if x = posInf then posInf
  else if signBit x then (if inRange fZero fOne (rawExp x) then rawExp x else fZero)
  else rawExp x

/-- `noise(j)`, the value the noise source delivers at draw `j`: NOISE_RANGE holds, nothing else is fixed
(42_exciter R146, log 8). -/
@[irreducible] def noise (j : Nat) : F := if inRange (fneg fOne) fOne (rawNoise j) then rawNoise j else fZero

end Sys2Proof.Machine
end

