-- ==== Sys2Proof/Machine/State.lean ====
section
/-! DEFINITION. The state of the engine as plain data (10_state R20), its fault and refusal types, and the state
after reset. -/

namespace Sys2Proof.Machine

open Sys2Proof.Config

/-- A word memory (20_memory R60, R61): pairs of word index and binary32 value, indices strictly rising, no pair
holding `+0`, which is what an unlisted word reads as (log 1). -/
abbrev Memory := List (Nat × F)

/-- The five registers of a first-order section (43_feedback_filter R155). -/
structure Section1 where
  /-- Coefficient of the input. -/
  b0 : F
  /-- Coefficient of the previous input. -/
  b1 : F
  /-- Coefficient of the previous output. -/
  a1 : F
  /-- The previous input. -/
  x1 : F
  /-- The previous output. -/
  y1 : F
deriving DecidableEq, Repr, Inhabited

/-- The register file of one voice (10_state R22), with its delay buffer; `CURSOR_W` is a parameter (00_scope R12). -/
structure Voice (cursorWidth : Nat := Config.cursorWidth) where
  /-- `V[v].active`: Idle (false) or Sounding (true) (R23). -/
  active : Bool
  /-- `V[v].wc`, write cursor (R24). -/
  wc : BitVec cursorWidth
  /-- `V[v].rc`, read cursor (R24). -/
  rc : BitVec cursorWidth
  /-- `V[v].freqHz` (R25). -/
  freqHz : F
  /-- `V[v].delayTime` (R25). -/
  delayTime : F
  /-- `V[v].decay` (R26). -/
  decay : F
  /-- `V[v].burst` (R26). -/
  burst : F
  /-- `V[v].wave` (R26). -/
  wave : Wave
  /-- `V[v].exGain` (R27). -/
  exGain : F
  /-- `V[v].phase` (R28). -/
  phase : F
  /-- `V[v].noteGain` (R29). -/
  noteGain : F
  /-- `V[v].lp`, the feedback filter (R30). -/
  lp : Section1
  /-- `V[v].buf`, the delay buffer (R22, 20_memory R60). -/
  buf : Memory
deriving DecidableEq, Repr, Inhabited

/-- The ten parameter registers `P[0..9]`, by name (10_state R35). -/
structure Params where
  /-- `P[0]`. -/
  gain : F
  /-- `P[1]`, two bits. -/
  wave : Wave
  /-- `P[2]`. -/
  decay : F
  /-- `P[3]`. -/
  burst : F
  /-- `P[4]`. -/
  excut : F
  /-- `P[5]`. -/
  lowcut : F
  /-- `P[6]`. -/
  tremrate : F
  /-- `P[7]`. -/
  tremdepth : F
  /-- `P[8]`. -/
  revsize : F
  /-- `P[9]`. -/
  revmix : F
deriving DecidableEq, Repr, Inhabited

/-- What the host does to the engine (00_scope R10): it offers a word at the command port, takes a frame from the
output port, or pulses the reset input. -/
inductive HostEvent where
  | word (w : Word64)
  | take
  | reset
deriving DecidableEq, Repr

/-- The state of the engine (10_state R20). `NUM_VOICES` and `CURSOR_W`, on which its shape depends, are parameters
(00_scope R12, log 11); `State` alone is that of this hardware, with 16 voices and 32-bit cursors. -/
structure State (numVoices : Nat := Config.numVoices) (cursorWidth : Nat := Config.cursorWidth) where
  /-- `SR`, the sample rate (10_state R34). -/
  sr : F
  /-- `LEN`, the delay buffer length (10_state R34). -/
  len : BitVec cursorWidth
  /-- `BLOCK_SIZE`, the largest block a RENDER may ask for (10_state R34). -/
  blockSize : BitVec cursorWidth
  /-- `P[0..9]` (10_state R35). -/
  params : Params
  /-- `PVALID`: bit `k` says `P[k]` has been written since reset (10_state R36). -/
  pvalid : BitVec 10
  /-- `V[0..NUM_VOICES-1]` (10_state R22). -/
  voices : Vector (Voice cursorWidth) numVoices
  /-- `HP`, the high-pass section (10_state R39). -/
  hp : Section1
  /-- `TPH`, the tremolo phase (10_state R40). -/
  tph : F
  /-- `DRY` (10_state R42). -/
  dry : Memory
  /-- `WETL` (10_state R42). -/
  wetL : Memory
  /-- `WETR` (10_state R42). -/
  wetR : Memory
  /-- `PREPARED` (10_state R44). -/
  prepared : Bool
  /-- `FAULT` (10_state R44). -/
  fault : Bool
  /-- `CAUSE` (10_state R44). -/
  cause : BitVec 4
  /-- `NOISE_STATE`, draws taken so far (10_state R46). -/
  noiseState : Nat
  /-- `RV_STATE` (10_state R46). -/
  rvState : RVState
  /-- The output port's queue, oldest frame first (47_host_commands R241). -/
  outQueue : List Word64
  /-- Frames a RENDER has computed that wait for room in the queue, oldest first (47_host_commands R241, log 4). -/
  emitting : List Word64
  /-- The MODEL's own field: what the host does next, in order (10_state R48, log 3). -/
  hostIn : List HostEvent
deriving DecidableEq, Repr

/-- Reasons for the machine to stop with a fault: none. Every fault of the spec is a state of the engine, entered by
`raise Fault` (60_exceptions R255) and modelled as a next state; no arithmetic and no memory access faults (R257).
Nobody raises one, which is safe (log 14). -/
inductive Fault where
deriving DecidableEq, Repr

/-- Reasons for the model to refuse an instruction. -/
inductive Refusal where
  /-- Raised only by an arm of `exec` whose instruction has no meaning in this model; no arm raises it. Safe: a
  refusal has no next state (log 14). -/
  | notModelled (mnemonic : String)
deriving DecidableEq, Repr

/-- A section with every register `+0`. -/
def Section1.zero : Section1 := ⟨0, 0, 0, 0, 0⟩

/-- A voice as PREPARE leaves it: Idle, cursors 0, every other register `+0` or kind 0, buffer all `+0`
(10_state R49). -/
def Voice.zero {cursorWidth : Nat} : Voice cursorWidth :=
  { active := false, wc := 0, rc := 0, freqHz := 0, delayTime := 0, decay := 0, burst := 0, wave := .sine,
    exGain := 0, phase := 0, noteGain := 0, lp := .zero, buf := [] }

/-- Every parameter register 0: the model's choice, the spec gives none (10_state R49, log 2). -/
def Params.zero : Params := ⟨0, .sine, 0, 0, 0, 0, 0, 0, 0, 0⟩

/-- The engine right after hardware reset at power-on: the values of 70_reset_and_hazards R280, and for every
register R49 calls unspecified the value named in log 2. -/
def State.reset : State :=
  { sr := 0, len := 0, blockSize := 0, params := .zero, pvalid := 0, voices := Vector.replicate numVoices .zero,
    hp := .zero, tph := 0, dry := [], wetL := [], wetR := [], prepared := false, fault := false, cause := 0,
    noiseState := 0, rvState := ⟨0⟩, outQueue := [], emitting := [], hostIn := [] }

end Sys2Proof.Machine
end

