-- ==== Sys2Proof/Machine/Ops.lean ====
section
/-! DEFINITION. The named operations over memories, voices, the noise source, the ports and the fault registers,
with fault entry and the reset that leaves the fault state. -/

namespace Sys2Proof.Machine

open Sys2Proof.Config

variable {nv cw : Nat}

/-! ### Word memories (20_memory R64, R65) -/

/-- `MemRead(m, i)` (R64): the value last written to word `i`; a word nothing has written since it was cleared
reads as `+0`. It has no out-of-range case (R63). -/
def memRead : Memory → Nat → F
  | [], _ => fZero
  | (j, w) :: rest, i => if j = i then w else memRead rest i

/-- `MemWrite(m, i, v)` (R65): replaces word `i`, all 32 bits, and nothing else. A word that holds `+0` is not
listed, so that equal memories are equal lists (log 1). -/
def memWrite (m : Memory) (i : Nat) (v : F) : Memory :=
  m.filter (fun c => decide (c.1 < i)) ++ (if v = fZero then [] else [(i, v)]) ++
    m.filter (fun c => decide (i < c.1))

/-- Indices rise strictly from `lo` on and no listed word is `+0`. -/
def Memory.wfFrom : Nat → Memory → Bool
  | _, [] => true
  | lo, (i, w) :: rest => decide (lo ≤ i) && w != fZero && Memory.wfFrom (i + 1) rest

/-- The canonical form of a memory (log 1). -/
def Memory.wf (m : Memory) : Bool := Memory.wfFrom 0 m

/-- Every listed index lies below `n`: nothing stands outside the memory's words (R60, R63). -/
def Memory.below (n : Nat) (m : Memory) : Bool := m.all (fun c => decide (c.1 < n))

/-! ### Voices (10_state R22) -/

/-- The register file of voice `v`. -/
def State.voice (s : State nv cw) (v : Fin nv) : Voice cw := s.voices[v]

/-- The state with the register file of voice `v` replaced. -/
def State.setVoice (s : State nv cw) (v : Fin nv) (r : Voice cw) : State nv cw := { s with voices := s.voices.set v r }

/-- The fixed order of the voices: ascending index (45_voice_pool R190, R195). -/
def voiceOrder (nv : Nat) : List (Fin nv) := List.finRange nv

/-! ### Loops -/

/-- `for i <- 0 to n - 1 do`, the loops of 46_global_effects R201: `f 0` first, `f (n - 1)` last. -/
def forIndex {α : Type} : Nat → (Nat → α → α) → α → α
  | 0, _, a => a
  | n + 1, f, a => f n (forIndex n f a)

/-! ### The noise source (42_exciter R146) -/

/-- `draw()`: the next value of the stream; the count of draws goes up by one (R146). -/
def draw (s : State nv cw) : F × State nv cw := (noise s.noiseState, { s with noiseState := s.noiseState + 1 })

/-! ### The output port (47_host_commands R241) -/

/-- How many frames the output port's queue holds: at least `MAX_BLOCK` (R241, log 4). -/
def queueCapacity (cfg : Engine) : Nat := cfg.maxBlock + extraQueue

/-- Frames that wait for room move into the queue, oldest first, as far as there is room; with a full queue
nothing changes (R241). -/
def drain (cfg : Engine) (s : State nv cw) : State nv cw :=
  { s with
    outQueue := s.outQueue ++ s.emitting.take (queueCapacity cfg - s.outQueue.length)
    emitting := s.emitting.drop (queueCapacity cfg - s.outQueue.length) }

/-- The frame `bitsOf(r) ++ bitsOf(l)`: right in bits 63:32, left in bits 31:0 (R241). -/
def frameOf (l r : F) : Word64 := r ++ l

/-- `emit` of a block's frames in order: they join the frames that wait, and what has room goes into the queue
(R241). -/
def emitFrames (cfg : Engine) (frames : List Word64) (s : State nv cw) : State nv cw :=
  drain cfg { s with emitting := s.emitting ++ frames }

/-- The host takes the oldest frame of the queue, if there is one; room it makes is filled at once (R241,
R243). -/
def takeFrame (cfg : Engine) (s : State nv cw) : State nv cw := drain cfg { s with outQueue := s.outQueue.drop 1 }

/-! ### Faults (60_exceptions R255, R257) and hardware reset (70_reset_and_hazards R280) -/

/-- The causes of 60_exceptions R257. -/
inductive Cause where
  | illegalCmd | notPrepared | badPrepare | badBlock | paramUnset
deriving DecidableEq, Repr

/-- The cause codes (R257). -/
def causeCode : Cause → BitVec 4
  | .illegalCmd => 1
  | .notPrepared => 2
  | .badPrepare => 3
  | .badBlock => 4
  | .paramUnset => 5

/-- `raise Fault(c)`, fault entry: `FAULT <- 1; CAUSE <- c`. Nothing is saved, control goes nowhere, no other
register changes (R255). -/
def raiseFault (c : Cause) (s : State nv cw) : State nv cw := { s with fault := true, cause := causeCode c }

/-- Hardware reset, the one exit from the fault state (R258, R280): `PREPARED`, `FAULT`, `CAUSE`, `PVALID` and
`NOISE_STATE` to 0, the output queue emptied, a command in execution abandoned; every other piece of state is left
as it was. -/
def hardReset (s : State nv cw) : State nv cw :=
  { s with
    prepared := false, fault := false, cause := 0, pvalid := 0, noiseState := 0
    outQueue := [], emitting := [] }

end Sys2Proof.Machine
end

