-- ==== Sys2Proof/Machine/Flags.lean ====
section
/-! DEFINITION. The flags of 10_state R45 (the PVALID bits, the active bits, PREPARED, FAULT) as commands test
and set them, and the status wires driven from them (10_state R47). There are no arithmetic flags. -/

namespace Sys2Proof.Machine

open Sys2Proof.Config

variable {nv cw : Nat}

/-- Bit `k` of `PVALID` (10_state R36). -/
def validBit (k : Nat) (s : State nv cw) : Bool := s.pvalid.getLsbD k

/-- `PVALID[k] <- 1` (47_host_commands R234, R235). -/
def markValid (k : Nat) (s : State nv cw) : State nv cw := { s with pvalid := s.pvalid ||| BitVec.twoPow 10 k }

/-- The parameters a NOTEON reads have been written: `PVALID[1..4]` (47_host_commands R236). -/
def noteParamsValid (s : State nv cw) : Bool := validBit 1 s && validBit 2 s && validBit 3 s && validBit 4 s

/-- The parameters a RENDER reads have been written: `PVALID[k]` for `k` in 0, 5, 6, 7, 8, 9 (47_host_commands
R239). -/
def blockParamsValid (s : State nv cw) : Bool :=
  validBit 0 s && validBit 5 s && validBit 6 s && validBit 7 s && validBit 8 s && validBit 9 s

/-- The status wire `prepared_o` (10_state R47). -/
def preparedO (s : State nv cw) : Bool := s.prepared

/-- The status wire `fault_o` (10_state R47). -/
def faultO (s : State nv cw) : Bool := s.fault

/-- The status wires `cause_o[3:0]` (10_state R47). -/
def causeO (s : State nv cw) : BitVec 4 := s.cause

/-- The status wires `active_o`, one for each voice: bit `v` is `V[v].active` when `PREPARED = 1`, else 0 (10_state R47). -/
def activeO (s : State nv cw) : BitVec nv := BitVec.ofFnLE (fun v : Fin nv => s.prepared && (s.voice v).active)

end Sys2Proof.Machine
end

