-- ==== Sys2Proof/Machine/DelayLine.lean ====
section
/-! DEFINITION. The ring delay line (41_ring_delay_line.md): `DL.READ` and `DL.WRITE`. -/

namespace Sys2Proof.Machine

open Sys2Proof.Config

variable {nv cw : Nat}

/-- `DL.READ(v, pos)` (41_ring_delay_line R131): no state is written. -/
def dlRead (v : Fin nv) (pos : Nat) (s : State nv cw) : F := memRead (s.voice v).buf pos

/-- `DL.WRITE(v, pos, x)` (41_ring_delay_line R132): the one word `V[v].buf[pos]` is written, whatever `x` is. -/
def dlWrite (v : Fin nv) (pos : Nat) (x : F) (s : State nv cw) : State nv cw :=
  s.setVoice v { s.voice v with buf := memWrite (s.voice v).buf pos x }

end Sys2Proof.Machine
end

