-- ==== Sys2Proof/Machine/Exciter.lean ====
section
/-! DEFINITION. The exciter (42_exciter.md): the four waveforms and `EXC.SAMPLE`. -/

namespace Sys2Proof.Machine

open Sys2Proof.Config

variable {nv cw : Nat}

/-- `WAVE(0, p)`, Sine (42_exciter R142). -/
def waveSine (p : F) : F := numSin (fmul twoPi p)

/-- `WAVE(1, p)`, Sawtooth: the formula on the one wrapped phase (42_exciter R143, 90_conflicts C3). -/
def waveSawtooth (p : F) : F := fsub (fmod2 (fmul fTwo p)) fOne

/-- `WAVE(2, p)`, Square (42_exciter R144). -/
def waveSquare (p : F) : F := if fge (numSin (fmul twoPi p)) fZero then fOne else fneg fOne

/-- `WAVE(k, p)` (42_exciter R142 to R145); kind 3 takes one draw and does not read `p`. -/
def waveValue (k : Wave) (p : F) (s : State nv cw) : F × State nv cw :=
  match k with
  | .sine => (waveSine p, s)
  | .sawtooth => (waveSawtooth p, s)
  | .square => (waveSquare p, s)
  | .noise => draw s

/-- The decay step of the gain, `fdiv(1.0, fmul(burst, SR))` (42_exciter R148). -/
def gainStep (burst sr : F) : F := fdiv fOne (fmul burst sr)

/-- `clamp0(g)`: `g` if `g > 0`, else `+0` (42_exciter R148). -/
def clamp0 (g : F) : F := if fgt g fZero then g else fZero

/-- `EXC.SAMPLE(v)` (42_exciter R141): while the gain is above 0, the waveform value times the gain, and then one
decay step of the gain; otherwise `+0`, no draw and no change. -/
def excSample (v : Fin nv) (s : State nv cw) : F × State nv cw :=
  if fgt (s.voice v).exGain fZero then
    (fmul (waveValue (s.voice v).wave (s.voice v).phase s).1 (s.voice v).exGain,
      (waveValue (s.voice v).wave (s.voice v).phase s).2.setVoice v
        { s.voice v with exGain := clamp0 (fsub (s.voice v).exGain (gainStep (s.voice v).burst s.sr)) })
  else (fZero, s)

end Sys2Proof.Machine
end

