-- ==== Sys2Proof/Machine/Filter.lean ====
section
/-! DEFINITION. The first-order section and the feedback filter (43_feedback_filter.md). -/

namespace Sys2Proof.Machine

open Sys2Proof.Config

variable {nv cw : Nat}

/-- The output of a section for the input `x`: `fsub(fadd(fmul(b0, x), fmul(b1, x1)), fmul(a1, y1))`
(43_feedback_filter R156).
DEDUCED (log 18): R156's corner case says `+0` for all state zero and `x = +0`, for any finite coefficients; its
pseudocode, which this follows, gives `-0` when `b0 < 0`, `b1 < 0` and `a1 > 0`, coefficients that only another instance
has. Safe. -/
def iir1Out (S : Section1) (x : F) : F := fsub (fadd (fmul S.b0 x) (fmul S.b1 S.x1)) (fmul S.a1 S.y1)

/-- `IIR1.STEP(S, x)` (43_feedback_filter R156): the output, and the section with `x1 <- x`, `y1 <- y`. -/
def iir1Step (S : Section1) (x : F) : F × Section1 := (iir1Out S x, { S with x1 := x, y1 := iir1Out S x })

/-- The pole `exp(-2π·fc/sr)` of both default coefficient functions (43_feedback_filter R158, 46_global_effects
R203). -/
def poleOf (sr fc : F) : F := numExp (fmul negTwoPi (fdiv fc sr))

/-- This hardware's `COEF_LP(sr, fc)`, as `(b0, b1, a1)`: the default (43_feedback_filter R158, 00_scope R12). -/
def coefLp (sr fc : F) : F × F × F := (fsub fOne (poleOf sr fc), fZero, fneg (poleOf sr fc))

/-- This hardware's `COEF_HP(sr, fc)`, as `(b0, b1, a1)`: the default (46_global_effects R203, 00_scope R12). -/
def coefHp (sr fc : F) : F × F × F :=
  (fmul fHalf (fadd fOne (poleOf sr fc)), fneg (fmul fHalf (fadd fOne (poleOf sr fc))), fneg (poleOf sr fc))

/-- A section with new coefficients; its internal state is kept. -/
def withCoefs (S : Section1) (c : F × F × F) : Section1 := { S with b0 := c.1, b1 := c.2.1, a1 := c.2.2 }

/-- `LP.RETUNE(v, cutoff)`: new coefficients and the internal state reset to zero (43_feedback_filter R159). -/
def lpRetune (cfg : Engine) (v : Fin nv) (cutoff : F) (s : State nv cw) : State nv cw :=
  s.setVoice v { s.voice v with
    lp := { withCoefs (s.voice v).lp (cfg.coefLp s.sr cutoff) with x1 := fZero, y1 := fZero } }

end Sys2Proof.Machine
end

