-- ==== Sys2Proof/Machine/Operands.lean ====
section
/-! DEFINITION. The checks the commands make of their operands (47_host_commands R232, R239). -/

namespace Sys2Proof.Machine

open Sys2Proof.Config

variable {nv cw : Nat}

/-- The delay buffer length in words, `round(sampleRate * BUF_SECONDS)` (10_state R34). With `BUF_SECONDS = 1.0` the
product is exact and this is the `roundHalfAway(sampleRate)` of 47_host_commands R233 (`bufLength_ksv`).
DESIGN CHOICE (log 11): the spec defines the product and its rounding for 1.0 only; that the product of another
`BUF_SECONDS` is the binary32 one, and that one that is no finite value has the free integer of log 10 as its length,
is the model's. Safe for this hardware, which never meets either. -/
def bufLength (cfg : Engine) (sampleRate : F) : Int := roundHalfAway (fmul sampleRate cfg.bufSeconds)

/-- `sampleRate` is acceptable: finite, and `1 <= LEN <= MAX_LEN` for the `LEN` it gives (47_host_commands R232).
DESIGN CHOICE (log 11): only the rate is checked to be finite, as R232 says; on another instance, where a finite rate
times `BUF_SECONDS` can overflow, a free integer decides. On this hardware it never does (`rateAcceptable_ksv`). -/
def rateAcceptable (cfg : Engine) (sampleRate : F) : Bool :=
  isFinite sampleRate && decide (1 ≤ bufLength cfg sampleRate) && decide (bufLength cfg sampleRate ≤ (cfg.maxLen : Int))

/-- `blockSize` is acceptable: `1 <= blockSize <= MAX_BLOCK` (47_host_commands R232). -/
def blockSizeAcceptable (cfg : Engine) (blockSize : Nat) : Bool :=
  decide (1 ≤ blockSize) && decide (blockSize ≤ cfg.maxBlock)

/-- Both arguments of a PREPARE are acceptable (47_host_commands R232). -/
def prepareAcceptable (cfg : Engine) (blockSize : Nat) (sampleRate : F) : Bool :=
  blockSizeAcceptable cfg blockSize && rateAcceptable cfg sampleRate

/-- The count of a RENDER is acceptable: neither `n = 0` nor `n > BLOCK_SIZE` (47_host_commands R239). -/
def countAcceptable (n : Nat) (s : State nv cw) : Bool := decide (1 ≤ n) && decide (n ≤ s.blockSize.toNat)

/-- A natural number in a register of `CURSOR_W` bits, `zext_N` of 00_scope R15, 30_encoding R90 (log 17). -/
def zextN (n : Nat) : BitVec cw := BitVec.ofNat cw n

/-- A computed cursor in its register of `CURSOR_W` bits; `emod(., LEN)` has brought it into range (40_numerics R114,
log 17). -/
def cursorOf (a : Int) : BitVec cw := BitVec.ofInt cw a

end Sys2Proof.Machine
end

