-- ==== Sys2Proof/Machine/VoiceOps.lean ====
section
/-! DEFINITION. The voice (44_voice.md): `V.START`, `V.STOP`, `V.RENDER`, `V.ISACTIVE`. -/

namespace Sys2Proof.Machine

open Sys2Proof.Config

variable {nv cw : Nat}

/-- `V.ISACTIVE(v)` (44_voice R186). -/
def vIsActive (v : Fin nv) (s : State nv cw) : Bool := (s.voice v).active

/-- `V.START(v, pitch, velocity, decay, burstWidth, waveformKind, cutoff)` (44_voice R173). The phase, the read
cursor and the buffer are not written (R174). -/
def vStart (cfg : Engine) (v : Fin nv) (pitch : Nat) (velocity decay burstWidth : F) (kind : Wave)
    (cutoff : F) (s : State nv cw) : State nv cw :=
  lpRetune cfg v cutoff
    (s.setVoice v { s.voice v with
      freqHz := cfg.pitchRom pitch
      delayTime := fdiv fOne (cfg.pitchRom pitch)
      exGain := fOne
      wc := 0
      active := true
      decay := decay
      burst := burstWidth
      wave := kind
      noteGain := cfg.velGain velocity })

/-- `V.STOP(v)`: `active <- 0` and nothing else (44_voice R184). -/
def vStop (v : Fin nv) (s : State nv cw) : State nv cw := s.setVoice v { s.voice v with active := false }

/-- `delaySamples(v)`, `DELAY_QUANT` of `fmul(V[v].delayTime, SR)` (44_voice R175). -/
def delaySamples (cfg : Engine) (v : Fin nv) (s : State nv cw) : Int :=
  cfg.delayQuant (fmul (s.voice v).delayTime s.sr)

/-- `V[v].rc <- emod(V[v].wc - delaySamples(v), LEN)` (44_voice R176). -/
def seekReadCursor (cfg : Engine) (v : Fin nv) (s : State nv cw) : State nv cw :=
  s.setVoice v { s.voice v with
    rc := cursorOf (emod (((s.voice v).wc.toNat : Int) - delaySamples cfg v s) (s.len.toNat : Int)) }

/-- The next phase, `wrap1(fadd(phase, fdiv(freqHz, SR)))` (44_voice R178). -/
def nextPhase (phase freqHz sr : F) : F := wrap1 (fadd phase (fdiv freqHz sr))

/-- The phase advance of a voice (44_voice R178). -/
def advancePhase (v : Fin nv) (s : State nv cw) : State nv cw :=
  s.setVoice v { s.voice v with phase := nextPhase (s.voice v).phase (s.voice v).freqHz s.sr }

/-- `y <- IIR1.STEP(V[v].lp, x)` (44_voice R180): the output and the state with the section stepped. -/
def lpStep (v : Fin nv) (x : F) (s : State nv cw) : F × State nv cw :=
  ((iir1Step (s.voice v).lp x).1, s.setVoice v { s.voice v with lp := (iir1Step (s.voice v).lp x).2 })

/-- One cursor step, `emod(c + 1, LEN)` (44_voice R181). -/
def stepCursor (c len : BitVec cw) : BitVec cw :=
  cursorOf (emod ((c.toNat : Int) + 1) (len.toNat : Int))

/-- Both cursors advance by one (44_voice R181). -/
def advanceCursors (v : Fin nv) (s : State nv cw) : State nv cw :=
  s.setVoice v { s.voice v with
    wc := stepCursor (s.voice v).wc s.len
    rc := stepCursor (s.voice v).rc s.len }

/-- `V.RENDER(v)` (44_voice R171), the steps in its order: an Idle voice returns `+0` without side effects (R185);
a Sounding one recomputes the read cursor, takes the exciter sample, advances the phase, reads the delayed sample,
filters it, writes `fadd(e, fmul(y, decay))` back, advances both cursors and returns `fmul(y, noteGain)`. -/
def vRender (cfg : Engine) (v : Fin nv) (s : State nv cw) : F × State nv cw :=
  if vIsActive v s then
    let s1 := seekReadCursor cfg v s
    let e := excSample v s1
    let s2 := advancePhase v e.2
    let x := dlRead v (s2.voice v).rc.toNat s2
    let y := lpStep v x s2
    let s3 := dlWrite v (y.2.voice v).wc.toNat (fadd e.1 (fmul y.1 (y.2.voice v).decay)) y.2
    (fmul y.1 (s3.voice v).noteGain, advanceCursors v s3)
  else (fZero, s)

end Sys2Proof.Machine
end

