-- ==== Sys2Proof/Machine/Pool.lean ====
section
/-! DEFINITION. The voice pool (45_voice_pool.md): `POOL.NOTEON`, `POOL.NOTEOFF`, `POOL.SUM`. -/

namespace Sys2Proof.Machine

open Sys2Proof.Config

variable {nv cw : Nat}

/-- The scan of `POOL.NOTEON` over the voices still to be looked at: the first one that is Idle is started, the
rest is not looked at; with none Idle nothing happens (45_voice_pool R190, R192). -/
def scanNoteon (cfg : Engine) (pitch : Nat) (velocity decay burstWidth : F) (kind : Wave) (cutoff : F) :
    List (Fin nv) → State nv cw → State nv cw
  | [], s => s
  | v :: rest, s =>
    if vIsActive v s then scanNoteon cfg pitch velocity decay burstWidth kind cutoff rest s
    else vStart cfg v pitch velocity decay burstWidth kind cutoff s

/-- `POOL.NOTEON(pitch, velocity, decay, burstWidth, waveformKind, cutoff)` (45_voice_pool R190). -/
def poolNoteon (cfg : Engine) (pitch : Nat) (velocity decay burstWidth : F) (kind : Wave) (cutoff : F)
    (s : State nv cw) : State nv cw :=
  scanNoteon cfg pitch velocity decay burstWidth kind cutoff (voiceOrder nv) s

/-- `POOL.NOTEOFF()`: `V.STOP` on every voice (45_voice_pool R193). -/
def poolNoteoff (s : State nv cw) : State nv cw := (voiceOrder nv).foldl (fun t v => vStop v t) s

/-- One addition of the pool sum: the voice is rendered and its sample added (45_voice_pool R195). -/
def sumStep (cfg : Engine) (a : F × State nv cw) (v : Fin nv) : F × State nv cw :=
  (fadd a.1 (vRender cfg v a.2).1, (vRender cfg v a.2).2)

/-- `POOL.SUM()`: every voice once, ascending, from `+0` (45_voice_pool R195). -/
def poolSum (cfg : Engine) (s : State nv cw) : F × State nv cw := (voiceOrder nv).foldl (sumStep cfg) (fZero, s)

end Sys2Proof.Machine
end

