-- ==== Sys2Proof/Machine/Effects.lean ====
section
/-! DEFINITION. The global effects chain (46_global_effects.md): the high-pass filter, the tremolo, the reverb
stage, the mixer and the block procedure. -/

namespace Sys2Proof.Machine

open Sys2Proof.Config

variable {nv cw : Nat}

/-- `HP.RETUNE(lowCut)`: the three coefficients; the internal state is kept (46_global_effects R202). -/
def hpRetune (cfg : Engine) (lowCut : F) (s : State nv cw) : State nv cw :=
  { s with hp := withCoefs s.hp (cfg.coefHp s.sr lowCut) }

/-- `h <- IIR1.STEP(HP, x)` (46_global_effects R204). -/
def hpStep (x : F) (s : State nv cw) : F × State nv cw := ((iir1Step s.hp x).1, { s with hp := (iir1Step s.hp x).2 })

/-- The tremolo factor `fsub(1.0, fmul(fmul(depth, 0.5), fadd(1.0, sn)))` for the phase `tph`
(46_global_effects R206). -/
def tremFactor (depth tph : F) : F := fsub fOne (fmul (fmul depth fHalf) (fadd fOne (numSin (fmul twoPi tph))))

/-- The next tremolo phase, `wrap1(fadd(TPH, fdiv(rate, SR)))` (46_global_effects R206). -/
def nextTph (rate tph sr : F) : F := wrap1 (fadd tph (fdiv rate sr))

/-- `TREM.STEP(rate, depth)`: the factor of the phase before the advance, and the advance (46_global_effects
R206). -/
def tremStep (rate depth : F) (s : State nv cw) : F × State nv cw :=
  (tremFactor depth s.tph, { s with tph := nextTph rate s.tph s.sr })

/-- Sample `i` of step (2) of the block: pool sum, high-pass, tremolo, and the product into `DRY[i]`
(46_global_effects R201, R209).
DEDUCED (log 18): 47_host_commands R239's corner case, after R205, says that with all voices Idle the dry block is all
zeros. By the pseudocode, which this follows, a high-pass section that holds non-zero values rings on, and a `lowCut` or
`depth` that is a NaN gives NaNs. Safe. -/
def drySample (cfg : Engine) (rate depth : F) (i : Nat) (s : State nv cw) : State nv cw :=
  let p := poolSum cfg s
  let h := hpStep p.1 p.2
  let l := tremStep rate depth h.2
  { l.2 with dry := memWrite l.2.dry i (fmul h.1 l.1) }

/-- Step (2): the `n` dry samples, strictly in index order (46_global_effects R201). -/
def dryPass (cfg : Engine) (n : Nat) (rate depth : F) (s : State nv cw) : State nv cw :=
  forIndex n (drySample cfg rate depth) s

/-- Step (3), the copy: both channels of the scratch buffer receive the dry block (46_global_effects R201, R210). -/
def copyPass (n : Nat) (s : State nv cw) : State nv cw :=
  forIndex n
    (fun i t => { t with wetL := memWrite t.wetL i (memRead t.dry i), wetR := memWrite t.wetR i (memRead t.dry i) }) s

/-- Words `0` to `n - 1` of a memory. -/
def wordsOf (n : Nat) (m : Memory) : List F := (List.range n).map (memRead m)

/-- A memory with words `0` to `n - 1` replaced by `f 0` to `f (n - 1)`. -/
def writeWords (n : Nat) (f : Nat → F) (m : Memory) : Memory := forIndex n (fun i t => memWrite t i (f i)) m

/-- Step (3), `(RV_STATE, WETL, WETR) <- RV.process(RV_STATE, size, n, WETL, WETR)`: the reverb processor's answer,
`n` wet samples a channel, replaces the scratch contents (46_global_effects R210, 60_exceptions R262, log 9). -/
def reverbPass (n : Nat) (size : F) (s : State nv cw) : State nv cw :=
  { s with
    rvState := rvNext s.rvState size n (wordsOf n s.wetL) (wordsOf n s.wetR)
    wetL := writeWords n (rvLeft s.rvState size n (wordsOf n s.wetL) (wordsOf n s.wetR)) s.wetL
    wetR := writeWords n (rvRight s.rvState size n (wordsOf n s.wetL) (wordsOf n s.wetR)) s.wetR }

/-- `MIX.FRAME(d, w, mix, gain)` (46_global_effects R211). -/
def mixFrame (d w mix gain : F) : F := fmul (fadd (fmul d (fsub fOne mix)) (fmul w mix)) gain

/-- Step (4): the frames of the block in sample-index order, one channel each from its own wet samples
(46_global_effects R201, R211, R214). -/
def blockFrames (n : Nat) (mix gain : F) (s : State nv cw) : List Word64 :=
  (List.range n).map fun i =>
    frameOf (mixFrame (memRead s.dry i) (memRead s.wetL i) mix gain)
      (mixFrame (memRead s.dry i) (memRead s.wetR i) mix gain)

/-- Steps (1) to (3): the state in which the frames are formed (46_global_effects R201). -/
def renderedBlock (cfg : Engine) (n : Nat) (lowCut rate depth size : F) (s : State nv cw) : State nv cw :=
  reverbPass n size (copyPass n (dryPass cfg n rate depth (hpRetune cfg lowCut s)))

/-- `FX.BLOCK(n, gain, lowCut, rate, depth, size, mix)` (46_global_effects R201). -/
def fxBlock (cfg : Engine) (n : Nat) (gain lowCut rate depth size mix : F) (s : State nv cw) : State nv cw :=
  emitFrames cfg (blockFrames n mix gain (renderedBlock cfg n lowCut rate depth size s))
    (renderedBlock cfg n lowCut rate depth size s)

end Sys2Proof.Machine
end

