-- ==== Sys2Proof/Machine/Instance.lean ====
section
/-! DEFINITION. This hardware's values of the configuration fields. -/

namespace Sys2Proof.Machine

open Sys2Proof.Config

/-- This hardware: the values in the column "value" of 00_scope R12. Its `NUM_VOICES` and `CURSOR_W` are those of the
type `State`, the parameters of which default to them. -/
def ksv : Engine :=
  { maxLen := maxLen
    maxBlock := maxBlock
    bufSeconds := fOne
    pitchRom := pitchRom
    velGain := velGain
    delayQuant := truncToInt
    coefLp := coefLp
    coefHp := coefHp }

end Sys2Proof.Machine
end

