-- ==== Sys2Proof/Machine/Commands.lean ====
section
/-! DEFINITION. The meanings of the commands (47_host_commands.md), one definition for each. A broken contract is
fault entry, a next state (60_exceptions R255). Each is written for any number of
voices and cursor width, and the three commands that depend on a configuration field over the record of fields; their
meanings are those of this hardware. -/

namespace Sys2Proof.Machine

open Sys2Proof.Config

variable {nv cw : Nat}

/-- What a command answers: always a next state of the engine. -/
abbrev Answer (nv : Nat := numVoices) (cw : Nat := cursorWidth) := Host.Outcome (State nv cw) Fault Refusal

/-- `P[k] <- value; PVALID[k] <- 1` (47_host_commands R234, R235), for the registers with `P[k]` replaced. -/
def writeParam (k : Nat) (p : Params) (s : State nv cw) : State nv cw := markValid k { s with params := p }

/-- `NOP` (R231). -/
def execNop (s : State nv cw) : Answer nv cw := .next s

/-- What a PREPARE with acceptable arguments makes of the state (R233): the pool and the effects state are built
anew; `P`, `PVALID`, `NOISE_STATE` and the output port are kept, and so are the scratch memories (10_state R42). -/
def prepareState (cfg : Engine) (blockSize : Nat) (sampleRate : F) (s : State nv cw) : State nv cw :=
  { s with
    sr := sampleRate
    len := cursorOf (bufLength cfg sampleRate)
    blockSize := zextN blockSize
    voices := Vector.replicate nv Voice.zero
    hp := Section1.zero
    tph := fZero
    rvState := rvReset sampleRate blockSize
    prepared := true }

/-- `PREPARE` on an instance of the engine (R233): refused arguments are `BAD_PREPARE`, raised before any write. -/
def prepareOn (cfg : Engine) (blockSize : Nat) (sampleRate : F) (s : State nv cw) : Answer nv cw :=
  if prepareAcceptable cfg blockSize sampleRate then .next (prepareState cfg blockSize sampleRate s)
  else .next (raiseFault .badPrepare s)

/-- `PREPARE sampleRate, blockSize` (R233). -/
def execPrepare (blockSize : Nat) (sampleRate : F) (s : State) : Answer := prepareOn ksv blockSize sampleRate s

/-- `SETP.GAIN value` (R234). -/
def execSetpGain (value : F) (s : State nv cw) : Answer nv cw := .next (writeParam 0 { s.params with gain := value } s)

/-- `SETP.WAVE kind` (R235). -/
def execSetpWave (kind : Wave) (s : State nv cw) : Answer nv cw := .next (writeParam 1 { s.params with wave := kind } s)

/-- `SETP.DECAY value` (R234). -/
def execSetpDecay (value : F) (s : State nv cw) : Answer nv cw := .next (writeParam 2 { s.params with decay := value } s)

/-- `SETP.BURST value` (R234). -/
def execSetpBurst (value : F) (s : State nv cw) : Answer nv cw := .next (writeParam 3 { s.params with burst := value } s)

/-- `SETP.EXCUT value` (R234). -/
def execSetpExcut (value : F) (s : State nv cw) : Answer nv cw := .next (writeParam 4 { s.params with excut := value } s)

/-- `SETP.LOWCUT value` (R234). -/
def execSetpLowcut (value : F) (s : State nv cw) : Answer nv cw := .next (writeParam 5 { s.params with lowcut := value } s)

/-- `SETP.TREMRATE value` (R234). -/
def execSetpTremrate (value : F) (s : State nv cw) : Answer nv cw := .next (writeParam 6 { s.params with tremrate := value } s)

/-- `SETP.TREMDEPTH value` (R234). -/
def execSetpTremdepth (value : F) (s : State nv cw) : Answer nv cw := .next (writeParam 7 { s.params with tremdepth := value } s)

/-- `SETP.REVSIZE value` (R234). -/
def execSetpRevsize (value : F) (s : State nv cw) : Answer nv cw := .next (writeParam 8 { s.params with revsize := value } s)

/-- `SETP.REVMIX value` (R234). -/
def execSetpRevmix (value : F) (s : State nv cw) : Answer nv cw := .next (writeParam 9 { s.params with revmix := value } s)

/-- `NOTEON` on an instance of the engine (R236): `NOT_PREPARED`, then `PARAM_UNSET`, then the pool scan with the
current values of `DECAY`, `BURST`, `WAVE` and `EXCUT` (45_voice_pool R191). -/
def noteonOn (cfg : Engine) (pitch : Nat) (velocity : F) (s : State nv cw) : Answer nv cw :=
  if !s.prepared then .next (raiseFault .notPrepared s)
  else if !noteParamsValid s then .next (raiseFault .paramUnset s)
  else .next (poolNoteon cfg pitch velocity s.params.decay s.params.burst s.params.wave s.params.excut s)

/-- `NOTEON pitch, velocity` (R236). -/
def execNoteon (pitch : Nat) (velocity : F) (s : State) : Answer := noteonOn ksv pitch velocity s

/-- `NOTEOFF` (R238). -/
def execNoteoff (s : State nv cw) : Answer nv cw :=
  if !s.prepared then .next (raiseFault .notPrepared s) else .next (poolNoteoff s)

/-- `RENDER` on an instance of the engine (R239): `NOT_PREPARED`, `BAD_BLOCK`, `PARAM_UNSET` in that order, then the
block procedure with the six values read once at its start (10_state R37, R41). -/
def renderOn (cfg : Engine) (n : Nat) (s : State nv cw) : Answer nv cw :=
  if !s.prepared then .next (raiseFault .notPrepared s)
  else if !countAcceptable n s then .next (raiseFault .badBlock s)
  else if !blockParamsValid s then .next (raiseFault .paramUnset s)
  else .next (fxBlock cfg n s.params.gain s.params.lowcut s.params.tremrate s.params.tremdepth
    s.params.revsize s.params.revmix s)

/-- `RENDER n` (R239). -/
def execRender (n : Nat) (s : State) : Answer := renderOn ksv n s

end Sys2Proof.Machine
end

