-- ==== Sys2Proof/Machine/Dispatch.lean ====
section
/-! DEFINITION. Which meaning runs for which command. -/

namespace Sys2Proof.Machine

def exec (i : Instr) (s : State) : Host.Outcome State Fault Refusal :=
  match i with
  | .nop => Sys2Proof.Machine.execNop s
  | .prepare blockSize sampleRate => Sys2Proof.Machine.execPrepare blockSize sampleRate s
  | .setpGain value => Sys2Proof.Machine.execSetpGain value s
  | .setpWave kind => Sys2Proof.Machine.execSetpWave kind s
  | .setpDecay value => Sys2Proof.Machine.execSetpDecay value s
  | .setpBurst value => Sys2Proof.Machine.execSetpBurst value s
  | .setpExcut value => Sys2Proof.Machine.execSetpExcut value s
  | .setpLowcut value => Sys2Proof.Machine.execSetpLowcut value s
  | .setpTremrate value => Sys2Proof.Machine.execSetpTremrate value s
  | .setpTremdepth value => Sys2Proof.Machine.execSetpTremdepth value s
  | .setpRevsize value => Sys2Proof.Machine.execSetpRevsize value s
  | .setpRevmix value => Sys2Proof.Machine.execSetpRevmix value s
  | .noteon pitch velocity => Sys2Proof.Machine.execNoteon pitch velocity s
  | .noteoff => Sys2Proof.Machine.execNoteoff s
  | .render n => Sys2Proof.Machine.execRender n s

end Sys2Proof.Machine
end

