-- ==== Sys2Proof/Machine/Sequencer.lean ====
section
/-! DEFINITION. The sequencer (00_scope R10, 47_host_commands R230): what it does with an accepted word, and one
step over the host's next action, both over what runs a command; and the machine of any instance of the engine. -/

namespace Sys2Proof.Machine

open Sys2Proof.Config

variable {nv cw : Nat}

/-- Execution of one accepted word (47_host_commands R230): in the fault state it is discarded (60_exceptions
R256); an illegal word raises `ILLEGAL_CMD` (R251); a command is executed. -/
def acceptWord (run : Instr → State nv cw → Answer nv cw) (w : Word64) (s : State nv cw) : Answer nv cw :=
  if s.fault then .next s
  else
    match decode w with
    | .illegal _ => .next (raiseFault .illegalCmd s)
    | .command i => run i s

/-- One step. The host's next action is taken from `hostIn`; with none the engine idles with all state held
(60_exceptions R264). Hardware reset acts at once (70_reset_and_hazards R280). A word is accepted only when the
previous command has emitted all its frames; until then it stays at the port and the engine waits (R230, R241,
log 4). -/
def sequence (cfg : Engine) (run : Instr → State nv cw → Answer nv cw) (s : State nv cw) : Answer nv cw :=
  match s.hostIn with
  | [] => .next (drain cfg s)
  | .reset :: rest => .next (hardReset { s with hostIn := rest })
  | .take :: rest => .next (takeFrame cfg { s with hostIn := rest })
  | .word w :: rest =>
    if s.emitting.isEmpty then acceptWord run w { s with hostIn := rest } else .next (drain cfg s)

/-- The host offers a word ahead of everything else it does (log 3). -/
def offerWord (w : Word64) (s : State nv cw) : State nv cw := { s with hostIn := .word w :: s.hostIn }

/-- The command `i` on an instance of the engine: only PREPARE, NOTEON and RENDER depend on a field of the
configuration record.
`exec` is this on `ksv` (`execOn_ksv`). -/
def execOn (cfg : Engine) (i : Instr) (s : State nv cw) : Answer nv cw :=
  match i with
  | .nop => execNop s
  | .prepare blockSize sampleRate => prepareOn cfg blockSize sampleRate s
  | .setpGain value => execSetpGain value s
  | .setpWave kind => execSetpWave kind s
  | .setpDecay value => execSetpDecay value s
  | .setpBurst value => execSetpBurst value s
  | .setpExcut value => execSetpExcut value s
  | .setpLowcut value => execSetpLowcut value s
  | .setpTremrate value => execSetpTremrate value s
  | .setpTremdepth value => execSetpTremdepth value s
  | .setpRevsize value => execSetpRevsize value s
  | .setpRevmix value => execSetpRevmix value s
  | .noteon pitch velocity => noteonOn cfg pitch velocity s
  | .noteoff => execNoteoff s
  | .render n => renderOn cfg n s

/-- One step of an instance of the engine. `step` is this on `ksv` (`stepOn_ksv`). -/
def stepOn (cfg : Engine) (s : State nv cw) : Answer nv cw := sequence cfg (execOn cfg) s

end Sys2Proof.Machine
end

