-- ==== Sys2Proof/Machine/Step.lean ====
section
/-! DEFINITION. The step of the machine, and the state in which a given word is the next one accepted. -/

namespace Sys2Proof.Machine

/-- One step of the engine: the sequencer takes the host's next action. -/
def step (s : State) : Host.Outcome State Fault Refusal := sequence ksv exec s

/-- The state in which the word of the opcode table with the bits `w` stands at the command port, so that the next
step accepts it (log 3). -/
def State.withFetchWord (s : State) (nbits w : Nat) : State := offerWord (BitVec.ofNat 64 (w % 2 ^ nbits)) s

end Sys2Proof.Machine
end

