-- ==== Sys2Proof/Safety.lean ====
section
/-! DEFINITION. What counts as a safe run, and the shapes of the state that the rules promise, in the terms the
claims use. -/

namespace Sys2Proof.Machine

open Sys2Proof.Config

variable {nv cw : Nat}

/-- A state is safe when the engine is not in the fault state (60_exceptions R255): a claim about output is a claim
about runs that stay safe (R258). -/
def State.safe (s : State nv cw) : Prop := s.fault = false

/-- The states a run can be in: from reset, whatever the host does. -/
inductive Reachable : State → Prop where
  | start (inputs : List HostEvent) : Reachable { State.reset with hostIn := inputs }
  | next {s t : State} : Reachable s → step s = .next t → Reachable t

/-- Every memory has its one canonical form (log 1). -/
def MemoriesCanonical (s : State nv cw) : Prop :=
  Memory.wf s.dry = true ∧ Memory.wf s.wetL = true ∧ Memory.wf s.wetR = true ∧
    ∀ v, Memory.wf (s.voice v).buf = true

/-- `CAUSE` is 0 exactly outside the fault state, and holds no code above 5 (10_state R44, 60_exceptions R257). -/
def FaultCoded (s : State nv cw) : Prop := (s.fault = false ↔ s.cause = 0) ∧ s.cause.toNat ≤ 5

/-- The queue is within its capacity; frames wait only while it is full; and none wait in the fault state, since the
faulting command was accepted after the previous one had emitted all its frames (47_host_commands R230, R241). -/
def PortOrdered (s : State) : Prop :=
  s.outQueue.length ≤ queueCapacity ksv ∧ (s.emitting ≠ [] → s.outQueue.length = queueCapacity ksv) ∧
    (s.fault = true → s.emitting = [])

/-- What PREPARE establishes and every later command keeps (10_state R31 (I1), (I5), R34, 20_memory R63): an
acceptable rate, the buffer length and block size in their ranges, every cursor in `[0, LEN)`, and nothing stored
outside a memory's words. -/
def PreparedShape (s : State) : Prop :=
  (s.prepared = true →
    rateAcceptable ksv s.sr = true ∧ (s.len.toNat : Int) = roundHalfAway s.sr ∧
    1 ≤ s.len.toNat ∧ s.len.toNat ≤ maxLen ∧ 1 ≤ s.blockSize.toNat ∧ s.blockSize.toNat ≤ maxBlock ∧
    ∀ v, (s.voice v).wc.toNat < s.len.toNat ∧ (s.voice v).rc.toNat < s.len.toNat ∧
      Memory.below s.len.toNat (s.voice v).buf = true) ∧
  Memory.below maxBlock s.dry = true ∧ Memory.below maxBlock s.wetL = true ∧ Memory.below maxBlock s.wetR = true

/-- A phase value in `[0, 1)` (10_state R28, R31 (I4)). -/
def inUnit (x : F) : Bool := isFinite x && fge x fZero && flt x fOne

/-- A voice's frequency and period are those of a pitch of the ROM, or the zeros PREPARE left (10_state R25,
44_voice R173). -/
def NoteOfRom (r : Voice cw) : Prop :=
  (r.freqHz = fZero ∧ r.delayTime = fZero) ∨
    ∃ p, p < 128 ∧ r.freqHz = pitchRom p ∧ r.delayTime = fdiv fOne (pitchRom p)

/-- In a prepared engine every voice's phase is in `[0, 1)` and its note is one of the ROM (10_state R31 (I4),
44_voice R178), and the tremolo phase is in `[0, 1]` or a NaN (46_global_effects R206, 40_numerics R109). -/
def PhasesInUnit (s : State nv cw) : Prop :=
  s.prepared = true →
    (∀ v, inUnit (s.voice v).phase = true ∧ NoteOfRom (s.voice v)) ∧
    (isNaN s.tph = true ∨ (fge s.tph fZero = true ∧ fge fOne s.tph = true))

/-- In a prepared engine no exciter gain is negative or a NaN (10_state R27). -/
def GainsNotNegative (s : State nv cw) : Prop := s.prepared = true → ∀ v, fge (s.voice v).exGain fZero = true

/-- The condition of 47_host_commands R239 under which a RENDER runs. -/
def RenderReady (n : Nat) (s : State nv cw) : Prop :=
  s.prepared = true ∧ 1 ≤ n ∧ n ≤ s.blockSize.toNat ∧
    s.pvalid.getLsbD 0 = true ∧ s.pvalid.getLsbD 5 = true ∧ s.pvalid.getLsbD 6 = true ∧
    s.pvalid.getLsbD 7 = true ∧ s.pvalid.getLsbD 8 = true ∧ s.pvalid.getLsbD 9 = true

/-- The condition of 47_host_commands R236 under which a NOTEON reaches the pool. -/
def NoteonReady (s : State nv cw) : Prop :=
  s.prepared = true ∧ s.pvalid.getLsbD 1 = true ∧ s.pvalid.getLsbD 2 = true ∧ s.pvalid.getLsbD 3 = true ∧
    s.pvalid.getLsbD 4 = true

/-- The state after `k` calls of `V.RENDER(v)` (44_voice R187). -/
def afterRenders (cfg : Engine) (v : Fin nv) : Nat → State nv cw → State nv cw
  | 0, s => s
  | k + 1, s => (vRender cfg v (afterRenders cfg v k s)).2

/-- The exciter gain after `k` calls of `EXC.SAMPLE(v)` (42_exciter R148). -/
def gainAfter (v : Fin nv) : Nat → State nv cw → F
  | 0, s => (s.voice v).exGain
  | k + 1, s => gainAfter v k (excSample v s).2

end Sys2Proof.Machine
end

