-- ==== Sys2Proof/Certificates/Slice0/Obligations.lean ====
section
/-! DEFINITION. The statements about the KSV engine. Each formalises rules of spec/, named in its docstring; where one
rests on a choice of the model's, the docstring names the log entry. -/

open Sys2Proof Sys2Proof.Machine Sys2Proof.Config

/-! ### Encoding -/

/-- Decoding the word of a well-formed command gives the command back, for every operand its encoding admits
(30_encoding R82 to R90). -/
def Obligations.DecodeInvertsEncode : Prop :=
  ∀ i : Instr, i.wellFormed = true → decode (encode i) = .command i

/-- A word that decodes to a command is that command's word, and the command is well formed: every word has one
meaning (30_encoding R90, R93). -/
def Obligations.EncodeInvertsDecode : Prop :=
  ∀ (w : Word64) (i : Instr), decode w = .command i → i.wellFormed = true ∧ encode i = w

/-- The illegal words are exactly those 30_encoding R91 and R92 list. -/
def Obligations.IllegalWordsAreThoseListed : Prop :=
  ∀ w : Word64, (∃ why, decode w = .illegal why) ↔
    (0x06 ≤ (w.extractLsb' 56 8).toNat ∨
      (w.extractLsb' 56 8 = 0x00 ∧ (w.extractLsb' 32 24 ≠ 0 ∨ w.extractLsb' 0 32 ≠ 0)) ∨
      (w.extractLsb' 56 8 = 0x02 ∧
        (w.extractLsb' 36 20 ≠ 0 ∨ 10 ≤ (w.extractLsb' 32 4).toNat ∨
          (w.extractLsb' 32 4 = 1 ∧ w.extractLsb' 2 30 ≠ 0))) ∨
      (w.extractLsb' 56 8 = 0x03 ∧ w.extractLsb' 39 17 ≠ 0) ∨
      (w.extractLsb' 56 8 = 0x04 ∧ (w.extractLsb' 32 24 ≠ 0 ∨ w.extractLsb' 0 32 ≠ 0)) ∨
      (w.extractLsb' 56 8 = 0x05 ∧ w.extractLsb' 0 32 ≠ 0))

/-- 30_encoding R93: the rows of the opcode table are pairwise disjoint, a word that decodes to a command matches the
row of its mnemonic, and a word that matches no row, and only such a word, is illegal. -/
def Obligations.TableRowsAgreeWithDecoder : Prop :=
  ∀ w : Word64,
    (∀ i, decode w = .command i → ∃ r ∈ opcodeTable, r.mnemonic = i.mnemonic ∧ r.accepts w = true) ∧
    ((∃ why, decode w = .illegal why) ↔ ∀ r ∈ opcodeTable, r.accepts w = false) ∧
    (∀ r ∈ opcodeTable, ∀ r' ∈ opcodeTable, r.accepts w = true → r'.accepts w = true → r = r')

/-- Words of every family decode to what 95_test_vectors 2.1 lists. -/
def Obligations.ListedWordsDecode : Prop :=
  decode 0x0000000000000000 = .command .nop ∧
  decode 0x01000200473B8000 = .command (.prepare 512 0x473B8000) ∧
  decode 0x020000003F000000 = .command (.setpGain 0x3F000000) ∧
  decode 0x0200000100000002 = .command (.setpWave .square) ∧
  decode 0x0200000444FA0000 = .command (.setpExcut 0x44FA0000) ∧
  decode 0x0300007FFFC00000 = .command (.noteon 127 0xFFC00000) ∧
  decode 0x0400000000000000 = .command .noteoff ∧
  decode 0x05FFFFFF00000000 = .command (.render 16777215) ∧
  decode 0x020000013F800000 = .illegal .noSuchWave ∧
  decode 0x0600000000000000 = .illegal .reservedOpcode

/-! ### Steps and ports -/

/-- A step runs the decoded command: when the word at the port decodes to `i`, the previous command has emitted all
its frames and the engine is not in the fault state, the step is `exec i` on the state without that word
(47_host_commands R230). The port's list of words is the model's (log 3). -/
def Obligations.StepRunsTheDecodedCommand : Prop :=
  ∀ (s : State) (w : Word64) (rest : List HostEvent) (i : Instr),
    s.hostIn = .word w :: rest → s.emitting = [] → s.fault = false → decode w = .command i →
      step s = exec i { s with hostIn := rest }

/-- An illegal word raises `ILLEGAL_CMD`, also in an engine that is not prepared, and changes nothing but `FAULT` and
`CAUSE` (60_exceptions R251, R255). -/
def Obligations.IllegalWordRaisesIllegalCmd : Prop :=
  ∀ (s : State) (w : Word64) (rest : List HostEvent) (why : Illegal),
    s.hostIn = .word w :: rest → s.emitting = [] → s.fault = false → decode w = .illegal why →
      step s = .next { s with hostIn := rest, fault := true, cause := 1 }

/-- In the fault state every command word is accepted and discarded: no decode, no state change, no frame, no change
of `CAUSE` (60_exceptions R256). -/
def Obligations.FaultStateDiscardsEveryWord : Prop :=
  ∀ (s : State) (w : Word64) (rest : List HostEvent),
    PortOrdered s → s.fault = true → s.hostIn = .word w :: rest → step s = .next { s with hostIn := rest }

/-- Hardware reset puts `PREPARED`, `FAULT`, `CAUSE`, `PVALID` and `NOISE_STATE` to 0, empties the output port and
leaves every other piece of state as it was (70_reset_and_hazards R280). The frames that wait for room, which it drops,
are the model's field (log 4). -/
def Obligations.HardwareResetClearsControlState : Prop :=
  ∀ (s : State) (rest : List HostEvent), s.hostIn = .reset :: rest →
    step s = .next { s with
      hostIn := rest, prepared := false, fault := false, cause := 0, pvalid := 0, noiseState := 0
      outQueue := [], emitting := [] }

/-- A step that is no hardware reset keeps the engine in the fault state with its first cause and changes nothing but
the ports (60_exceptions R256, R258). -/
def Obligations.OnlyHardwareResetLeavesTheFaultState : Prop :=
  ∀ s t : State, s.fault = true → step s = .next t → (∀ rest, s.hostIn ≠ .reset :: rest) →
    t = { s with hostIn := t.hostIn, outQueue := t.outQueue, emitting := t.emitting }

/-- No state and no host action stops the machine: every step answers a next state. No rule says so of every step: this
is the model's reading (log 14, DEDUCED), the empty type of faults said of `step`. It rests on 60_exceptions, whose
faults are states of the engine, and on 40_numerics, whose operations stop nothing; the spec names no other stop. -/
def Obligations.EveryStepAnswersANextState : Prop :=
  ∀ s : State, ∃ t, step s = .next t

/-- Frames are neither lost, duplicated nor reordered, and only a RENDER of `n` frames adds any, exactly `n` and after
all before them (47_host_commands R241). A step that runs no command changes nothing but the ports: with no host action
the engine idles with all state held, a taken frame moves frames only, and a word at the port while frames wait stays
there, with no change at all while the queue is full (R230, R241, 60_exceptions R260, R264). Hardware reset, which
empties the port, is the one exception. The list of host actions and the frames that wait for room are the model's
(logs 3, 4). -/
def Obligations.FramesStayInOrderAndOnlyCommandsChangeTheEngine : Prop :=
  ∀ s t : State, step s = .next t → (∀ rest, s.hostIn ≠ .reset :: rest) →
    (∃ new : List Word64,
      t.outQueue ++ t.emitting =
        (if s.hostIn.head? = some .take then s.outQueue.drop 1 else s.outQueue) ++ s.emitting ++ new ∧
      (new ≠ [] → ∃ w n rest, s.hostIn = .word w :: rest ∧ decode w = .command (.render n) ∧ new.length = n)) ∧
    (s.hostIn = [] ∨ (∃ w rest, s.hostIn = .word w :: rest ∧ s.emitting ≠ []) →
      t = { s with outQueue := t.outQueue, emitting := t.emitting } ∧
      (s.emitting = [] ∨ queueCapacity ksv ≤ s.outQueue.length → t = s)) ∧
    (∀ rest, s.hostIn = .take :: rest →
      t = { s with hostIn := rest, outQueue := t.outQueue, emitting := t.emitting })

/-- The status wires show the registers; `active_o[v]` is `V[v].active` in a prepared engine and 0 otherwise
(10_state R47). -/
def Obligations.StatusWiresShowTheRegisters : Prop :=
  ∀ s : State, preparedO s = s.prepared ∧ faultO s = s.fault ∧ causeO s = s.cause ∧
    ∀ v : Fin 16, (activeO s).getLsbD v = (s.prepared && (s.voice v).active)

/-! ### The commands -/

/-- `NOP` leaves all state unchanged, before and after PREPARE (47_host_commands R231). -/
def Obligations.NopLeavesAllStateUnchanged : Prop :=
  ∀ s : State, exec .nop s = .next s

/-- Each of the nine float SETPs writes its own register and sets its own `PVALID` bit, refuses no value, and changes
nothing else (47_host_commands R234). -/
def Obligations.SetpWritesOneRegisterAndItsValidBit : Prop :=
  ∀ (x : F) (s : State),
    exec (.setpGain x) s = .next { s with params.gain := x, pvalid := s.pvalid ||| 0x001 } ∧
    exec (.setpDecay x) s = .next { s with params.decay := x, pvalid := s.pvalid ||| 0x004 } ∧
    exec (.setpBurst x) s = .next { s with params.burst := x, pvalid := s.pvalid ||| 0x008 } ∧
    exec (.setpExcut x) s = .next { s with params.excut := x, pvalid := s.pvalid ||| 0x010 } ∧
    exec (.setpLowcut x) s = .next { s with params.lowcut := x, pvalid := s.pvalid ||| 0x020 } ∧
    exec (.setpTremrate x) s = .next { s with params.tremrate := x, pvalid := s.pvalid ||| 0x040 } ∧
    exec (.setpTremdepth x) s = .next { s with params.tremdepth := x, pvalid := s.pvalid ||| 0x080 } ∧
    exec (.setpRevsize x) s = .next { s with params.revsize := x, pvalid := s.pvalid ||| 0x100 } ∧
    exec (.setpRevmix x) s = .next { s with params.revmix := x, pvalid := s.pvalid ||| 0x200 }

/-- `SETP.WAVE` writes the kind and sets `PVALID[1]`, and changes nothing else (47_host_commands R235). -/
def Obligations.SetpWaveWritesTheKindAndItsValidBit : Prop :=
  ∀ (k : Wave) (s : State),
    exec (.setpWave k) s = .next { s with params.wave := k, pvalid := s.pvalid ||| 0x002 }

/-- `PREPARE` with acceptable arguments builds the pool and the effects state anew and keeps the parameters,
`PVALID`, `NOISE_STATE` and the output port; otherwise it raises `BAD_PREPARE` before any write (47_host_commands R233;
acceptable as in R232). That the scratch memories keep their content is the model's choice (log 13). -/
def Obligations.PrepareRebuildsTheEngineOrFaults : Prop :=
  ∀ (bs : Nat) (sr : F) (s : State),
    (isFinite sr = true ∧ 1 ≤ roundHalfAway sr ∧ roundHalfAway sr ≤ 262144 ∧ 1 ≤ bs ∧ bs ≤ 8192 →
      exec (.prepare bs sr) s = .next { s with
        sr := sr
        len := BitVec.ofInt 32 (roundHalfAway sr)
        blockSize := BitVec.ofNat 32 bs
        voices := Vector.replicate 16
          { active := false, wc := 0, rc := 0, freqHz := 0, delayTime := 0, decay := 0, burst := 0, wave := .sine,
            exGain := 0, phase := 0, noteGain := 0, lp := ⟨0, 0, 0, 0, 0⟩, buf := [] }
        hp := ⟨0, 0, 0, 0, 0⟩
        tph := 0
        rvState := rvReset sr bs
        prepared := true }) ∧
    (¬ (isFinite sr = true ∧ 1 ≤ roundHalfAway sr ∧ roundHalfAway sr ≤ 262144 ∧ 1 ≤ bs ∧ bs ≤ 8192) →
      exec (.prepare bs sr) s = .next { s with fault := true, cause := 3 })

/-- The acceptable sample rates are `0.5 <= sampleRate < 262144.5`, as 47_host_commands R232 says of its two forms. -/
def Obligations.AcceptableRatesAreAnInterval : Prop :=
  ∀ sr : F, (isFinite sr = true ∧ 1 ≤ roundHalfAway sr ∧ roundHalfAway sr ≤ 262144) ↔
    (fge sr 0x3F000000 = true ∧ flt sr 0x48800010 = true)

/-- `NOTEON` starts the Idle voice of lowest index with the effects of `V.START` and changes nothing else: no other
voice, and of that voice neither the phase nor the read cursor nor any word of the buffer (44_voice R173, R174,
45_voice_pool R190, R191, 47_host_commands R236), with this hardware's pitch, velocity and coefficient functions
(log 11). -/
def Obligations.NoteonStartsTheFirstIdleVoice : Prop :=
  ∀ (p : Nat) (vel : F) (s : State) (v : Fin 16), NoteonReady s →
    (∀ u : Fin 16, u < v → (s.voice u).active = true) → (s.voice v).active = false →
      exec (.noteon p vel) s = .next (s.setVoice v { s.voice v with
        freqHz := pitchRom p
        delayTime := fdiv fOne (pitchRom p)
        exGain := fOne
        wc := 0
        active := true
        decay := s.params.decay
        burst := s.params.burst
        wave := s.params.wave
        noteGain := vel
        lp := {
          b0 := fsub fOne (numExp (fmul negTwoPi (fdiv s.params.excut s.sr)))
          b1 := fZero
          a1 := fneg (numExp (fmul negTwoPi (fdiv s.params.excut s.sr)))
          x1 := fZero
          y1 := fZero } })

/-- With all sixteen voices Sounding a `NOTEON` changes no state at all (45_voice_pool R192). -/
def Obligations.NoteonOnAFullPoolChangesNothing : Prop :=
  ∀ (p : Nat) (vel : F) (s : State), NoteonReady s → (∀ v : Fin 16, (s.voice v).active = true) →
    exec (.noteon p vel) s = .next s

/-- `NOTEON` raises `NOT_PREPARED`, and in a prepared engine `PARAM_UNSET` when one of `PVALID[1..4]` is 0, before any
other write (47_host_commands R236, 60_exceptions R252, R254). -/
def Obligations.NoteonFaultsInOrder : Prop :=
  ∀ (p : Nat) (vel : F) (s : State),
    (s.prepared = false → exec (.noteon p vel) s = .next { s with fault := true, cause := 2 }) ∧
    (s.prepared = true → ¬ NoteonReady s → exec (.noteon p vel) s = .next { s with fault := true, cause := 5 })

/-- `NOTEOFF` clears all sixteen `active` bits and changes nothing else; before PREPARE it raises `NOT_PREPARED`
(47_host_commands R238, 45_voice_pool R193). -/
def Obligations.NoteoffStopsEveryVoice : Prop :=
  ∀ s : State,
    (s.prepared = true → ∃ t, exec .noteoff s = .next t ∧
      (∀ v : Fin 16, t.voice v = { s.voice v with active := false }) ∧ t = { s with voices := t.voices }) ∧
    (s.prepared = false → exec .noteoff s = .next { s with fault := true, cause := 2 })

/-- `RENDER` checks in the order of 60_exceptions R259: `NOT_PREPARED`, then `BAD_BLOCK`, then `PARAM_UNSET`, each
before any other write (47_host_commands R239). -/
def Obligations.RenderFaultsInOrder : Prop :=
  ∀ (n : Nat) (s : State),
    (s.prepared = false → exec (.render n) s = .next { s with fault := true, cause := 2 }) ∧
    (s.prepared = true → n = 0 ∨ s.blockSize.toNat < n →
      exec (.render n) s = .next { s with fault := true, cause := 4 }) ∧
    (s.prepared = true → 1 ≤ n → n ≤ s.blockSize.toNat → ¬ RenderReady n s →
      exec (.render n) s = .next { s with fault := true, cause := 5 })

/-- `RENDER` runs whenever its checks pass. It emits exactly `n` frames after those before them. It keeps the
configuration, the parameters and the status registers; of a voice it keeps the state bit, the note's values and the
filter coefficients, and an Idle voice whole; of a Sounding voice's buffer it writes the `n` words the write cursor
steps through and no other (47_host_commands R239, 46_global_effects R201, 44_voice R171, R185). The model's choices,
no rule of the spec: that the scratch memories hold their words from `n` on after the command (log 13), the frames that
wait for room (log 4) and that the list of host actions is kept (log 3). -/
def Obligations.RenderCompletesAndKeepsTheRest : Prop :=
  ∀ (n : Nat) (s : State), RenderReady n s → ∃ t, exec (.render n) s = .next t ∧
    (∃ frames : List Word64, frames.length = n ∧
      t.outQueue ++ t.emitting = s.outQueue ++ s.emitting ++ frames) ∧
    t.sr = s.sr ∧ t.len = s.len ∧ t.blockSize = s.blockSize ∧ t.params = s.params ∧ t.pvalid = s.pvalid ∧
    t.prepared = s.prepared ∧ t.fault = s.fault ∧ t.cause = s.cause ∧ t.hostIn = s.hostIn ∧
    (∀ v : Fin 16, (s.voice v).active = false → t.voice v = s.voice v) ∧
    (∀ v : Fin 16,
      (t.voice v).active = (s.voice v).active ∧ (t.voice v).freqHz = (s.voice v).freqHz ∧
      (t.voice v).delayTime = (s.voice v).delayTime ∧ (t.voice v).decay = (s.voice v).decay ∧
      (t.voice v).burst = (s.voice v).burst ∧ (t.voice v).wave = (s.voice v).wave ∧
      (t.voice v).noteGain = (s.voice v).noteGain ∧ (t.voice v).lp.b0 = (s.voice v).lp.b0 ∧
      (t.voice v).lp.b1 = (s.voice v).lp.b1 ∧ (t.voice v).lp.a1 = (s.voice v).lp.a1 ∧
      ∀ a, (∀ k, k < n → a ≠ ((fun c => stepCursor c s.len)^[k] (s.voice v).wc).toNat) →
        memRead (t.voice v).buf a = memRead (s.voice v).buf a) ∧
    (∀ a, n ≤ a → memRead t.dry a = memRead s.dry a ∧ memRead t.wetL a = memRead s.wetL a ∧
      memRead t.wetR a = memRead s.wetR a)

/-- The frames a `RENDER` emits, in sample-index order: each half is
`fmul(fadd(fmul(d, fsub(1.0, mix)), fmul(w, mix)), gain)` of the dry sample and of its channel's wet sample as they
stand inside the command when the frames are formed, right in the high half (46_global_effects R211, 47_host_commands
R241). -/
def Obligations.RenderEmitsTheMixedFrames : Prop :=
  ∀ (n : Nat) (s : State), RenderReady n s → ∃ t, exec (.render n) s = .next t ∧
    let b := renderedBlock ksv n s.params.lowcut s.params.tremrate s.params.tremdepth s.params.revsize s
    let mixed := fun d w : F =>
      fmul (fadd (fmul d (fsub fOne s.params.revmix)) (fmul w s.params.revmix)) s.params.gain
    t.outQueue ++ t.emitting = s.outQueue ++ s.emitting ++
      (List.range n).map (fun i =>
        mixed (memRead b.dry i) (memRead b.wetR i) ++ mixed (memRead b.dry i) (memRead b.wetL i))

/-- Every register is written by the commands the spec names and no others. SETP alone writes `P` and `PVALID`; RENDER
alone `NOISE_STATE` and the output port; PREPARE alone `SR`, `LEN`, `BLOCK_SIZE` and, by setting it, `PREPARED`;
PREPARE and RENDER alone `HP`, `TPH` and `RV_STATE`; and each register of a voice is written only by the commands that
run the operations of its row in 10_state R22. `FAULT` and `CAUSE` are written only with a cause of the command's own
(10_state R22, R34, R37, R39, R40, R44, R46, 47_host_commands R241, 60_exceptions R257). The model's
choices, no rule of the spec: that commands other than RENDER keep the scratch memories (log 13), and what becomes of
the frames that wait for room (log 4) and of the list of host actions (log 3). -/
def Obligations.RegistersHaveTheirNamedWriters : Prop :=
  ∀ (i : Instr) (s t : State), exec i s = .next t →
    let noPrepare := ∀ b r, i ≠ .prepare b r
    let noNoteon := ∀ p x, i ≠ .noteon p x
    let noRender := ∀ n, i ≠ .render n
    ((i = .nop ∨ (∃ b r, i = .prepare b r) ∨ (∃ p x, i = .noteon p x) ∨ i = .noteoff ∨ ∃ n, i = .render n) →
      t.params = s.params ∧ t.pvalid = s.pvalid) ∧
    (noRender → t.noiseState = s.noiseState ∧ t.outQueue = s.outQueue ∧ t.emitting = s.emitting ∧
      t.dry = s.dry ∧ t.wetL = s.wetL ∧ t.wetR = s.wetR) ∧
    (noPrepare → t.sr = s.sr ∧ t.len = s.len ∧ t.blockSize = s.blockSize ∧ t.prepared = s.prepared) ∧
    (s.prepared = true → t.prepared = true) ∧ t.hostIn = s.hostIn ∧
    (noPrepare → noRender → t.hp = s.hp ∧ t.tph = s.tph ∧ t.rvState = s.rvState) ∧
    ((t.fault = s.fault ∧ t.cause = s.cause) ∨
      (t.fault = true ∧
        ((∃ b r, i = .prepare b r ∧ t.cause = 3) ∨ (∃ p x, i = .noteon p x ∧ (t.cause = 2 ∨ t.cause = 5)) ∨
          (i = .noteoff ∧ t.cause = 2) ∨ (∃ n, i = .render n ∧ (t.cause = 2 ∨ t.cause = 4 ∨ t.cause = 5))))) ∧
    ∀ v : Fin 16,
      (noPrepare → noNoteon → i ≠ .noteoff → (t.voice v).active = (s.voice v).active) ∧
      (noPrepare → noNoteon →
        (t.voice v).freqHz = (s.voice v).freqHz ∧ (t.voice v).delayTime = (s.voice v).delayTime ∧
        (t.voice v).decay = (s.voice v).decay ∧ (t.voice v).burst = (s.voice v).burst ∧
        (t.voice v).wave = (s.voice v).wave ∧ (t.voice v).noteGain = (s.voice v).noteGain ∧
        (t.voice v).lp.b0 = (s.voice v).lp.b0 ∧ (t.voice v).lp.b1 = (s.voice v).lp.b1 ∧
        (t.voice v).lp.a1 = (s.voice v).lp.a1) ∧
      (noPrepare → noRender →
        (t.voice v).rc = (s.voice v).rc ∧ (t.voice v).phase = (s.voice v).phase ∧
        (t.voice v).buf = (s.voice v).buf) ∧
      (noPrepare → noNoteon → noRender →
        (t.voice v).wc = (s.voice v).wc ∧ (t.voice v).exGain = (s.voice v).exGain ∧
        (t.voice v).lp.x1 = (s.voice v).lp.x1 ∧ (t.voice v).lp.y1 = (s.voice v).lp.y1)

/-- A command that faults changes nothing but `FAULT` and `CAUSE`, and records one of the codes 2 to 5
(60_exceptions R255, R257). -/
def Obligations.AFaultingCommandChangesOnlyFaultAndCause : Prop :=
  ∀ (i : Instr) (s t : State), s.fault = false → exec i s = .next t → t.fault = true →
    t = { s with fault := true, cause := t.cause } ∧ 2 ≤ t.cause.toNat ∧ t.cause.toNat ≤ 5

/-! ### The voice -/

/-- `V.RENDER` of an Idle voice returns exactly `+0` and changes nothing (44_voice R185), on every instance of the
engine. -/
def Obligations.AnIdleVoiceRendersZeroWithoutEffect : Prop :=
  ∀ (nv cw : Nat) (cfg : Engine) (v : Fin nv) (s : State nv cw), (s.voice v).active = false → vRender cfg v s = (fZero, s)

/-- `V.RENDER` of a Sounding voice: the result is the filtered delayed sample times the note gain, and the state
differs in that voice's cursors, exciter gain, phase, filter state and one buffer word, and in `NOISE_STATE`, as the
steps of 44_voice R171 give them (with R175, R176, R178, R180, R181, R182, 42_exciter R141, R148, 43_feedback_filter
R156). -/
def Obligations.ASoundingVoiceRendersAsSpecified : Prop :=
  ∀ (v : Fin 16) (s : State), (s.voice v).active = true →
    let r := s.voice v
    let burning := fgt r.exGain fZero
    let e := if burning then fmul (waveValue r.wave r.phase s).1 r.exGain else fZero
    let g := fsub r.exGain (fdiv fOne (fmul r.burst s.sr))
    let rc := BitVec.ofInt 32 (emod ((r.wc.toNat : Int) - truncToInt (fmul r.delayTime s.sr)) s.len.toNat)
    let x := memRead r.buf rc.toNat
    let y := fsub (fadd (fmul r.lp.b0 x) (fmul r.lp.b1 r.lp.x1)) (fmul r.lp.a1 r.lp.y1)
    (vRender ksv v s).1 = fmul y r.noteGain ∧
    ((vRender ksv v s).2.voice v) = { r with
      rc := BitVec.ofInt 32 (emod ((rc.toNat : Int) + 1) s.len.toNat)
      wc := BitVec.ofInt 32 (emod ((r.wc.toNat : Int) + 1) s.len.toNat)
      exGain := if burning then (if fgt g fZero then g else fZero) else r.exGain
      phase := wrap1 (fadd r.phase (fdiv r.freqHz s.sr))
      lp := { r.lp with x1 := x, y1 := y }
      buf := memWrite r.buf r.wc.toNat (fadd e (fmul y r.decay)) } ∧
    (∀ u : Fin 16, u ≠ v → (vRender ksv v s).2.voice u = s.voice u) ∧
    (vRender ksv v s).2 = { s with
      voices := (vRender ksv v s).2.voices
      noiseState := s.noiseState + (if burning = true ∧ r.wave = .noise then 1 else 0) }

/-- The four waveforms for a phase in `[0, 1)`: sine and square read the engine's sine of `2π·phase`, the sawtooth is
`2·phase - 1`, noise takes one draw and no other kind takes any; every value is finite and in `[-1, 1]` (42_exciter
R142 to R147). -/
def Obligations.WaveformsAreThoseOfTheirKinds : Prop :=
  ∀ (k : Wave) (p : F) (s : State), inUnit p = true →
    (waveValue .sine p s).1 = numSin (fmul twoPi p) ∧
    (waveValue .sawtooth p s).1 = fsub (fmul fTwo p) fOne ∧
    (waveValue .square p s).1 = (if fge (numSin (fmul twoPi p)) fZero then fOne else fneg fOne) ∧
    (waveValue .noise p s).1 = noise s.noiseState ∧
    isFinite (waveValue k p s).1 = true ∧ fge (waveValue k p s).1 (fneg fOne) = true ∧
    fge fOne (waveValue k p s).1 = true ∧
    (waveValue k p s).2 = (if k = .noise then { s with noiseState := s.noiseState + 1 } else s)

/-- After a `V.RENDER` of a Sounding voice the read cursor is `emod(wc - delaySamples, LEN)` again (10_state R31 (I2)),
on every instance of the engine. -/
def Obligations.CursorsKeepTheirDistance : Prop :=
  ∀ (nv cw : Nat) (cfg : Engine) (v : Fin nv) (s : State nv cw), (s.voice v).active = true → 1 ≤ s.len.toNat →
    let t := (vRender cfg v s).2
    ((t.voice v).rc.toNat : Int) = emod (((t.voice v).wc.toNat : Int) - delaySamples cfg v t) s.len.toNat ∧
      delaySamples cfg v t = delaySamples cfg v s

/-- Voices are private to one another: what a `RENDER` makes of a voice that draws no noise, because it is of another
kind or its burst is over, depends on that voice, the rate and the buffer length alone, whatever the other voices, the
effects and the parameters are (20_memory R62, R72, 42_exciter R147). That NaNs of the two runs are equal bit for bit
is the model's choice, no rule of the spec (log 5: a NaN is a function of the operation and its operands, where
40_numerics R104 allows a fresh draw). -/
def Obligations.VoicesDoNotInterfere : Prop :=
  ∀ (n : Nat) (s s' t t' : State) (v : Fin 16), RenderReady n s → RenderReady n s' →
    s.sr = s'.sr → s.len = s'.len → s.voice v = s'.voice v →
    ((s.voice v).wave ≠ .noise ∨ fgt (s.voice v).exGain fZero = false) →
    exec (.render n) s = .next t → exec (.render n) s' = .next t' → t.voice v = t'.voice v

/-- The delay never reaches the buffer length: for every acceptable rate and every pitch,
`0 <= delaySamples < LEN` (44_voice R175), with the pitch table of this hardware (log 11). -/
def Obligations.DelayStaysBelowTheBufferLength : Prop :=
  ∀ (sr : F) (p : Nat), rateAcceptable ksv sr = true → p < 128 →
    0 ≤ truncToInt (fmul (fdiv fOne (pitchRom p)) sr) ∧
      truncToInt (fmul (fdiv fOne (pitchRom p)) sr) < roundHalfAway sr

/-- The delay the line realises, on every instance of the engine: on a voice started with `wc = 0`, call `k` writes
word `emod(k, LEN)` and reads word `emod(k - d, LEN)`, where `d` is the delay in samples. With `D` the delay brought
into `1` to `LEN` (`d` itself there, `LEN` for `d = 0`, `emod(d, LEN)` or `LEN` beyond), a call `k >= D` reads what
call `k - D` wrote and a call `k < D` reads what stood in that word before the note (41_ring_delay_line R136). -/
def Obligations.DelayLineRealisesTheDelay : Prop :=
  ∀ (nv cw : Nat) (cfg : Engine) (v : Fin nv) (s : State nv cw) (d k : Nat),
    (s.voice v).active = true → (s.voice v).wc = 0 → delaySamples cfg v s = d → 1 ≤ s.len.toNat →
    let D := if d % s.len.toNat = 0 then s.len.toNat else d % s.len.toNat
    let before := afterRenders cfg v k s
    let pos := ((seekReadCursor cfg v before).voice v).rc.toNat
    (before.voice v).wc.toNat = k % s.len.toNat ∧ (pos : Int) = emod ((k : Int) - d) s.len.toNat ∧
    (k < D → dlRead v pos before = dlRead v pos s) ∧
    (D ≤ k → dlRead v pos before =
      dlRead v ((afterRenders cfg v (k - D) s).voice v).wc.toNat (afterRenders cfg v (k - D + 1) s))

/-- Onset latency, on every instance of the engine: on a zeroed buffer, with the filter at rest and finite coefficients
and note gain, the first `delaySamples` results are zeros (the first `LEN` for a delay of 0), and the call after them
reads the exciter sample that call 0 wrote, up to the sign of a zero (44_voice R189; finiteness is what its step
"`IIR1.STEP` of zero input from zero state is a zero" needs, and of the feedback product for the sample read). -/
def Obligations.OnsetLatencyIsOneDelay : Prop :=
  ∀ (nv cw : Nat) (cfg : Engine) (v : Fin nv) (s : State nv cw) (d : Nat),
    (s.voice v).active = true → (s.voice v).wc = 0 → (∀ a, memRead (s.voice v).buf a = fZero) →
    (s.voice v).lp.x1 = fZero → (s.voice v).lp.y1 = fZero →
    isFinite (s.voice v).lp.b0 = true → isFinite (s.voice v).lp.b1 = true → isFinite (s.voice v).lp.a1 = true →
    isFinite (s.voice v).noteGain = true → delaySamples cfg v s = d → d ≤ s.len.toNat → 1 ≤ s.len.toNat →
    let D := if d = 0 then s.len.toNat else d
    let last := afterRenders cfg v D s
    let x := dlRead v ((seekReadCursor cfg v last).voice v).rc.toNat last
    let e := (excSample v s).1
    (∀ k, k < D → isZero (vRender cfg v (afterRenders cfg v k s)).1 = true) ∧
    (isFinite (s.voice v).decay = true → isFinite e = true → x = e ∨ (isZero x = true ∧ isZero e = true))

/-- If the decay step is not negative and not a NaN, the exciter gain does not increase and is not negative
(42_exciter R149, 10_state R31 (I3)). -/
def Obligations.ExciterGainNeverIncreases : Prop :=
  ∀ (v : Fin 16) (s : State), fge (s.voice v).exGain fZero = true →
    fge (gainStep (s.voice v).burst s.sr) fZero = true →
    let g' := ((excSample v s).2.voice v).exGain
    fge g' fZero = true ∧ fge (s.voice v).exGain g' = true

/-- 42_exciter R149 also says "If `step > 0`, `exGain` reaches `+0` after finitely many samples". The rules R141 and
R148 it is derived from do not give that in binary32: a step below half the spacing of the gain changes nothing. -/
def Obligations.EveryPositiveStepEndsTheBurst : Prop :=
  ∀ (v : Fin 16) (s : State), (s.voice v).exGain = fOne →
    fgt (gainStep (s.voice v).burst s.sr) fZero = true → ∃ k, gainAfter v k s = fZero

/-! ### Global effects -/

/-- What a RENDER makes of its dry samples, sample by sample. It first sets the three high-pass coefficients to
`COEF_HP(SR, lowCut)` and keeps `x1` and `y1`. Sample `i` is then the pool sum `x`, the high-pass step `h` on it and
the tremolo factor of the phase before the advance: `DRY[i]` inside the command is `fmul(h, factor)`, `HP.x1` and `HP.y1` become `x` and
`h`, `TPH` advances to `wrap1(fadd(TPH, fdiv(rate, SR)))`, and voices and `NOISE_STATE` are what the sum left. After
the last sample these are what the RENDER leaves (46_global_effects R201, R202, R203, R204, R206, R209,
43_feedback_filter R156; `COEF_HP` as on this hardware, log 11). -/
def Obligations.DrySampleIsFilteredSumTimesTremolo : Prop :=
  ∀ (n : Nat) (s : State), RenderReady n s → ∃ t, exec (.render n) s = .next t ∧
    let a := numExp (fmul negTwoPi (fdiv s.params.lowcut s.sr))
    let b0 := fmul fHalf (fadd fOne a)
    let upTo := fun i => dryPass ksv i s.params.tremrate s.params.tremdepth
      { s with hp := { s.hp with b0 := b0, b1 := fneg b0, a1 := fneg a } }
    upTo 0 = { s with hp := { s.hp with b0 := b0, b1 := fneg b0, a1 := fneg a } } ∧
    (∀ i, i < n →
      let u := upTo i
      let x := (poolSum ksv u).1
      let h := fsub (fadd (fmul u.hp.b0 x) (fmul u.hp.b1 u.hp.x1)) (fmul u.hp.a1 u.hp.y1)
      let factor := fsub fOne (fmul (fmul s.params.tremdepth fHalf) (fadd fOne (numSin (fmul twoPi u.tph))))
      memRead (upTo n).dry i = fmul h factor ∧
      upTo (i + 1) = { (poolSum ksv u).2 with
        hp := { u.hp with x1 := x, y1 := h }
        tph := wrap1 (fadd u.tph (fdiv s.params.tremrate s.sr))
        dry := memWrite u.dry i (fmul h factor) }) ∧
    t.hp = (upTo n).hp ∧ t.tph = (upTo n).tph ∧ t.voices = (upTo n).voices ∧ t.noiseState = (upTo n).noiseState

/-- The reverb processor is run once per RENDER, on two copies of the dry block with the room size of the block: its
answer is the wet samples the frames are mixed from, and the state it leaves is the `RV_STATE` the RENDER leaves
(46_global_effects R210, R215, 60_exceptions R262; the processor's functions are free, log 9). The forming of the block
is said of every instance of the engine, the RENDER of this hardware. -/
def Obligations.ReverbRunsOnceOnTheDryBlock : Prop :=
  (∀ (nv cw : Nat) (cfg : Engine) (n : Nat) (lowCut rate depth size : F) (s : State nv cw),
    let d := dryPass cfg n rate depth (hpRetune cfg lowCut s)
    let block := (List.range n).map (memRead d.dry)
    let b := renderedBlock cfg n lowCut rate depth size s
    b.rvState = rvNext s.rvState size n block block ∧ b.dry = d.dry ∧
      ∀ i, i < n → memRead b.wetL i = rvLeft s.rvState size n block block i ∧
        memRead b.wetR i = rvRight s.rvState size n block block i) ∧
  (∀ (n : Nat) (s : State), RenderReady n s → ∃ t, exec (.render n) s = .next t ∧
    let d := dryPass ksv n s.params.tremrate s.params.tremdepth (hpRetune ksv s.params.lowcut s)
    let block := (List.range n).map (memRead d.dry)
    t.rvState = rvNext s.rvState s.params.revsize n block block)

/-- Splitting a block does not change the dry signal: two RENDERs of `n1` and `n2` frames form the dry samples of one
RENDER of `n1 + n2` frames, and leave the same voices, high-pass section, tremolo phase and `NOISE_STATE`
(46_global_effects R215). The dry samples are compared inside the commands (10_state R42). That NaNs of the two runs are
equal bit for bit is the model's choice, no rule of the spec (log 5: a NaN is a function of the operation and its
operands, where 40_numerics R104 allows a fresh draw). -/
def Obligations.SplittingABlockKeepsTheDrySignal : Prop :=
  ∀ (n1 n2 : Nat) (s t u w : State), RenderReady n1 s → 1 ≤ n2 → n1 + n2 ≤ s.blockSize.toNat →
    exec (.render n1) s = .next t → exec (.render n2) t = .next u → exec (.render (n1 + n2)) s = .next w →
    let dryOf := fun (n : Nat) (x : State) =>
      (dryPass ksv n s.params.tremrate s.params.tremdepth (hpRetune ksv s.params.lowcut x)).dry
    (∀ i, i < n1 → memRead (dryOf n1 s) i = memRead (dryOf (n1 + n2) s) i) ∧
    (∀ j, j < n2 → memRead (dryOf n2 t) j = memRead (dryOf (n1 + n2) s) (n1 + j)) ∧
    u.voices = w.voices ∧ u.hp = w.hp ∧ u.tph = w.tph ∧ u.noiseState = w.noiseState

/-- `POOL.SUM` renders every voice once, in ascending order, and adds the results from `+0` on (45_voice_pool R195);
with every voice Idle the sum is `+0` and nothing changes (R196). On every instance of the engine. -/
def Obligations.PoolSumAddsEveryVoiceInOrder : Prop :=
  ∀ (nv cw : Nat) (cfg : Engine) (s : State nv cw),
    poolSum cfg s = (List.finRange nv).foldl
      (fun acc v => (fadd acc.1 (vRender cfg v acc.2).1, (vRender cfg v acc.2).2)) (fZero, s) ∧
    ((∀ v : Fin nv, (s.voice v).active = false) → poolSum cfg s = (fZero, s))

/-- With depth `+0` or `-0` and the tremolo phase in `[0, 1]` the tremolo factor is exactly 1.0 and leaves the
filtered sample as it is (46_global_effects R207; the rule asks for a finite phase, and the product `2π·phase` must be
finite too, which the phase's range gives). -/
def Obligations.TremoloDepthZeroLeavesTheSignal : Prop :=
  ∀ (rate depth h : F) (s : State), isZero depth = true → fge s.tph fZero = true → fge fOne s.tph = true →
    (tremStep rate depth s).1 = fOne ∧ (isFinite h = true → fmul h (tremStep rate depth s).1 = h)

/-- With mix `+0` and a finite wet sample a frame half is the dry sample times the gain, up to the sign of a zero dry
sample (46_global_effects R212). -/
def Obligations.ReverbMixZeroGivesTheDrySignal : Prop :=
  ∀ d w gain : F, isFinite d = true → isFinite w = true →
    ∃ d' : F, (d' = d ∨ (isZero d = true ∧ isZero d' = true)) ∧ mixFrame d w fZero gain = fmul d' gain

/-! ### Numerics -/

/-- The sum and the difference of two finite values are the exact ones rounded to nearest, ties to even: no finite value
is nearer, of two equally near ones the even one is taken, and overflow is to the infinity of the exact sign, exactly
from half a spacing above the largest finite value on. An exact zero is `+0`, except `-0` for `(-0) + (-0)` and
`(-0) - (+0)`. An infinity and a finite value, or two infinities that do not cancel, give the infinity
(40_numerics R101). Values are counted in units of `2^-149`. -/
def Obligations.SumsAndDifferencesRoundToNearestEven : Prop :=
  let rounded := fun (r : F) (exact : Int) =>
    (isFinite r = true → ∀ y : F, isFinite y = true →
      (fixOf r - exact).natAbs ≤ (fixOf y - exact).natAbs ∧
      ((fixOf r - exact).natAbs = (fixOf y - exact).natAbs → fixOf y ≠ fixOf r → magBits r % 2 = 0)) ∧
    (isFinite r = false ↔ (2 ^ 25 - 1) * 2 ^ 252 ≤ exact.natAbs) ∧
    (isFinite r = false → r = if 0 < exact then posInf else negInf)
  (∀ a b : F, isFinite a = true → isFinite b = true →
    rounded (fadd a b) (fixOf a + fixOf b) ∧ rounded (fsub a b) (fixOf a - fixOf b) ∧
    (fixOf a + fixOf b = 0 → fadd a b = if a = 0x80000000 ∧ b = 0x80000000 then 0x80000000 else fZero) ∧
    (fixOf a - fixOf b = 0 → fsub a b = if a = 0x80000000 ∧ b = fZero then 0x80000000 else fZero)) ∧
  (∀ a b : F, isInf a = true → isFinite b = true →
    fadd a b = a ∧ fadd b a = a ∧ fsub a b = a ∧ fsub b a = fneg a) ∧
  (∀ a b : F, isInf a = true → isInf b = true →
    (signBit a = signBit b → fadd a b = a) ∧ (signBit a ≠ signBit b → fsub a b = a))

/-- The product is the exact product rounded to nearest, ties to even, with the sign of the signs; it overflows to the
infinity of that sign exactly from half a spacing above the largest finite value on; an infinity times a value that is
neither a zero nor a NaN is the infinity of that sign (40_numerics R101). A product of two values is counted in units
of `2^-298`. -/
def Obligations.MultiplicationRoundsToNearestEven : Prop :=
  (∀ a b : F, isFinite a = true → isFinite b = true →
    let exact := fixOf a * fixOf b
    signBit (fmul a b) = (signBit a != signBit b) ∧
    (isFinite (fmul a b) = true → ∀ y : F, isFinite y = true →
      let err := fun z : F => (fixOf z * (2 ^ 149 : Int) - exact).natAbs
      err (fmul a b) ≤ err y ∧
        (err (fmul a b) = err y → fixOf y ≠ fixOf (fmul a b) → magBits (fmul a b) % 2 = 0)) ∧
    (isFinite (fmul a b) = false ↔ (2 ^ 25 - 1) * 2 ^ 252 * 2 ^ 149 ≤ exact.natAbs) ∧
    (isFinite (fmul a b) = false → fmul a b = if signBit a = signBit b then posInf else negInf)) ∧
  (∀ a b : F, isInf a = true → isNaN b = false → isZero b = false →
    fmul a b = (if signBit a = signBit b then posInf else negInf) ∧
      fmul b a = if signBit a = signBit b then posInf else negInf)

/-- The quotient by a value that is no zero is the exact quotient rounded to nearest, ties to even, with the sign of
the signs; it overflows to the infinity of that sign exactly from half a spacing above the largest finite value on; a
finite value that is no zero divided by a zero, and an infinity divided by a finite value, is the infinity of that
sign; a finite value divided by an infinity is the zero of that sign (40_numerics R101). -/
def Obligations.DivisionRoundsToNearestEven : Prop :=
  (∀ a b : F, isFinite a = true → isFinite b = true → isZero b = false →
    signBit (fdiv a b) = (signBit a != signBit b) ∧
    (isFinite (fdiv a b) = true → ∀ y : F, isFinite y = true →
      let err := fun z : F => (fixOf z * fixOf b - fixOf a * (2 ^ 149 : Int)).natAbs
      err (fdiv a b) ≤ err y ∧
        (err (fdiv a b) = err y → fixOf y ≠ fixOf (fdiv a b) → magBits (fdiv a b) % 2 = 0)) ∧
    (isFinite (fdiv a b) = false ↔ (2 ^ 25 - 1) * 2 ^ 252 * (fixOf b).natAbs ≤ (fixOf a).natAbs * 2 ^ 149) ∧
    (isFinite (fdiv a b) = false → fdiv a b = if signBit a = signBit b then posInf else negInf)) ∧
  (∀ a b : F, isFinite a = true → isZero a = false → isZero b = true →
    fdiv a b = if signBit a = signBit b then posInf else negInf) ∧
  (∀ a b : F, isInf a = true → isFinite b = true → fdiv a b = if signBit a = signBit b then posInf else negInf) ∧
  (∀ a b : F, isFinite a = true → isInf b = true →
    fdiv a b = if signBit a = signBit b then fZero else 0x80000000)

/-- The exact identities of 40_numerics R117, for finite operands, and `x + (-x) = +0` of R101; `fneg` inverts the sign
of every value and keeps the rest (R102). -/
def Obligations.ExactIdentitiesHold : Prop :=
  (∀ x : F, isFinite x = true →
    fmul x fOne = x ∧ (x ≠ 0x80000000 → fadd x fZero = x) ∧ isZero (fmul x fZero) = true ∧
      fadd x (fneg x) = fZero) ∧
  (∀ x : F, signBit (fneg x) = !signBit x ∧ magBits (fneg x) = magBits x) ∧
  fadd 0x80000000 fZero = fZero ∧ fsub fOne fZero = fOne ∧ fsub fOne 0x80000000 = fOne ∧ fadd fZero fZero = fZero

/-- The comparisons are those of the values: `-0` and `+0` are equal, `-Inf` lies below and `+Inf` above every finite
value and each is equal to itself, and a comparison with a NaN is false (40_numerics R103). -/
def Obligations.ComparisonsAreThoseOfTheValues : Prop :=
  (∀ a b : F, isFinite a = true → isFinite b = true →
    (flt a b = true ↔ fixOf a < fixOf b) ∧ (fgt a b = true ↔ fixOf a > fixOf b) ∧
      (fge a b = true ↔ fixOf a ≥ fixOf b)) ∧
  (∀ a : F, isFinite a = true ∨ a = negInf →
    flt a posInf = true ∧ fgt posInf a = true ∧ fge posInf a = true ∧
      flt posInf a = false ∧ fgt a posInf = false ∧ fge a posInf = false) ∧
  (∀ a : F, isFinite a = true ∨ a = posInf →
    flt negInf a = true ∧ fgt a negInf = true ∧ fge a negInf = true ∧
      flt a negInf = false ∧ fgt negInf a = false ∧ fge negInf a = false) ∧
  (∀ a : F, isInf a = true → flt a a = false ∧ fgt a a = false ∧ fge a a = true) ∧
  (∀ a b : F, isNaN a = true ∨ isNaN b = true → flt a b = false ∧ fgt a b = false ∧ fge a b = false)

/-- The invalid operations and any operation with a NaN operand give a NaN; which one is free (40_numerics R101, R104,
R106, R115; log 5). -/
def Obligations.InvalidOperationsGiveANaN : Prop :=
  (∀ a b : F, isNaN a = true ∨ isNaN b = true →
    isNaN (fadd a b) = true ∧ isNaN (fsub a b) = true ∧ isNaN (fmul a b) = true ∧ isNaN (fdiv a b) = true) ∧
  (∀ a : F, (isNaN a = true → isNaN (ffloor a) = true) ∧
    (isNaN a = true ∨ isInf a = true → isNaN (fmod2 a) = true)) ∧
  (∀ a b : F, isInf a = true → isZero b = true → isNaN (fmul a b) = true ∧ isNaN (fmul b a) = true) ∧
  (∀ a b : F, isZero a = true → isZero b = true → isNaN (fdiv a b) = true) ∧
  (∀ a b : F, isInf a = true → isInf b = true → isNaN (fdiv a b) = true ∧
    (signBit a = signBit b → isNaN (fsub a b) = true) ∧ (signBit a ≠ signBit b → isNaN (fadd a b) = true))

/-- The conversions and remainders, values counted in units of `2^-149`. `ffloor(x)` of a finite `x` is the largest
integral value not above it, exactly, and keeps zeros and infinities (40_numerics R106). `truncToInt(x)` discards the
fraction: of the sign of `x`, and the largest integer in magnitude not beyond it (R107). `roundHalfAway(x)` is the
nearest integer, and of two equally near ones the one away from zero (R108). `fmod2(x)` is the exact remainder of `x` by
2 with the quotient truncated, with the sign of `x` (R115). `emod(a, n)` is the remainder in `[0, n)` (R113). -/
def Obligations.FloorConversionsAndRemaindersAreExact : Prop :=
  (∀ x : F, isFinite x = true →
    (isFinite (ffloor x) = true ∧ fixOf (ffloor x) = fixOf x / (2 ^ 149 : Int) * (2 ^ 149 : Int) ∧
      (isZero x = true → ffloor x = x)) ∧
    (0 ≤ truncToInt x * fixOf x ∧ (truncToInt x).natAbs * 2 ^ 149 ≤ (fixOf x).natAbs ∧
      (fixOf x).natAbs < ((truncToInt x).natAbs + 1) * 2 ^ 149) ∧
    (2 * (roundHalfAway x * (2 ^ 149 : Int) - fixOf x).natAbs ≤ 2 ^ 149 ∧
      (2 * (roundHalfAway x * (2 ^ 149 : Int) - fixOf x).natAbs = 2 ^ 149 →
        (fixOf x).natAbs < (roundHalfAway x).natAbs * 2 ^ 149)) ∧
    (isFinite (fmod2 x) = true ∧ signBit (fmod2 x) = signBit x ∧
      fixOf (fmod2 x) = (fixOf x).tmod (2 * 2 ^ 149))) ∧
  (∀ x : F, isInf x = true → ffloor x = x) ∧
  (∀ a n : Int, 1 ≤ n → 0 ≤ emod a n ∧ emod a n < n ∧ n ∣ a - emod a n)

/-- `wrap1(x)` is the exact fractional part in `[0, 1)` for finite `x >= 0`, lies in `[0, 1]` for finite `x < 0`, and
is a NaN for an infinity or a NaN (40_numerics R109). -/
def Obligations.WrapOneIsTheFractionalPart : Prop :=
  ∀ x : F,
    (isFinite x = true → fge x fZero = true →
      isFinite (wrap1 x) = true ∧ fixOf (wrap1 x) = fixOf x % (2 ^ 149 : Int) ∧ inUnit (wrap1 x) = true) ∧
    (isFinite x = true → flt x fZero = true → fge (wrap1 x) fZero = true ∧ fge fOne (wrap1 x) = true) ∧
    (isFinite x = false → isNaN (wrap1 x) = true)

/-- The open functions have the properties the spec names: SIN_ZERO, SIN_BOUND, SIN_NAN, EXP_ZERO, EXP_RANGE, EXP_NAN,
NOISE_RANGE (40_numerics R110, R111, 42_exciter R146; free otherwise, logs 6, 7, 8). -/
def Obligations.OpenFunctionsHaveTheirNamedProperties : Prop :=
  numSin fZero = fZero ∧
  (∀ x : F, isFinite x = true →
    isFinite (numSin x) = true ∧ fge (numSin x) (fneg fOne) = true ∧ fge fOne (numSin x) = true) ∧
  (∀ x : F, isFinite x = false → isNaN (numSin x) = true) ∧
  numExp fZero = fOne ∧ numExp 0x80000000 = fOne ∧
  (∀ x : F, isFinite x = true → fge fZero x = true →
    fge (numExp x) fZero = true ∧ fge fOne (numExp x) = true) ∧
  (∀ x : F, isNaN x = true → isNaN (numExp x) = true) ∧ numExp negInf = fZero ∧ numExp posInf = posInf ∧
  (∀ j : Nat, isFinite (noise j) = true ∧ fge (noise j) (fneg fOne) = true ∧ fge fOne (noise j) = true)

/-- The pitch table: entry `p` is `440·2^((p-69)/12)` Hz rounded to nearest, 440 Hz at pitch 69; entries twelve apart
differ by a factor 2; every entry is finite and at least that of pitch 0 (44_voice R172; this hardware's table, log 11).
The rounding is said by twelfth powers: the value lies strictly between the midpoints of the entry and its two
neighbours. -/
def Obligations.PitchTableIsEqualTempered : Prop :=
  pitchRom 69 = 0x43DC0000 ∧
  (∀ p, p < 128 →
    let m := magBits (pitchRom p)
    signBit (pitchRom p) = false ∧ isFinite (pitchRom p) = true ∧ fge (pitchRom p) 0x4102D013 = true ∧
      (unitsOf (m - 1) + unitsOf m) ^ 12 * 2 ^ 69 < (2 * 440 * 2 ^ 149) ^ 12 * 2 ^ p ∧
      (2 * 440 * 2 ^ 149) ^ 12 * 2 ^ p < (unitsOf m + unitsOf (m + 1)) ^ 12 * 2 ^ 69) ∧
  (∀ p, p < 116 → pitchRom (p + 12) = pitchRom p + 0x00800000)

/-! ### Invariants -/

/-- The state after reset has every shape the invariants below keep, and is safe. The values of the registers to which
the spec gives none are the model's (log 2). -/
def Obligations.ResetHasEveryShape : Prop :=
  State.safe State.reset ∧ MemoriesCanonical State.reset ∧ FaultCoded State.reset ∧ PortOrdered State.reset ∧
    PreparedShape State.reset ∧ PhasesInUnit State.reset ∧ GainsNotNegative State.reset

/-- Every step keeps every memory in its canonical form (log 1: the form is the model's). -/
def Obligations.EveryStepKeepsMemoriesCanonical : Prop :=
  ∀ s t : State, MemoriesCanonical s → step s = .next t → MemoriesCanonical t

/-- Every step keeps an acceptable rate, `LEN` and `BLOCK_SIZE` in range, every cursor in `[0, LEN)` and every stored
word inside its memory: no access is ever out of bounds (10_state R31 (I1), (I5), R34, 20_memory R63). -/
def Obligations.EveryStepKeepsCursorsInBounds : Prop :=
  ∀ s t : State, PreparedShape s → step s = .next t → PreparedShape t

/-- Every step keeps every voice's phase in `[0, 1)` and its note one of the pitch table (10_state R31 (I4),
44_voice R178), and the tremolo phase in `[0, 1]` or a NaN (10_state R40, 46_global_effects R206). -/
def Obligations.EveryStepKeepsPhasesInUnit : Prop :=
  ∀ s t : State, PreparedShape s → PhasesInUnit s → step s = .next t → PhasesInUnit t

/-- Every step keeps every exciter gain from being negative (10_state R27, 42_exciter R148). -/
def Obligations.EveryStepKeepsGainsNotNegative : Prop :=
  ∀ s t : State, GainsNotNegative s → step s = .next t → GainsNotNegative t

/-- Every step keeps `CAUSE` at 0 exactly outside the fault state, and no code above 5 ever appears (10_state R44,
60_exceptions R257). -/
def Obligations.EveryStepKeepsFaultsCoded : Prop :=
  ∀ s t : State, FaultCoded s → step s = .next t → FaultCoded t

/-- Every step keeps the output queue within its capacity, with frames waiting only while it is full and none in the
fault state (47_host_commands R241; the frames that wait are the model's, log 4). -/
def Obligations.EveryStepKeepsThePortOrdered : Prop :=
  ∀ s t : State, PortOrdered s → step s = .next t → PortOrdered t
end

