-- ==== Sys2Proof/Laws/State.lean ====
section
/-! SUPPORT. What each update of the state does to each of its fields: one lemma per field per update, so that no
later proof unfolds a record update. Then what an update of one voice does to the register file of every voice. -/

namespace Sys2Proof.Machine

open Sys2Proof.Config

variable {nv cw : Nat}

/-! ### `s.setVoice v r` -/

@[simp] theorem State_setVoice_sr (s : State nv cw) (v : Fin nv) (r : Voice cw) : (s.setVoice v r).sr = s.sr := rfl
@[simp] theorem State_setVoice_len (s : State nv cw) (v : Fin nv) (r : Voice cw) : (s.setVoice v r).len = s.len := rfl
@[simp] theorem State_setVoice_blockSize (s : State nv cw) (v : Fin nv) (r : Voice cw) : (s.setVoice v r).blockSize = s.blockSize := rfl
@[simp] theorem State_setVoice_params (s : State nv cw) (v : Fin nv) (r : Voice cw) : (s.setVoice v r).params = s.params := rfl
@[simp] theorem State_setVoice_pvalid (s : State nv cw) (v : Fin nv) (r : Voice cw) : (s.setVoice v r).pvalid = s.pvalid := rfl
@[simp] theorem State_setVoice_voices (s : State nv cw) (v : Fin nv) (r : Voice cw) : (s.setVoice v r).voices = s.voices.set v r := rfl
@[simp] theorem State_setVoice_hp (s : State nv cw) (v : Fin nv) (r : Voice cw) : (s.setVoice v r).hp = s.hp := rfl
@[simp] theorem State_setVoice_tph (s : State nv cw) (v : Fin nv) (r : Voice cw) : (s.setVoice v r).tph = s.tph := rfl
@[simp] theorem State_setVoice_dry (s : State nv cw) (v : Fin nv) (r : Voice cw) : (s.setVoice v r).dry = s.dry := rfl
@[simp] theorem State_setVoice_wetL (s : State nv cw) (v : Fin nv) (r : Voice cw) : (s.setVoice v r).wetL = s.wetL := rfl
@[simp] theorem State_setVoice_wetR (s : State nv cw) (v : Fin nv) (r : Voice cw) : (s.setVoice v r).wetR = s.wetR := rfl
@[simp] theorem State_setVoice_prepared (s : State nv cw) (v : Fin nv) (r : Voice cw) : (s.setVoice v r).prepared = s.prepared := rfl
@[simp] theorem State_setVoice_fault (s : State nv cw) (v : Fin nv) (r : Voice cw) : (s.setVoice v r).fault = s.fault := rfl
@[simp] theorem State_setVoice_cause (s : State nv cw) (v : Fin nv) (r : Voice cw) : (s.setVoice v r).cause = s.cause := rfl
@[simp] theorem State_setVoice_noiseState (s : State nv cw) (v : Fin nv) (r : Voice cw) : (s.setVoice v r).noiseState = s.noiseState := rfl
@[simp] theorem State_setVoice_rvState (s : State nv cw) (v : Fin nv) (r : Voice cw) : (s.setVoice v r).rvState = s.rvState := rfl
@[simp] theorem State_setVoice_outQueue (s : State nv cw) (v : Fin nv) (r : Voice cw) : (s.setVoice v r).outQueue = s.outQueue := rfl
@[simp] theorem State_setVoice_emitting (s : State nv cw) (v : Fin nv) (r : Voice cw) : (s.setVoice v r).emitting = s.emitting := rfl
@[simp] theorem State_setVoice_hostIn (s : State nv cw) (v : Fin nv) (r : Voice cw) : (s.setVoice v r).hostIn = s.hostIn := rfl

/-! ### `markValid k s` -/

@[simp] theorem markValid_sr (k : Nat) (s : State nv cw) : (markValid k s).sr = s.sr := rfl
@[simp] theorem markValid_len (k : Nat) (s : State nv cw) : (markValid k s).len = s.len := rfl
@[simp] theorem markValid_blockSize (k : Nat) (s : State nv cw) : (markValid k s).blockSize = s.blockSize := rfl
@[simp] theorem markValid_params (k : Nat) (s : State nv cw) : (markValid k s).params = s.params := rfl
@[simp] theorem markValid_pvalid (k : Nat) (s : State nv cw) : (markValid k s).pvalid = s.pvalid ||| BitVec.twoPow 10 k := rfl
@[simp] theorem markValid_voices (k : Nat) (s : State nv cw) : (markValid k s).voices = s.voices := rfl
@[simp] theorem markValid_hp (k : Nat) (s : State nv cw) : (markValid k s).hp = s.hp := rfl
@[simp] theorem markValid_tph (k : Nat) (s : State nv cw) : (markValid k s).tph = s.tph := rfl
@[simp] theorem markValid_dry (k : Nat) (s : State nv cw) : (markValid k s).dry = s.dry := rfl
@[simp] theorem markValid_wetL (k : Nat) (s : State nv cw) : (markValid k s).wetL = s.wetL := rfl
@[simp] theorem markValid_wetR (k : Nat) (s : State nv cw) : (markValid k s).wetR = s.wetR := rfl
@[simp] theorem markValid_prepared (k : Nat) (s : State nv cw) : (markValid k s).prepared = s.prepared := rfl
@[simp] theorem markValid_fault (k : Nat) (s : State nv cw) : (markValid k s).fault = s.fault := rfl
@[simp] theorem markValid_cause (k : Nat) (s : State nv cw) : (markValid k s).cause = s.cause := rfl
@[simp] theorem markValid_noiseState (k : Nat) (s : State nv cw) : (markValid k s).noiseState = s.noiseState := rfl
@[simp] theorem markValid_rvState (k : Nat) (s : State nv cw) : (markValid k s).rvState = s.rvState := rfl
@[simp] theorem markValid_outQueue (k : Nat) (s : State nv cw) : (markValid k s).outQueue = s.outQueue := rfl
@[simp] theorem markValid_emitting (k : Nat) (s : State nv cw) : (markValid k s).emitting = s.emitting := rfl
@[simp] theorem markValid_hostIn (k : Nat) (s : State nv cw) : (markValid k s).hostIn = s.hostIn := rfl

/-! ### `writeParam k p s` -/

@[simp] theorem writeParam_sr (k : Nat) (p : Params) (s : State nv cw) : (writeParam k p s).sr = s.sr := rfl
@[simp] theorem writeParam_len (k : Nat) (p : Params) (s : State nv cw) : (writeParam k p s).len = s.len := rfl
@[simp] theorem writeParam_blockSize (k : Nat) (p : Params) (s : State nv cw) : (writeParam k p s).blockSize = s.blockSize := rfl
@[simp] theorem writeParam_params (k : Nat) (p : Params) (s : State nv cw) : (writeParam k p s).params = p := rfl
@[simp] theorem writeParam_pvalid (k : Nat) (p : Params) (s : State nv cw) : (writeParam k p s).pvalid = s.pvalid ||| BitVec.twoPow 10 k := rfl
@[simp] theorem writeParam_voices (k : Nat) (p : Params) (s : State nv cw) : (writeParam k p s).voices = s.voices := rfl
@[simp] theorem writeParam_hp (k : Nat) (p : Params) (s : State nv cw) : (writeParam k p s).hp = s.hp := rfl
@[simp] theorem writeParam_tph (k : Nat) (p : Params) (s : State nv cw) : (writeParam k p s).tph = s.tph := rfl
@[simp] theorem writeParam_dry (k : Nat) (p : Params) (s : State nv cw) : (writeParam k p s).dry = s.dry := rfl
@[simp] theorem writeParam_wetL (k : Nat) (p : Params) (s : State nv cw) : (writeParam k p s).wetL = s.wetL := rfl
@[simp] theorem writeParam_wetR (k : Nat) (p : Params) (s : State nv cw) : (writeParam k p s).wetR = s.wetR := rfl
@[simp] theorem writeParam_prepared (k : Nat) (p : Params) (s : State nv cw) : (writeParam k p s).prepared = s.prepared := rfl
@[simp] theorem writeParam_fault (k : Nat) (p : Params) (s : State nv cw) : (writeParam k p s).fault = s.fault := rfl
@[simp] theorem writeParam_cause (k : Nat) (p : Params) (s : State nv cw) : (writeParam k p s).cause = s.cause := rfl
@[simp] theorem writeParam_noiseState (k : Nat) (p : Params) (s : State nv cw) : (writeParam k p s).noiseState = s.noiseState := rfl
@[simp] theorem writeParam_rvState (k : Nat) (p : Params) (s : State nv cw) : (writeParam k p s).rvState = s.rvState := rfl
@[simp] theorem writeParam_outQueue (k : Nat) (p : Params) (s : State nv cw) : (writeParam k p s).outQueue = s.outQueue := rfl
@[simp] theorem writeParam_emitting (k : Nat) (p : Params) (s : State nv cw) : (writeParam k p s).emitting = s.emitting := rfl
@[simp] theorem writeParam_hostIn (k : Nat) (p : Params) (s : State nv cw) : (writeParam k p s).hostIn = s.hostIn := rfl

/-! ### `raiseFault c s` -/

@[simp] theorem raiseFault_sr (c : Cause) (s : State nv cw) : (raiseFault c s).sr = s.sr := rfl
@[simp] theorem raiseFault_len (c : Cause) (s : State nv cw) : (raiseFault c s).len = s.len := rfl
@[simp] theorem raiseFault_blockSize (c : Cause) (s : State nv cw) : (raiseFault c s).blockSize = s.blockSize := rfl
@[simp] theorem raiseFault_params (c : Cause) (s : State nv cw) : (raiseFault c s).params = s.params := rfl
@[simp] theorem raiseFault_pvalid (c : Cause) (s : State nv cw) : (raiseFault c s).pvalid = s.pvalid := rfl
@[simp] theorem raiseFault_voices (c : Cause) (s : State nv cw) : (raiseFault c s).voices = s.voices := rfl
@[simp] theorem raiseFault_hp (c : Cause) (s : State nv cw) : (raiseFault c s).hp = s.hp := rfl
@[simp] theorem raiseFault_tph (c : Cause) (s : State nv cw) : (raiseFault c s).tph = s.tph := rfl
@[simp] theorem raiseFault_dry (c : Cause) (s : State nv cw) : (raiseFault c s).dry = s.dry := rfl
@[simp] theorem raiseFault_wetL (c : Cause) (s : State nv cw) : (raiseFault c s).wetL = s.wetL := rfl
@[simp] theorem raiseFault_wetR (c : Cause) (s : State nv cw) : (raiseFault c s).wetR = s.wetR := rfl
@[simp] theorem raiseFault_prepared (c : Cause) (s : State nv cw) : (raiseFault c s).prepared = s.prepared := rfl
@[simp] theorem raiseFault_fault (c : Cause) (s : State nv cw) : (raiseFault c s).fault = true := rfl
@[simp] theorem raiseFault_cause (c : Cause) (s : State nv cw) : (raiseFault c s).cause = causeCode c := rfl
@[simp] theorem raiseFault_noiseState (c : Cause) (s : State nv cw) : (raiseFault c s).noiseState = s.noiseState := rfl
@[simp] theorem raiseFault_rvState (c : Cause) (s : State nv cw) : (raiseFault c s).rvState = s.rvState := rfl
@[simp] theorem raiseFault_outQueue (c : Cause) (s : State nv cw) : (raiseFault c s).outQueue = s.outQueue := rfl
@[simp] theorem raiseFault_emitting (c : Cause) (s : State nv cw) : (raiseFault c s).emitting = s.emitting := rfl
@[simp] theorem raiseFault_hostIn (c : Cause) (s : State nv cw) : (raiseFault c s).hostIn = s.hostIn := rfl

/-! ### `hardReset s` -/

@[simp] theorem hardReset_sr (s : State nv cw) : (hardReset s).sr = s.sr := rfl
@[simp] theorem hardReset_len (s : State nv cw) : (hardReset s).len = s.len := rfl
@[simp] theorem hardReset_blockSize (s : State nv cw) : (hardReset s).blockSize = s.blockSize := rfl
@[simp] theorem hardReset_params (s : State nv cw) : (hardReset s).params = s.params := rfl
@[simp] theorem hardReset_pvalid (s : State nv cw) : (hardReset s).pvalid = 0 := rfl
@[simp] theorem hardReset_voices (s : State nv cw) : (hardReset s).voices = s.voices := rfl
@[simp] theorem hardReset_hp (s : State nv cw) : (hardReset s).hp = s.hp := rfl
@[simp] theorem hardReset_tph (s : State nv cw) : (hardReset s).tph = s.tph := rfl
@[simp] theorem hardReset_dry (s : State nv cw) : (hardReset s).dry = s.dry := rfl
@[simp] theorem hardReset_wetL (s : State nv cw) : (hardReset s).wetL = s.wetL := rfl
@[simp] theorem hardReset_wetR (s : State nv cw) : (hardReset s).wetR = s.wetR := rfl
@[simp] theorem hardReset_prepared (s : State nv cw) : (hardReset s).prepared = false := rfl
@[simp] theorem hardReset_fault (s : State nv cw) : (hardReset s).fault = false := rfl
@[simp] theorem hardReset_cause (s : State nv cw) : (hardReset s).cause = 0 := rfl
@[simp] theorem hardReset_noiseState (s : State nv cw) : (hardReset s).noiseState = 0 := rfl
@[simp] theorem hardReset_rvState (s : State nv cw) : (hardReset s).rvState = s.rvState := rfl
@[simp] theorem hardReset_outQueue (s : State nv cw) : (hardReset s).outQueue = [] := rfl
@[simp] theorem hardReset_emitting (s : State nv cw) : (hardReset s).emitting = [] := rfl
@[simp] theorem hardReset_hostIn (s : State nv cw) : (hardReset s).hostIn = s.hostIn := rfl

/-! ### `(draw s).2` -/

@[simp] theorem draw_sr (s : State nv cw) : (draw s).2.sr = s.sr := rfl
@[simp] theorem draw_len (s : State nv cw) : (draw s).2.len = s.len := rfl
@[simp] theorem draw_blockSize (s : State nv cw) : (draw s).2.blockSize = s.blockSize := rfl
@[simp] theorem draw_params (s : State nv cw) : (draw s).2.params = s.params := rfl
@[simp] theorem draw_pvalid (s : State nv cw) : (draw s).2.pvalid = s.pvalid := rfl
@[simp] theorem draw_voices (s : State nv cw) : (draw s).2.voices = s.voices := rfl
@[simp] theorem draw_hp (s : State nv cw) : (draw s).2.hp = s.hp := rfl
@[simp] theorem draw_tph (s : State nv cw) : (draw s).2.tph = s.tph := rfl
@[simp] theorem draw_dry (s : State nv cw) : (draw s).2.dry = s.dry := rfl
@[simp] theorem draw_wetL (s : State nv cw) : (draw s).2.wetL = s.wetL := rfl
@[simp] theorem draw_wetR (s : State nv cw) : (draw s).2.wetR = s.wetR := rfl
@[simp] theorem draw_prepared (s : State nv cw) : (draw s).2.prepared = s.prepared := rfl
@[simp] theorem draw_fault (s : State nv cw) : (draw s).2.fault = s.fault := rfl
@[simp] theorem draw_cause (s : State nv cw) : (draw s).2.cause = s.cause := rfl
@[simp] theorem draw_noiseState (s : State nv cw) : (draw s).2.noiseState = s.noiseState + 1 := rfl
@[simp] theorem draw_rvState (s : State nv cw) : (draw s).2.rvState = s.rvState := rfl
@[simp] theorem draw_outQueue (s : State nv cw) : (draw s).2.outQueue = s.outQueue := rfl
@[simp] theorem draw_emitting (s : State nv cw) : (draw s).2.emitting = s.emitting := rfl
@[simp] theorem draw_hostIn (s : State nv cw) : (draw s).2.hostIn = s.hostIn := rfl

/-! ### `drain cfg s` -/

@[simp] theorem drain_sr (cfg : Engine) (s : State nv cw) : (drain cfg s).sr = s.sr := rfl
@[simp] theorem drain_len (cfg : Engine) (s : State nv cw) : (drain cfg s).len = s.len := rfl
@[simp] theorem drain_blockSize (cfg : Engine) (s : State nv cw) : (drain cfg s).blockSize = s.blockSize := rfl
@[simp] theorem drain_params (cfg : Engine) (s : State nv cw) : (drain cfg s).params = s.params := rfl
@[simp] theorem drain_pvalid (cfg : Engine) (s : State nv cw) : (drain cfg s).pvalid = s.pvalid := rfl
@[simp] theorem drain_voices (cfg : Engine) (s : State nv cw) : (drain cfg s).voices = s.voices := rfl
@[simp] theorem drain_hp (cfg : Engine) (s : State nv cw) : (drain cfg s).hp = s.hp := rfl
@[simp] theorem drain_tph (cfg : Engine) (s : State nv cw) : (drain cfg s).tph = s.tph := rfl
@[simp] theorem drain_dry (cfg : Engine) (s : State nv cw) : (drain cfg s).dry = s.dry := rfl
@[simp] theorem drain_wetL (cfg : Engine) (s : State nv cw) : (drain cfg s).wetL = s.wetL := rfl
@[simp] theorem drain_wetR (cfg : Engine) (s : State nv cw) : (drain cfg s).wetR = s.wetR := rfl
@[simp] theorem drain_prepared (cfg : Engine) (s : State nv cw) : (drain cfg s).prepared = s.prepared := rfl
@[simp] theorem drain_fault (cfg : Engine) (s : State nv cw) : (drain cfg s).fault = s.fault := rfl
@[simp] theorem drain_cause (cfg : Engine) (s : State nv cw) : (drain cfg s).cause = s.cause := rfl
@[simp] theorem drain_noiseState (cfg : Engine) (s : State nv cw) : (drain cfg s).noiseState = s.noiseState := rfl
@[simp] theorem drain_rvState (cfg : Engine) (s : State nv cw) : (drain cfg s).rvState = s.rvState := rfl
@[simp] theorem drain_outQueue (cfg : Engine) (s : State nv cw) : (drain cfg s).outQueue = s.outQueue ++ s.emitting.take (queueCapacity cfg - s.outQueue.length) := rfl
@[simp] theorem drain_emitting (cfg : Engine) (s : State nv cw) : (drain cfg s).emitting = s.emitting.drop (queueCapacity cfg - s.outQueue.length) := rfl
@[simp] theorem drain_hostIn (cfg : Engine) (s : State nv cw) : (drain cfg s).hostIn = s.hostIn := rfl

/-! ### `emitFrames cfg fs s` -/

@[simp] theorem emitFrames_sr (cfg : Engine) (fs : List Word64) (s : State nv cw) : (emitFrames cfg fs s).sr = s.sr := rfl
@[simp] theorem emitFrames_len (cfg : Engine) (fs : List Word64) (s : State nv cw) : (emitFrames cfg fs s).len = s.len := rfl
@[simp] theorem emitFrames_blockSize (cfg : Engine) (fs : List Word64) (s : State nv cw) : (emitFrames cfg fs s).blockSize = s.blockSize := rfl
@[simp] theorem emitFrames_params (cfg : Engine) (fs : List Word64) (s : State nv cw) : (emitFrames cfg fs s).params = s.params := rfl
@[simp] theorem emitFrames_pvalid (cfg : Engine) (fs : List Word64) (s : State nv cw) : (emitFrames cfg fs s).pvalid = s.pvalid := rfl
@[simp] theorem emitFrames_voices (cfg : Engine) (fs : List Word64) (s : State nv cw) : (emitFrames cfg fs s).voices = s.voices := rfl
@[simp] theorem emitFrames_hp (cfg : Engine) (fs : List Word64) (s : State nv cw) : (emitFrames cfg fs s).hp = s.hp := rfl
@[simp] theorem emitFrames_tph (cfg : Engine) (fs : List Word64) (s : State nv cw) : (emitFrames cfg fs s).tph = s.tph := rfl
@[simp] theorem emitFrames_dry (cfg : Engine) (fs : List Word64) (s : State nv cw) : (emitFrames cfg fs s).dry = s.dry := rfl
@[simp] theorem emitFrames_wetL (cfg : Engine) (fs : List Word64) (s : State nv cw) : (emitFrames cfg fs s).wetL = s.wetL := rfl
@[simp] theorem emitFrames_wetR (cfg : Engine) (fs : List Word64) (s : State nv cw) : (emitFrames cfg fs s).wetR = s.wetR := rfl
@[simp] theorem emitFrames_prepared (cfg : Engine) (fs : List Word64) (s : State nv cw) : (emitFrames cfg fs s).prepared = s.prepared := rfl
@[simp] theorem emitFrames_fault (cfg : Engine) (fs : List Word64) (s : State nv cw) : (emitFrames cfg fs s).fault = s.fault := rfl
@[simp] theorem emitFrames_cause (cfg : Engine) (fs : List Word64) (s : State nv cw) : (emitFrames cfg fs s).cause = s.cause := rfl
@[simp] theorem emitFrames_noiseState (cfg : Engine) (fs : List Word64) (s : State nv cw) : (emitFrames cfg fs s).noiseState = s.noiseState := rfl
@[simp] theorem emitFrames_rvState (cfg : Engine) (fs : List Word64) (s : State nv cw) : (emitFrames cfg fs s).rvState = s.rvState := rfl
@[simp] theorem emitFrames_outQueue (cfg : Engine) (fs : List Word64) (s : State nv cw) : (emitFrames cfg fs s).outQueue = s.outQueue ++ (s.emitting ++ fs).take (queueCapacity cfg - s.outQueue.length) := rfl
@[simp] theorem emitFrames_emitting (cfg : Engine) (fs : List Word64) (s : State nv cw) : (emitFrames cfg fs s).emitting = (s.emitting ++ fs).drop (queueCapacity cfg - s.outQueue.length) := rfl
@[simp] theorem emitFrames_hostIn (cfg : Engine) (fs : List Word64) (s : State nv cw) : (emitFrames cfg fs s).hostIn = s.hostIn := rfl

/-! ### `takeFrame cfg s` -/

@[simp] theorem takeFrame_sr (cfg : Engine) (s : State nv cw) : (takeFrame cfg s).sr = s.sr := rfl
@[simp] theorem takeFrame_len (cfg : Engine) (s : State nv cw) : (takeFrame cfg s).len = s.len := rfl
@[simp] theorem takeFrame_blockSize (cfg : Engine) (s : State nv cw) : (takeFrame cfg s).blockSize = s.blockSize := rfl
@[simp] theorem takeFrame_params (cfg : Engine) (s : State nv cw) : (takeFrame cfg s).params = s.params := rfl
@[simp] theorem takeFrame_pvalid (cfg : Engine) (s : State nv cw) : (takeFrame cfg s).pvalid = s.pvalid := rfl
@[simp] theorem takeFrame_voices (cfg : Engine) (s : State nv cw) : (takeFrame cfg s).voices = s.voices := rfl
@[simp] theorem takeFrame_hp (cfg : Engine) (s : State nv cw) : (takeFrame cfg s).hp = s.hp := rfl
@[simp] theorem takeFrame_tph (cfg : Engine) (s : State nv cw) : (takeFrame cfg s).tph = s.tph := rfl
@[simp] theorem takeFrame_dry (cfg : Engine) (s : State nv cw) : (takeFrame cfg s).dry = s.dry := rfl
@[simp] theorem takeFrame_wetL (cfg : Engine) (s : State nv cw) : (takeFrame cfg s).wetL = s.wetL := rfl
@[simp] theorem takeFrame_wetR (cfg : Engine) (s : State nv cw) : (takeFrame cfg s).wetR = s.wetR := rfl
@[simp] theorem takeFrame_prepared (cfg : Engine) (s : State nv cw) : (takeFrame cfg s).prepared = s.prepared := rfl
@[simp] theorem takeFrame_fault (cfg : Engine) (s : State nv cw) : (takeFrame cfg s).fault = s.fault := rfl
@[simp] theorem takeFrame_cause (cfg : Engine) (s : State nv cw) : (takeFrame cfg s).cause = s.cause := rfl
@[simp] theorem takeFrame_noiseState (cfg : Engine) (s : State nv cw) : (takeFrame cfg s).noiseState = s.noiseState := rfl
@[simp] theorem takeFrame_rvState (cfg : Engine) (s : State nv cw) : (takeFrame cfg s).rvState = s.rvState := rfl
@[simp] theorem takeFrame_outQueue (cfg : Engine) (s : State nv cw) : (takeFrame cfg s).outQueue = s.outQueue.drop 1 ++ s.emitting.take (queueCapacity cfg - (s.outQueue.drop 1).length) := rfl
@[simp] theorem takeFrame_emitting (cfg : Engine) (s : State nv cw) : (takeFrame cfg s).emitting = s.emitting.drop (queueCapacity cfg - (s.outQueue.drop 1).length) := rfl
@[simp] theorem takeFrame_hostIn (cfg : Engine) (s : State nv cw) : (takeFrame cfg s).hostIn = s.hostIn := rfl

/-! ### `hpRetune cfg fc s` -/

@[simp] theorem hpRetune_sr (cfg : Engine) (fc : F) (s : State nv cw) : (hpRetune cfg fc s).sr = s.sr := rfl
@[simp] theorem hpRetune_len (cfg : Engine) (fc : F) (s : State nv cw) : (hpRetune cfg fc s).len = s.len := rfl
@[simp] theorem hpRetune_blockSize (cfg : Engine) (fc : F) (s : State nv cw) : (hpRetune cfg fc s).blockSize = s.blockSize := rfl
@[simp] theorem hpRetune_params (cfg : Engine) (fc : F) (s : State nv cw) : (hpRetune cfg fc s).params = s.params := rfl
@[simp] theorem hpRetune_pvalid (cfg : Engine) (fc : F) (s : State nv cw) : (hpRetune cfg fc s).pvalid = s.pvalid := rfl
@[simp] theorem hpRetune_voices (cfg : Engine) (fc : F) (s : State nv cw) : (hpRetune cfg fc s).voices = s.voices := rfl
@[simp] theorem hpRetune_hp (cfg : Engine) (fc : F) (s : State nv cw) : (hpRetune cfg fc s).hp = withCoefs s.hp (cfg.coefHp s.sr fc) := rfl
@[simp] theorem hpRetune_tph (cfg : Engine) (fc : F) (s : State nv cw) : (hpRetune cfg fc s).tph = s.tph := rfl
@[simp] theorem hpRetune_dry (cfg : Engine) (fc : F) (s : State nv cw) : (hpRetune cfg fc s).dry = s.dry := rfl
@[simp] theorem hpRetune_wetL (cfg : Engine) (fc : F) (s : State nv cw) : (hpRetune cfg fc s).wetL = s.wetL := rfl
@[simp] theorem hpRetune_wetR (cfg : Engine) (fc : F) (s : State nv cw) : (hpRetune cfg fc s).wetR = s.wetR := rfl
@[simp] theorem hpRetune_prepared (cfg : Engine) (fc : F) (s : State nv cw) : (hpRetune cfg fc s).prepared = s.prepared := rfl
@[simp] theorem hpRetune_fault (cfg : Engine) (fc : F) (s : State nv cw) : (hpRetune cfg fc s).fault = s.fault := rfl
@[simp] theorem hpRetune_cause (cfg : Engine) (fc : F) (s : State nv cw) : (hpRetune cfg fc s).cause = s.cause := rfl
@[simp] theorem hpRetune_noiseState (cfg : Engine) (fc : F) (s : State nv cw) : (hpRetune cfg fc s).noiseState = s.noiseState := rfl
@[simp] theorem hpRetune_rvState (cfg : Engine) (fc : F) (s : State nv cw) : (hpRetune cfg fc s).rvState = s.rvState := rfl
@[simp] theorem hpRetune_outQueue (cfg : Engine) (fc : F) (s : State nv cw) : (hpRetune cfg fc s).outQueue = s.outQueue := rfl
@[simp] theorem hpRetune_emitting (cfg : Engine) (fc : F) (s : State nv cw) : (hpRetune cfg fc s).emitting = s.emitting := rfl
@[simp] theorem hpRetune_hostIn (cfg : Engine) (fc : F) (s : State nv cw) : (hpRetune cfg fc s).hostIn = s.hostIn := rfl

/-! ### `(hpStep x s).2` -/

@[simp] theorem hpStep_sr (x : F) (s : State nv cw) : (hpStep x s).2.sr = s.sr := rfl
@[simp] theorem hpStep_len (x : F) (s : State nv cw) : (hpStep x s).2.len = s.len := rfl
@[simp] theorem hpStep_blockSize (x : F) (s : State nv cw) : (hpStep x s).2.blockSize = s.blockSize := rfl
@[simp] theorem hpStep_params (x : F) (s : State nv cw) : (hpStep x s).2.params = s.params := rfl
@[simp] theorem hpStep_pvalid (x : F) (s : State nv cw) : (hpStep x s).2.pvalid = s.pvalid := rfl
@[simp] theorem hpStep_voices (x : F) (s : State nv cw) : (hpStep x s).2.voices = s.voices := rfl
@[simp] theorem hpStep_hp (x : F) (s : State nv cw) : (hpStep x s).2.hp = (iir1Step s.hp x).2 := rfl
@[simp] theorem hpStep_tph (x : F) (s : State nv cw) : (hpStep x s).2.tph = s.tph := rfl
@[simp] theorem hpStep_dry (x : F) (s : State nv cw) : (hpStep x s).2.dry = s.dry := rfl
@[simp] theorem hpStep_wetL (x : F) (s : State nv cw) : (hpStep x s).2.wetL = s.wetL := rfl
@[simp] theorem hpStep_wetR (x : F) (s : State nv cw) : (hpStep x s).2.wetR = s.wetR := rfl
@[simp] theorem hpStep_prepared (x : F) (s : State nv cw) : (hpStep x s).2.prepared = s.prepared := rfl
@[simp] theorem hpStep_fault (x : F) (s : State nv cw) : (hpStep x s).2.fault = s.fault := rfl
@[simp] theorem hpStep_cause (x : F) (s : State nv cw) : (hpStep x s).2.cause = s.cause := rfl
@[simp] theorem hpStep_noiseState (x : F) (s : State nv cw) : (hpStep x s).2.noiseState = s.noiseState := rfl
@[simp] theorem hpStep_rvState (x : F) (s : State nv cw) : (hpStep x s).2.rvState = s.rvState := rfl
@[simp] theorem hpStep_outQueue (x : F) (s : State nv cw) : (hpStep x s).2.outQueue = s.outQueue := rfl
@[simp] theorem hpStep_emitting (x : F) (s : State nv cw) : (hpStep x s).2.emitting = s.emitting := rfl
@[simp] theorem hpStep_hostIn (x : F) (s : State nv cw) : (hpStep x s).2.hostIn = s.hostIn := rfl

/-! ### `(tremStep rate depth s).2` -/

@[simp] theorem tremStep_sr (rate depth : F) (s : State nv cw) : (tremStep rate depth s).2.sr = s.sr := rfl
@[simp] theorem tremStep_len (rate depth : F) (s : State nv cw) : (tremStep rate depth s).2.len = s.len := rfl
@[simp] theorem tremStep_blockSize (rate depth : F) (s : State nv cw) : (tremStep rate depth s).2.blockSize = s.blockSize := rfl
@[simp] theorem tremStep_params (rate depth : F) (s : State nv cw) : (tremStep rate depth s).2.params = s.params := rfl
@[simp] theorem tremStep_pvalid (rate depth : F) (s : State nv cw) : (tremStep rate depth s).2.pvalid = s.pvalid := rfl
@[simp] theorem tremStep_voices (rate depth : F) (s : State nv cw) : (tremStep rate depth s).2.voices = s.voices := rfl
@[simp] theorem tremStep_hp (rate depth : F) (s : State nv cw) : (tremStep rate depth s).2.hp = s.hp := rfl
@[simp] theorem tremStep_tph (rate depth : F) (s : State nv cw) : (tremStep rate depth s).2.tph = nextTph rate s.tph s.sr := rfl
@[simp] theorem tremStep_dry (rate depth : F) (s : State nv cw) : (tremStep rate depth s).2.dry = s.dry := rfl
@[simp] theorem tremStep_wetL (rate depth : F) (s : State nv cw) : (tremStep rate depth s).2.wetL = s.wetL := rfl
@[simp] theorem tremStep_wetR (rate depth : F) (s : State nv cw) : (tremStep rate depth s).2.wetR = s.wetR := rfl
@[simp] theorem tremStep_prepared (rate depth : F) (s : State nv cw) : (tremStep rate depth s).2.prepared = s.prepared := rfl
@[simp] theorem tremStep_fault (rate depth : F) (s : State nv cw) : (tremStep rate depth s).2.fault = s.fault := rfl
@[simp] theorem tremStep_cause (rate depth : F) (s : State nv cw) : (tremStep rate depth s).2.cause = s.cause := rfl
@[simp] theorem tremStep_noiseState (rate depth : F) (s : State nv cw) : (tremStep rate depth s).2.noiseState = s.noiseState := rfl
@[simp] theorem tremStep_rvState (rate depth : F) (s : State nv cw) : (tremStep rate depth s).2.rvState = s.rvState := rfl
@[simp] theorem tremStep_outQueue (rate depth : F) (s : State nv cw) : (tremStep rate depth s).2.outQueue = s.outQueue := rfl
@[simp] theorem tremStep_emitting (rate depth : F) (s : State nv cw) : (tremStep rate depth s).2.emitting = s.emitting := rfl
@[simp] theorem tremStep_hostIn (rate depth : F) (s : State nv cw) : (tremStep rate depth s).2.hostIn = s.hostIn := rfl

/-! ### `reverbPass n size s` -/

@[simp] theorem reverbPass_sr (n : Nat) (size : F) (s : State nv cw) : (reverbPass n size s).sr = s.sr := rfl
@[simp] theorem reverbPass_len (n : Nat) (size : F) (s : State nv cw) : (reverbPass n size s).len = s.len := rfl
@[simp] theorem reverbPass_blockSize (n : Nat) (size : F) (s : State nv cw) : (reverbPass n size s).blockSize = s.blockSize := rfl
@[simp] theorem reverbPass_params (n : Nat) (size : F) (s : State nv cw) : (reverbPass n size s).params = s.params := rfl
@[simp] theorem reverbPass_pvalid (n : Nat) (size : F) (s : State nv cw) : (reverbPass n size s).pvalid = s.pvalid := rfl
@[simp] theorem reverbPass_voices (n : Nat) (size : F) (s : State nv cw) : (reverbPass n size s).voices = s.voices := rfl
@[simp] theorem reverbPass_hp (n : Nat) (size : F) (s : State nv cw) : (reverbPass n size s).hp = s.hp := rfl
@[simp] theorem reverbPass_tph (n : Nat) (size : F) (s : State nv cw) : (reverbPass n size s).tph = s.tph := rfl
@[simp] theorem reverbPass_dry (n : Nat) (size : F) (s : State nv cw) : (reverbPass n size s).dry = s.dry := rfl
@[simp] theorem reverbPass_wetL (n : Nat) (size : F) (s : State nv cw) : (reverbPass n size s).wetL = writeWords n (rvLeft s.rvState size n (wordsOf n s.wetL) (wordsOf n s.wetR)) s.wetL := rfl
@[simp] theorem reverbPass_wetR (n : Nat) (size : F) (s : State nv cw) : (reverbPass n size s).wetR = writeWords n (rvRight s.rvState size n (wordsOf n s.wetL) (wordsOf n s.wetR)) s.wetR := rfl
@[simp] theorem reverbPass_prepared (n : Nat) (size : F) (s : State nv cw) : (reverbPass n size s).prepared = s.prepared := rfl
@[simp] theorem reverbPass_fault (n : Nat) (size : F) (s : State nv cw) : (reverbPass n size s).fault = s.fault := rfl
@[simp] theorem reverbPass_cause (n : Nat) (size : F) (s : State nv cw) : (reverbPass n size s).cause = s.cause := rfl
@[simp] theorem reverbPass_noiseState (n : Nat) (size : F) (s : State nv cw) : (reverbPass n size s).noiseState = s.noiseState := rfl
@[simp] theorem reverbPass_rvState (n : Nat) (size : F) (s : State nv cw) : (reverbPass n size s).rvState = rvNext s.rvState size n (wordsOf n s.wetL) (wordsOf n s.wetR) := rfl
@[simp] theorem reverbPass_outQueue (n : Nat) (size : F) (s : State nv cw) : (reverbPass n size s).outQueue = s.outQueue := rfl
@[simp] theorem reverbPass_emitting (n : Nat) (size : F) (s : State nv cw) : (reverbPass n size s).emitting = s.emitting := rfl
@[simp] theorem reverbPass_hostIn (n : Nat) (size : F) (s : State nv cw) : (reverbPass n size s).hostIn = s.hostIn := rfl

/-! ### `prepareState cfg bs r s` -/

@[simp] theorem prepareState_sr (cfg : Engine) (bs : Nat) (r : F) (s : State nv cw) : (prepareState cfg bs r s).sr = r := rfl
@[simp] theorem prepareState_len (cfg : Engine) (bs : Nat) (r : F) (s : State nv cw) : (prepareState cfg bs r s).len = cursorOf (bufLength cfg r) := rfl
@[simp] theorem prepareState_blockSize (cfg : Engine) (bs : Nat) (r : F) (s : State nv cw) : (prepareState cfg bs r s).blockSize = zextN bs := rfl
@[simp] theorem prepareState_params (cfg : Engine) (bs : Nat) (r : F) (s : State nv cw) : (prepareState cfg bs r s).params = s.params := rfl
@[simp] theorem prepareState_pvalid (cfg : Engine) (bs : Nat) (r : F) (s : State nv cw) : (prepareState cfg bs r s).pvalid = s.pvalid := rfl
@[simp] theorem prepareState_voices (cfg : Engine) (bs : Nat) (r : F) (s : State nv cw) : (prepareState cfg bs r s).voices = Vector.replicate nv Voice.zero := rfl
@[simp] theorem prepareState_hp (cfg : Engine) (bs : Nat) (r : F) (s : State nv cw) : (prepareState cfg bs r s).hp = Section1.zero := rfl
@[simp] theorem prepareState_tph (cfg : Engine) (bs : Nat) (r : F) (s : State nv cw) : (prepareState cfg bs r s).tph = fZero := rfl
@[simp] theorem prepareState_dry (cfg : Engine) (bs : Nat) (r : F) (s : State nv cw) : (prepareState cfg bs r s).dry = s.dry := rfl
@[simp] theorem prepareState_wetL (cfg : Engine) (bs : Nat) (r : F) (s : State nv cw) : (prepareState cfg bs r s).wetL = s.wetL := rfl
@[simp] theorem prepareState_wetR (cfg : Engine) (bs : Nat) (r : F) (s : State nv cw) : (prepareState cfg bs r s).wetR = s.wetR := rfl
@[simp] theorem prepareState_prepared (cfg : Engine) (bs : Nat) (r : F) (s : State nv cw) : (prepareState cfg bs r s).prepared = true := rfl
@[simp] theorem prepareState_fault (cfg : Engine) (bs : Nat) (r : F) (s : State nv cw) : (prepareState cfg bs r s).fault = s.fault := rfl
@[simp] theorem prepareState_cause (cfg : Engine) (bs : Nat) (r : F) (s : State nv cw) : (prepareState cfg bs r s).cause = s.cause := rfl
@[simp] theorem prepareState_noiseState (cfg : Engine) (bs : Nat) (r : F) (s : State nv cw) : (prepareState cfg bs r s).noiseState = s.noiseState := rfl
@[simp] theorem prepareState_rvState (cfg : Engine) (bs : Nat) (r : F) (s : State nv cw) : (prepareState cfg bs r s).rvState = rvReset r bs := rfl
@[simp] theorem prepareState_outQueue (cfg : Engine) (bs : Nat) (r : F) (s : State nv cw) : (prepareState cfg bs r s).outQueue = s.outQueue := rfl
@[simp] theorem prepareState_emitting (cfg : Engine) (bs : Nat) (r : F) (s : State nv cw) : (prepareState cfg bs r s).emitting = s.emitting := rfl
@[simp] theorem prepareState_hostIn (cfg : Engine) (bs : Nat) (r : F) (s : State nv cw) : (prepareState cfg bs r s).hostIn = s.hostIn := rfl

/-! ### `offerWord w s` -/

@[simp] theorem offerWord_sr (w : Word64) (s : State nv cw) : (offerWord w s).sr = s.sr := rfl
@[simp] theorem offerWord_len (w : Word64) (s : State nv cw) : (offerWord w s).len = s.len := rfl
@[simp] theorem offerWord_blockSize (w : Word64) (s : State nv cw) : (offerWord w s).blockSize = s.blockSize := rfl
@[simp] theorem offerWord_params (w : Word64) (s : State nv cw) : (offerWord w s).params = s.params := rfl
@[simp] theorem offerWord_pvalid (w : Word64) (s : State nv cw) : (offerWord w s).pvalid = s.pvalid := rfl
@[simp] theorem offerWord_voices (w : Word64) (s : State nv cw) : (offerWord w s).voices = s.voices := rfl
@[simp] theorem offerWord_hp (w : Word64) (s : State nv cw) : (offerWord w s).hp = s.hp := rfl
@[simp] theorem offerWord_tph (w : Word64) (s : State nv cw) : (offerWord w s).tph = s.tph := rfl
@[simp] theorem offerWord_dry (w : Word64) (s : State nv cw) : (offerWord w s).dry = s.dry := rfl
@[simp] theorem offerWord_wetL (w : Word64) (s : State nv cw) : (offerWord w s).wetL = s.wetL := rfl
@[simp] theorem offerWord_wetR (w : Word64) (s : State nv cw) : (offerWord w s).wetR = s.wetR := rfl
@[simp] theorem offerWord_prepared (w : Word64) (s : State nv cw) : (offerWord w s).prepared = s.prepared := rfl
@[simp] theorem offerWord_fault (w : Word64) (s : State nv cw) : (offerWord w s).fault = s.fault := rfl
@[simp] theorem offerWord_cause (w : Word64) (s : State nv cw) : (offerWord w s).cause = s.cause := rfl
@[simp] theorem offerWord_noiseState (w : Word64) (s : State nv cw) : (offerWord w s).noiseState = s.noiseState := rfl
@[simp] theorem offerWord_rvState (w : Word64) (s : State nv cw) : (offerWord w s).rvState = s.rvState := rfl
@[simp] theorem offerWord_outQueue (w : Word64) (s : State nv cw) : (offerWord w s).outQueue = s.outQueue := rfl
@[simp] theorem offerWord_emitting (w : Word64) (s : State nv cw) : (offerWord w s).emitting = s.emitting := rfl
@[simp] theorem offerWord_hostIn (w : Word64) (s : State nv cw) : (offerWord w s).hostIn = .word w :: s.hostIn := rfl

/-! ### `dlWrite v i x s` -/

@[simp] theorem dlWrite_sr (v : Fin nv) (i : Nat) (x : F) (s : State nv cw) : (dlWrite v i x s).sr = s.sr := rfl
@[simp] theorem dlWrite_len (v : Fin nv) (i : Nat) (x : F) (s : State nv cw) : (dlWrite v i x s).len = s.len := rfl
@[simp] theorem dlWrite_blockSize (v : Fin nv) (i : Nat) (x : F) (s : State nv cw) : (dlWrite v i x s).blockSize = s.blockSize := rfl
@[simp] theorem dlWrite_params (v : Fin nv) (i : Nat) (x : F) (s : State nv cw) : (dlWrite v i x s).params = s.params := rfl
@[simp] theorem dlWrite_pvalid (v : Fin nv) (i : Nat) (x : F) (s : State nv cw) : (dlWrite v i x s).pvalid = s.pvalid := rfl
@[simp] theorem dlWrite_hp (v : Fin nv) (i : Nat) (x : F) (s : State nv cw) : (dlWrite v i x s).hp = s.hp := rfl
@[simp] theorem dlWrite_tph (v : Fin nv) (i : Nat) (x : F) (s : State nv cw) : (dlWrite v i x s).tph = s.tph := rfl
@[simp] theorem dlWrite_dry (v : Fin nv) (i : Nat) (x : F) (s : State nv cw) : (dlWrite v i x s).dry = s.dry := rfl
@[simp] theorem dlWrite_wetL (v : Fin nv) (i : Nat) (x : F) (s : State nv cw) : (dlWrite v i x s).wetL = s.wetL := rfl
@[simp] theorem dlWrite_wetR (v : Fin nv) (i : Nat) (x : F) (s : State nv cw) : (dlWrite v i x s).wetR = s.wetR := rfl
@[simp] theorem dlWrite_prepared (v : Fin nv) (i : Nat) (x : F) (s : State nv cw) : (dlWrite v i x s).prepared = s.prepared := rfl
@[simp] theorem dlWrite_fault (v : Fin nv) (i : Nat) (x : F) (s : State nv cw) : (dlWrite v i x s).fault = s.fault := rfl
@[simp] theorem dlWrite_cause (v : Fin nv) (i : Nat) (x : F) (s : State nv cw) : (dlWrite v i x s).cause = s.cause := rfl
@[simp] theorem dlWrite_noiseState (v : Fin nv) (i : Nat) (x : F) (s : State nv cw) : (dlWrite v i x s).noiseState = s.noiseState := rfl
@[simp] theorem dlWrite_rvState (v : Fin nv) (i : Nat) (x : F) (s : State nv cw) : (dlWrite v i x s).rvState = s.rvState := rfl
@[simp] theorem dlWrite_outQueue (v : Fin nv) (i : Nat) (x : F) (s : State nv cw) : (dlWrite v i x s).outQueue = s.outQueue := rfl
@[simp] theorem dlWrite_emitting (v : Fin nv) (i : Nat) (x : F) (s : State nv cw) : (dlWrite v i x s).emitting = s.emitting := rfl
@[simp] theorem dlWrite_hostIn (v : Fin nv) (i : Nat) (x : F) (s : State nv cw) : (dlWrite v i x s).hostIn = s.hostIn := rfl

/-! ### `lpRetune cfg v fc s` -/

@[simp] theorem lpRetune_sr (cfg : Engine) (v : Fin nv) (fc : F) (s : State nv cw) : (lpRetune cfg v fc s).sr = s.sr := rfl
@[simp] theorem lpRetune_len (cfg : Engine) (v : Fin nv) (fc : F) (s : State nv cw) : (lpRetune cfg v fc s).len = s.len := rfl
@[simp] theorem lpRetune_blockSize (cfg : Engine) (v : Fin nv) (fc : F) (s : State nv cw) : (lpRetune cfg v fc s).blockSize = s.blockSize := rfl
@[simp] theorem lpRetune_params (cfg : Engine) (v : Fin nv) (fc : F) (s : State nv cw) : (lpRetune cfg v fc s).params = s.params := rfl
@[simp] theorem lpRetune_pvalid (cfg : Engine) (v : Fin nv) (fc : F) (s : State nv cw) : (lpRetune cfg v fc s).pvalid = s.pvalid := rfl
@[simp] theorem lpRetune_hp (cfg : Engine) (v : Fin nv) (fc : F) (s : State nv cw) : (lpRetune cfg v fc s).hp = s.hp := rfl
@[simp] theorem lpRetune_tph (cfg : Engine) (v : Fin nv) (fc : F) (s : State nv cw) : (lpRetune cfg v fc s).tph = s.tph := rfl
@[simp] theorem lpRetune_dry (cfg : Engine) (v : Fin nv) (fc : F) (s : State nv cw) : (lpRetune cfg v fc s).dry = s.dry := rfl
@[simp] theorem lpRetune_wetL (cfg : Engine) (v : Fin nv) (fc : F) (s : State nv cw) : (lpRetune cfg v fc s).wetL = s.wetL := rfl
@[simp] theorem lpRetune_wetR (cfg : Engine) (v : Fin nv) (fc : F) (s : State nv cw) : (lpRetune cfg v fc s).wetR = s.wetR := rfl
@[simp] theorem lpRetune_prepared (cfg : Engine) (v : Fin nv) (fc : F) (s : State nv cw) : (lpRetune cfg v fc s).prepared = s.prepared := rfl
@[simp] theorem lpRetune_fault (cfg : Engine) (v : Fin nv) (fc : F) (s : State nv cw) : (lpRetune cfg v fc s).fault = s.fault := rfl
@[simp] theorem lpRetune_cause (cfg : Engine) (v : Fin nv) (fc : F) (s : State nv cw) : (lpRetune cfg v fc s).cause = s.cause := rfl
@[simp] theorem lpRetune_noiseState (cfg : Engine) (v : Fin nv) (fc : F) (s : State nv cw) : (lpRetune cfg v fc s).noiseState = s.noiseState := rfl
@[simp] theorem lpRetune_rvState (cfg : Engine) (v : Fin nv) (fc : F) (s : State nv cw) : (lpRetune cfg v fc s).rvState = s.rvState := rfl
@[simp] theorem lpRetune_outQueue (cfg : Engine) (v : Fin nv) (fc : F) (s : State nv cw) : (lpRetune cfg v fc s).outQueue = s.outQueue := rfl
@[simp] theorem lpRetune_emitting (cfg : Engine) (v : Fin nv) (fc : F) (s : State nv cw) : (lpRetune cfg v fc s).emitting = s.emitting := rfl
@[simp] theorem lpRetune_hostIn (cfg : Engine) (v : Fin nv) (fc : F) (s : State nv cw) : (lpRetune cfg v fc s).hostIn = s.hostIn := rfl

/-! ### `vStart cfg v p vel d b k c s` -/

@[simp] theorem vStart_sr (cfg : Engine) (v : Fin nv) (p : Nat) (vel d b : F) (k : Wave) (c : F) (s : State nv cw) : (vStart cfg v p vel d b k c s).sr = s.sr := rfl
@[simp] theorem vStart_len (cfg : Engine) (v : Fin nv) (p : Nat) (vel d b : F) (k : Wave) (c : F) (s : State nv cw) : (vStart cfg v p vel d b k c s).len = s.len := rfl
@[simp] theorem vStart_blockSize (cfg : Engine) (v : Fin nv) (p : Nat) (vel d b : F) (k : Wave) (c : F) (s : State nv cw) : (vStart cfg v p vel d b k c s).blockSize = s.blockSize := rfl
@[simp] theorem vStart_params (cfg : Engine) (v : Fin nv) (p : Nat) (vel d b : F) (k : Wave) (c : F) (s : State nv cw) : (vStart cfg v p vel d b k c s).params = s.params := rfl
@[simp] theorem vStart_pvalid (cfg : Engine) (v : Fin nv) (p : Nat) (vel d b : F) (k : Wave) (c : F) (s : State nv cw) : (vStart cfg v p vel d b k c s).pvalid = s.pvalid := rfl
@[simp] theorem vStart_hp (cfg : Engine) (v : Fin nv) (p : Nat) (vel d b : F) (k : Wave) (c : F) (s : State nv cw) : (vStart cfg v p vel d b k c s).hp = s.hp := rfl
@[simp] theorem vStart_tph (cfg : Engine) (v : Fin nv) (p : Nat) (vel d b : F) (k : Wave) (c : F) (s : State nv cw) : (vStart cfg v p vel d b k c s).tph = s.tph := rfl
@[simp] theorem vStart_dry (cfg : Engine) (v : Fin nv) (p : Nat) (vel d b : F) (k : Wave) (c : F) (s : State nv cw) : (vStart cfg v p vel d b k c s).dry = s.dry := rfl
@[simp] theorem vStart_wetL (cfg : Engine) (v : Fin nv) (p : Nat) (vel d b : F) (k : Wave) (c : F) (s : State nv cw) : (vStart cfg v p vel d b k c s).wetL = s.wetL := rfl
@[simp] theorem vStart_wetR (cfg : Engine) (v : Fin nv) (p : Nat) (vel d b : F) (k : Wave) (c : F) (s : State nv cw) : (vStart cfg v p vel d b k c s).wetR = s.wetR := rfl
@[simp] theorem vStart_prepared (cfg : Engine) (v : Fin nv) (p : Nat) (vel d b : F) (k : Wave) (c : F) (s : State nv cw) : (vStart cfg v p vel d b k c s).prepared = s.prepared := rfl
@[simp] theorem vStart_fault (cfg : Engine) (v : Fin nv) (p : Nat) (vel d b : F) (k : Wave) (c : F) (s : State nv cw) : (vStart cfg v p vel d b k c s).fault = s.fault := rfl
@[simp] theorem vStart_cause (cfg : Engine) (v : Fin nv) (p : Nat) (vel d b : F) (k : Wave) (c : F) (s : State nv cw) : (vStart cfg v p vel d b k c s).cause = s.cause := rfl
@[simp] theorem vStart_noiseState (cfg : Engine) (v : Fin nv) (p : Nat) (vel d b : F) (k : Wave) (c : F) (s : State nv cw) : (vStart cfg v p vel d b k c s).noiseState = s.noiseState := rfl
@[simp] theorem vStart_rvState (cfg : Engine) (v : Fin nv) (p : Nat) (vel d b : F) (k : Wave) (c : F) (s : State nv cw) : (vStart cfg v p vel d b k c s).rvState = s.rvState := rfl
@[simp] theorem vStart_outQueue (cfg : Engine) (v : Fin nv) (p : Nat) (vel d b : F) (k : Wave) (c : F) (s : State nv cw) : (vStart cfg v p vel d b k c s).outQueue = s.outQueue := rfl
@[simp] theorem vStart_emitting (cfg : Engine) (v : Fin nv) (p : Nat) (vel d b : F) (k : Wave) (c : F) (s : State nv cw) : (vStart cfg v p vel d b k c s).emitting = s.emitting := rfl
@[simp] theorem vStart_hostIn (cfg : Engine) (v : Fin nv) (p : Nat) (vel d b : F) (k : Wave) (c : F) (s : State nv cw) : (vStart cfg v p vel d b k c s).hostIn = s.hostIn := rfl

/-! ### `vStop v s` -/

@[simp] theorem vStop_sr (v : Fin nv) (s : State nv cw) : (vStop v s).sr = s.sr := rfl
@[simp] theorem vStop_len (v : Fin nv) (s : State nv cw) : (vStop v s).len = s.len := rfl
@[simp] theorem vStop_blockSize (v : Fin nv) (s : State nv cw) : (vStop v s).blockSize = s.blockSize := rfl
@[simp] theorem vStop_params (v : Fin nv) (s : State nv cw) : (vStop v s).params = s.params := rfl
@[simp] theorem vStop_pvalid (v : Fin nv) (s : State nv cw) : (vStop v s).pvalid = s.pvalid := rfl
@[simp] theorem vStop_hp (v : Fin nv) (s : State nv cw) : (vStop v s).hp = s.hp := rfl
@[simp] theorem vStop_tph (v : Fin nv) (s : State nv cw) : (vStop v s).tph = s.tph := rfl
@[simp] theorem vStop_dry (v : Fin nv) (s : State nv cw) : (vStop v s).dry = s.dry := rfl
@[simp] theorem vStop_wetL (v : Fin nv) (s : State nv cw) : (vStop v s).wetL = s.wetL := rfl
@[simp] theorem vStop_wetR (v : Fin nv) (s : State nv cw) : (vStop v s).wetR = s.wetR := rfl
@[simp] theorem vStop_prepared (v : Fin nv) (s : State nv cw) : (vStop v s).prepared = s.prepared := rfl
@[simp] theorem vStop_fault (v : Fin nv) (s : State nv cw) : (vStop v s).fault = s.fault := rfl
@[simp] theorem vStop_cause (v : Fin nv) (s : State nv cw) : (vStop v s).cause = s.cause := rfl
@[simp] theorem vStop_noiseState (v : Fin nv) (s : State nv cw) : (vStop v s).noiseState = s.noiseState := rfl
@[simp] theorem vStop_rvState (v : Fin nv) (s : State nv cw) : (vStop v s).rvState = s.rvState := rfl
@[simp] theorem vStop_outQueue (v : Fin nv) (s : State nv cw) : (vStop v s).outQueue = s.outQueue := rfl
@[simp] theorem vStop_emitting (v : Fin nv) (s : State nv cw) : (vStop v s).emitting = s.emitting := rfl
@[simp] theorem vStop_hostIn (v : Fin nv) (s : State nv cw) : (vStop v s).hostIn = s.hostIn := rfl

/-! ### `seekReadCursor cfg v s` -/

@[simp] theorem seekReadCursor_sr (cfg : Engine) (v : Fin nv) (s : State nv cw) : (seekReadCursor cfg v s).sr = s.sr := rfl
@[simp] theorem seekReadCursor_len (cfg : Engine) (v : Fin nv) (s : State nv cw) : (seekReadCursor cfg v s).len = s.len := rfl
@[simp] theorem seekReadCursor_blockSize (cfg : Engine) (v : Fin nv) (s : State nv cw) : (seekReadCursor cfg v s).blockSize = s.blockSize := rfl
@[simp] theorem seekReadCursor_params (cfg : Engine) (v : Fin nv) (s : State nv cw) : (seekReadCursor cfg v s).params = s.params := rfl
@[simp] theorem seekReadCursor_pvalid (cfg : Engine) (v : Fin nv) (s : State nv cw) : (seekReadCursor cfg v s).pvalid = s.pvalid := rfl
@[simp] theorem seekReadCursor_hp (cfg : Engine) (v : Fin nv) (s : State nv cw) : (seekReadCursor cfg v s).hp = s.hp := rfl
@[simp] theorem seekReadCursor_tph (cfg : Engine) (v : Fin nv) (s : State nv cw) : (seekReadCursor cfg v s).tph = s.tph := rfl
@[simp] theorem seekReadCursor_dry (cfg : Engine) (v : Fin nv) (s : State nv cw) : (seekReadCursor cfg v s).dry = s.dry := rfl
@[simp] theorem seekReadCursor_wetL (cfg : Engine) (v : Fin nv) (s : State nv cw) : (seekReadCursor cfg v s).wetL = s.wetL := rfl
@[simp] theorem seekReadCursor_wetR (cfg : Engine) (v : Fin nv) (s : State nv cw) : (seekReadCursor cfg v s).wetR = s.wetR := rfl
@[simp] theorem seekReadCursor_prepared (cfg : Engine) (v : Fin nv) (s : State nv cw) : (seekReadCursor cfg v s).prepared = s.prepared := rfl
@[simp] theorem seekReadCursor_fault (cfg : Engine) (v : Fin nv) (s : State nv cw) : (seekReadCursor cfg v s).fault = s.fault := rfl
@[simp] theorem seekReadCursor_cause (cfg : Engine) (v : Fin nv) (s : State nv cw) : (seekReadCursor cfg v s).cause = s.cause := rfl
@[simp] theorem seekReadCursor_noiseState (cfg : Engine) (v : Fin nv) (s : State nv cw) : (seekReadCursor cfg v s).noiseState = s.noiseState := rfl
@[simp] theorem seekReadCursor_rvState (cfg : Engine) (v : Fin nv) (s : State nv cw) : (seekReadCursor cfg v s).rvState = s.rvState := rfl
@[simp] theorem seekReadCursor_outQueue (cfg : Engine) (v : Fin nv) (s : State nv cw) : (seekReadCursor cfg v s).outQueue = s.outQueue := rfl
@[simp] theorem seekReadCursor_emitting (cfg : Engine) (v : Fin nv) (s : State nv cw) : (seekReadCursor cfg v s).emitting = s.emitting := rfl
@[simp] theorem seekReadCursor_hostIn (cfg : Engine) (v : Fin nv) (s : State nv cw) : (seekReadCursor cfg v s).hostIn = s.hostIn := rfl

/-! ### `advancePhase v s` -/

@[simp] theorem advancePhase_sr (v : Fin nv) (s : State nv cw) : (advancePhase v s).sr = s.sr := rfl
@[simp] theorem advancePhase_len (v : Fin nv) (s : State nv cw) : (advancePhase v s).len = s.len := rfl
@[simp] theorem advancePhase_blockSize (v : Fin nv) (s : State nv cw) : (advancePhase v s).blockSize = s.blockSize := rfl
@[simp] theorem advancePhase_params (v : Fin nv) (s : State nv cw) : (advancePhase v s).params = s.params := rfl
@[simp] theorem advancePhase_pvalid (v : Fin nv) (s : State nv cw) : (advancePhase v s).pvalid = s.pvalid := rfl
@[simp] theorem advancePhase_hp (v : Fin nv) (s : State nv cw) : (advancePhase v s).hp = s.hp := rfl
@[simp] theorem advancePhase_tph (v : Fin nv) (s : State nv cw) : (advancePhase v s).tph = s.tph := rfl
@[simp] theorem advancePhase_dry (v : Fin nv) (s : State nv cw) : (advancePhase v s).dry = s.dry := rfl
@[simp] theorem advancePhase_wetL (v : Fin nv) (s : State nv cw) : (advancePhase v s).wetL = s.wetL := rfl
@[simp] theorem advancePhase_wetR (v : Fin nv) (s : State nv cw) : (advancePhase v s).wetR = s.wetR := rfl
@[simp] theorem advancePhase_prepared (v : Fin nv) (s : State nv cw) : (advancePhase v s).prepared = s.prepared := rfl
@[simp] theorem advancePhase_fault (v : Fin nv) (s : State nv cw) : (advancePhase v s).fault = s.fault := rfl
@[simp] theorem advancePhase_cause (v : Fin nv) (s : State nv cw) : (advancePhase v s).cause = s.cause := rfl
@[simp] theorem advancePhase_noiseState (v : Fin nv) (s : State nv cw) : (advancePhase v s).noiseState = s.noiseState := rfl
@[simp] theorem advancePhase_rvState (v : Fin nv) (s : State nv cw) : (advancePhase v s).rvState = s.rvState := rfl
@[simp] theorem advancePhase_outQueue (v : Fin nv) (s : State nv cw) : (advancePhase v s).outQueue = s.outQueue := rfl
@[simp] theorem advancePhase_emitting (v : Fin nv) (s : State nv cw) : (advancePhase v s).emitting = s.emitting := rfl
@[simp] theorem advancePhase_hostIn (v : Fin nv) (s : State nv cw) : (advancePhase v s).hostIn = s.hostIn := rfl

/-! ### `(lpStep v x s).2` -/

@[simp] theorem lpStep_sr (v : Fin nv) (x : F) (s : State nv cw) : (lpStep v x s).2.sr = s.sr := rfl
@[simp] theorem lpStep_len (v : Fin nv) (x : F) (s : State nv cw) : (lpStep v x s).2.len = s.len := rfl
@[simp] theorem lpStep_blockSize (v : Fin nv) (x : F) (s : State nv cw) : (lpStep v x s).2.blockSize = s.blockSize := rfl
@[simp] theorem lpStep_params (v : Fin nv) (x : F) (s : State nv cw) : (lpStep v x s).2.params = s.params := rfl
@[simp] theorem lpStep_pvalid (v : Fin nv) (x : F) (s : State nv cw) : (lpStep v x s).2.pvalid = s.pvalid := rfl
@[simp] theorem lpStep_hp (v : Fin nv) (x : F) (s : State nv cw) : (lpStep v x s).2.hp = s.hp := rfl
@[simp] theorem lpStep_tph (v : Fin nv) (x : F) (s : State nv cw) : (lpStep v x s).2.tph = s.tph := rfl
@[simp] theorem lpStep_dry (v : Fin nv) (x : F) (s : State nv cw) : (lpStep v x s).2.dry = s.dry := rfl
@[simp] theorem lpStep_wetL (v : Fin nv) (x : F) (s : State nv cw) : (lpStep v x s).2.wetL = s.wetL := rfl
@[simp] theorem lpStep_wetR (v : Fin nv) (x : F) (s : State nv cw) : (lpStep v x s).2.wetR = s.wetR := rfl
@[simp] theorem lpStep_prepared (v : Fin nv) (x : F) (s : State nv cw) : (lpStep v x s).2.prepared = s.prepared := rfl
@[simp] theorem lpStep_fault (v : Fin nv) (x : F) (s : State nv cw) : (lpStep v x s).2.fault = s.fault := rfl
@[simp] theorem lpStep_cause (v : Fin nv) (x : F) (s : State nv cw) : (lpStep v x s).2.cause = s.cause := rfl
@[simp] theorem lpStep_noiseState (v : Fin nv) (x : F) (s : State nv cw) : (lpStep v x s).2.noiseState = s.noiseState := rfl
@[simp] theorem lpStep_rvState (v : Fin nv) (x : F) (s : State nv cw) : (lpStep v x s).2.rvState = s.rvState := rfl
@[simp] theorem lpStep_outQueue (v : Fin nv) (x : F) (s : State nv cw) : (lpStep v x s).2.outQueue = s.outQueue := rfl
@[simp] theorem lpStep_emitting (v : Fin nv) (x : F) (s : State nv cw) : (lpStep v x s).2.emitting = s.emitting := rfl
@[simp] theorem lpStep_hostIn (v : Fin nv) (x : F) (s : State nv cw) : (lpStep v x s).2.hostIn = s.hostIn := rfl

/-! ### `advanceCursors v s` -/

@[simp] theorem advanceCursors_sr (v : Fin nv) (s : State nv cw) : (advanceCursors v s).sr = s.sr := rfl
@[simp] theorem advanceCursors_len (v : Fin nv) (s : State nv cw) : (advanceCursors v s).len = s.len := rfl
@[simp] theorem advanceCursors_blockSize (v : Fin nv) (s : State nv cw) : (advanceCursors v s).blockSize = s.blockSize := rfl
@[simp] theorem advanceCursors_params (v : Fin nv) (s : State nv cw) : (advanceCursors v s).params = s.params := rfl
@[simp] theorem advanceCursors_pvalid (v : Fin nv) (s : State nv cw) : (advanceCursors v s).pvalid = s.pvalid := rfl
@[simp] theorem advanceCursors_hp (v : Fin nv) (s : State nv cw) : (advanceCursors v s).hp = s.hp := rfl
@[simp] theorem advanceCursors_tph (v : Fin nv) (s : State nv cw) : (advanceCursors v s).tph = s.tph := rfl
@[simp] theorem advanceCursors_dry (v : Fin nv) (s : State nv cw) : (advanceCursors v s).dry = s.dry := rfl
@[simp] theorem advanceCursors_wetL (v : Fin nv) (s : State nv cw) : (advanceCursors v s).wetL = s.wetL := rfl
@[simp] theorem advanceCursors_wetR (v : Fin nv) (s : State nv cw) : (advanceCursors v s).wetR = s.wetR := rfl
@[simp] theorem advanceCursors_prepared (v : Fin nv) (s : State nv cw) : (advanceCursors v s).prepared = s.prepared := rfl
@[simp] theorem advanceCursors_fault (v : Fin nv) (s : State nv cw) : (advanceCursors v s).fault = s.fault := rfl
@[simp] theorem advanceCursors_cause (v : Fin nv) (s : State nv cw) : (advanceCursors v s).cause = s.cause := rfl
@[simp] theorem advanceCursors_noiseState (v : Fin nv) (s : State nv cw) : (advanceCursors v s).noiseState = s.noiseState := rfl
@[simp] theorem advanceCursors_rvState (v : Fin nv) (s : State nv cw) : (advanceCursors v s).rvState = s.rvState := rfl
@[simp] theorem advanceCursors_outQueue (v : Fin nv) (s : State nv cw) : (advanceCursors v s).outQueue = s.outQueue := rfl
@[simp] theorem advanceCursors_emitting (v : Fin nv) (s : State nv cw) : (advanceCursors v s).emitting = s.emitting := rfl
@[simp] theorem advanceCursors_hostIn (v : Fin nv) (s : State nv cw) : (advanceCursors v s).hostIn = s.hostIn := rfl

/-! ### The register file of a voice -/

@[simp] theorem voice_setVoice_same (s : State nv cw) (v : Fin nv) (r : Voice cw) : (s.setVoice v r).voice v = r := by
  simp [State.voice, State.setVoice]

theorem voice_setVoice_ne (s : State nv cw) (r : Voice cw) {u v : Fin nv} (h : u ≠ v) :
    (s.setVoice v r).voice u = s.voice u := by
  have h' : (v : Nat) ≠ (u : Nat) := fun e => h (Fin.ext e.symm)
  simp only [State.voice, State.setVoice, Fin.getElem_fin]
  exact Vector.getElem_set_ne (v.isLt) (u.isLt) h'

theorem voice_setVoice (s : State nv cw) (v u : Fin nv) (r : Voice cw) :
    (s.setVoice v r).voice u = if u = v then r else s.voice u := by
  by_cases h : u = v
  · subst h; simp
  · simp [h, voice_setVoice_ne s r h]

/-- Two states with the same register files have the same vector of voices. -/
theorem voices_ext {s t : State nv cw} (h : ∀ v, s.voice v = t.voice v) : s.voices = t.voices := by
  apply Vector.ext
  intro i hi
  exact h ⟨i, hi⟩

@[simp] theorem voice_mk_replicate (s : State nv cw) (r : Voice cw) (v : Fin nv) :
    State.voice { s with voices := Vector.replicate nv r } v = r := by
  simp [State.voice]

@[simp] theorem dlWrite_voice_same (v : Fin nv) (i : Nat) (x : F) (s : State nv cw) :
    (dlWrite v i x s).voice v = { s.voice v with buf := memWrite (s.voice v).buf i x } :=
  voice_setVoice_same ..
theorem dlWrite_voice_ne (v : Fin nv) (i : Nat) (x : F) (s : State nv cw) {u : Fin nv} (h : u ≠ v) :
    (dlWrite v i x s).voice u = s.voice u :=
  voice_setVoice_ne _ _ h

@[simp] theorem lpRetune_voice_same (cfg : Engine) (v : Fin nv) (fc : F) (s : State nv cw) :
    (lpRetune cfg v fc s).voice v = { s.voice v with
      lp := { withCoefs (s.voice v).lp (cfg.coefLp s.sr fc) with x1 := fZero, y1 := fZero } } :=
  voice_setVoice_same ..
theorem lpRetune_voice_ne (cfg : Engine) (v : Fin nv) (fc : F) (s : State nv cw) {u : Fin nv} (h : u ≠ v) :
    (lpRetune cfg v fc s).voice u = s.voice u :=
  voice_setVoice_ne _ _ h

@[simp] theorem vStop_voice_same (v : Fin nv) (s : State nv cw) :
    (vStop v s).voice v = { s.voice v with active := false } :=
  voice_setVoice_same ..
theorem vStop_voice_ne (v : Fin nv) (s : State nv cw) {u : Fin nv} (h : u ≠ v) :
    (vStop v s).voice u = s.voice u :=
  voice_setVoice_ne _ _ h

@[simp] theorem seekReadCursor_voice_same (cfg : Engine) (v : Fin nv) (s : State nv cw) :
    (seekReadCursor cfg v s).voice v = { s.voice v with
      rc := cursorOf (emod (((s.voice v).wc.toNat : Int) - delaySamples cfg v s) (s.len.toNat : Int)) } :=
  voice_setVoice_same ..
theorem seekReadCursor_voice_ne (cfg : Engine) (v : Fin nv) (s : State nv cw) {u : Fin nv} (h : u ≠ v) :
    (seekReadCursor cfg v s).voice u = s.voice u :=
  voice_setVoice_ne _ _ h

@[simp] theorem advancePhase_voice_same (v : Fin nv) (s : State nv cw) :
    (advancePhase v s).voice v = { s.voice v with phase := nextPhase (s.voice v).phase (s.voice v).freqHz s.sr } :=
  voice_setVoice_same ..
theorem advancePhase_voice_ne (v : Fin nv) (s : State nv cw) {u : Fin nv} (h : u ≠ v) :
    (advancePhase v s).voice u = s.voice u :=
  voice_setVoice_ne _ _ h

@[simp] theorem lpStep_voice_same (v : Fin nv) (x : F) (s : State nv cw) :
    (lpStep v x s).2.voice v = { s.voice v with lp := (iir1Step (s.voice v).lp x).2 } :=
  voice_setVoice_same ..
theorem lpStep_voice_ne (v : Fin nv) (x : F) (s : State nv cw) {u : Fin nv} (h : u ≠ v) :
    (lpStep v x s).2.voice u = s.voice u :=
  voice_setVoice_ne _ _ h

@[simp] theorem advanceCursors_voice_same (v : Fin nv) (s : State nv cw) :
    (advanceCursors v s).voice v = { s.voice v with
      wc := stepCursor (s.voice v).wc s.len, rc := stepCursor (s.voice v).rc s.len } :=
  voice_setVoice_same ..
theorem advanceCursors_voice_ne (v : Fin nv) (s : State nv cw) {u : Fin nv} (h : u ≠ v) :
    (advanceCursors v s).voice u = s.voice u :=
  voice_setVoice_ne _ _ h

@[simp] theorem vStart_voice_same (cfg : Engine) (v : Fin nv) (p : Nat) (vel d b : F) (k : Wave) (c : F) (s : State nv cw) :
    (vStart cfg v p vel d b k c s).voice v =
      { s.voice v with
        freqHz := cfg.pitchRom p, delayTime := fdiv fOne (cfg.pitchRom p), exGain := fOne, wc := 0, active := true
        decay := d, burst := b, wave := k, noteGain := cfg.velGain vel
        lp := { withCoefs (s.voice v).lp (cfg.coefLp s.sr c) with x1 := fZero, y1 := fZero } } := by
  simp [vStart]

theorem vStart_voice_ne (cfg : Engine) (v : Fin nv) (p : Nat) (vel d b : F) (k : Wave) (c : F) (s : State nv cw)
    {u : Fin nv} (h : u ≠ v) : (vStart cfg v p vel d b k c s).voice u = s.voice u := by
  simp [vStart, lpRetune_voice_ne _ _ _ _ h, voice_setVoice_ne _ _ h]

end Sys2Proof.Machine
end

