-- ==== Sys2Proof/Laws/Ops.lean ====
section
/-! SUPPORT. What the shared operations can do, said once each: the word memories and their canonical form, the
loops, the output port, the scan of the pool, fault entry, and the outcome of a step. -/

namespace Sys2Proof.Machine

open Sys2Proof.Config

variable {nv cw : Nat}

/-! ### Word memories (20_memory R64, R65) -/

@[simp] theorem memRead_nil (i : Nat) : memRead [] i = fZero := rfl

theorem memRead_append (m k : Memory) (i : Nat) :
    memRead (m ++ k) i = if m.any (fun c => c.1 == i) then memRead m i else memRead k i := by
  induction m with
  | nil => simp
  | cons c rest ih =>
    obtain ⟨j, w⟩ := c
    by_cases h : j = i
    · simp [memRead, h]
    · simp [memRead, h, ih]

theorem memRead_filter {p : Nat × F → Bool} {i : Nat} (h : ∀ w, p (i, w) = true) (m : Memory) :
    memRead (m.filter p) i = memRead m i := by
  induction m with
  | nil => rfl
  | cons c rest ih =>
    obtain ⟨j, w⟩ := c
    by_cases hj : j = i
    · subst hj; simp [memRead, h w]
    · by_cases hp : p (j, w) = true <;> simp [memRead, hj, hp, ih]

theorem memRead_of_no_entry {m : Memory} {i : Nat} (h : ∀ c ∈ m, c.1 ≠ i) : memRead m i = fZero := by
  induction m with
  | nil => rfl
  | cons c rest ih =>
    obtain ⟨j, w⟩ := c
    have hj : j ≠ i := h (j, w) (by simp)
    simp only [memRead, hj, if_false]
    exact ih (fun c hc => h c (by simp [hc]))

/-- A read after a write to the same word gives the value written. -/
@[simp] theorem memRead_memWrite_same (m : Memory) (i : Nat) (v : F) : memRead (memWrite m i v) i = v := by
  have hlow : (m.filter (fun c => decide (c.1 < i))).any (fun c => c.1 == i) = false := by
    simp only [List.any_eq_false, List.mem_filter, decide_eq_true_eq, beq_iff_eq]
    rintro c ⟨_, hc⟩ rfl
    exact absurd hc (lt_irrefl _)
  have hhigh : memRead (m.filter (fun c => decide (i < c.1))) i = fZero := by
    apply memRead_of_no_entry
    intro c hc
    simp only [List.mem_filter, decide_eq_true_eq] at hc
    omega
  by_cases hv : v = fZero
  · simp [memWrite, hv, memRead_append, hlow, hhigh]
  · simp [memWrite, hv, memRead_append, hlow, memRead]

/-- A write leaves every other word alone. -/
theorem memRead_memWrite_ne (m : Memory) (v : F) {i j : Nat} (h : j ≠ i) :
    memRead (memWrite m i v) j = memRead m j := by
  have hmid : memRead (if v = fZero then ([] : Memory) else [(i, v)]) j = fZero := by
    by_cases hv : v = fZero <;> simp [hv, memRead, Ne.symm h]
  have hany : (if v = fZero then ([] : Memory) else [(i, v)]).any (fun c => c.1 == j) = false := by
    by_cases hv : v = fZero <;> simp [hv, Ne.symm h]
  rcases Nat.lt_or_gt_of_ne h with hlt | hgt
  · have hlow : memRead (m.filter (fun c => decide (c.1 < i))) j = memRead m j :=
      memRead_filter (fun w => by simpa using hlt) m
    have hhigh : memRead (m.filter (fun c => decide (i < c.1))) j = fZero := by
      apply memRead_of_no_entry
      intro c hc
      simp only [List.mem_filter, decide_eq_true_eq] at hc
      omega
    simp only [memWrite, List.append_assoc]
    rw [memRead_append, memRead_append, hlow, hany, hhigh]
    by_cases ha : (m.filter (fun c => decide (c.1 < i))).any (fun c => c.1 == j) = true
    · simp [ha]
    · have hz : memRead (m.filter (fun c => decide (c.1 < i))) j = fZero := by
        apply memRead_of_no_entry
        intro c hc hcj
        exact ha (List.any_eq_true.mpr ⟨c, hc, by simpa using hcj⟩)
      rw [if_neg ha, ← hlow, hz]
      simp
  · have hlow : (m.filter (fun c => decide (c.1 < i))).any (fun c => c.1 == j) = false := by
      simp only [List.any_eq_false, List.mem_filter, decide_eq_true_eq, beq_iff_eq]
      rintro c ⟨_, hc⟩ rfl
      omega
    have hhigh : memRead (m.filter (fun c => decide (i < c.1))) j = memRead m j :=
      memRead_filter (fun w => by simpa using hgt) m
    simp only [memWrite, List.append_assoc]
    rw [memRead_append, memRead_append, hlow, hany, hhigh]
    simp

theorem memRead_memWrite (m : Memory) (v : F) (i j : Nat) :
    memRead (memWrite m i v) j = if j = i then v else memRead m j := by
  by_cases h : j = i
  · subst h; simp
  · simp [h, memRead_memWrite_ne m v h]

/-! ### The canonical form is kept by every memory operation (log 1) -/

theorem wfFrom_mono {m : Memory} {a b : Nat} (hab : a ≤ b) (h : Memory.wfFrom b m = true) :
    Memory.wfFrom a m = true := by
  cases m with
  | nil => rfl
  | cons c rest =>
    obtain ⟨i, w⟩ := c
    simp only [Memory.wfFrom, Bool.and_eq_true, decide_eq_true_eq] at h ⊢
    exact ⟨⟨le_trans hab h.1.1, h.1.2⟩, h.2⟩

theorem wfFrom_le {m : Memory} {a : Nat} (h : Memory.wfFrom a m = true) : ∀ c ∈ m, a ≤ c.1 := by
  induction m generalizing a with
  | nil => simp
  | cons c rest ih =>
    obtain ⟨i, w⟩ := c
    simp only [Memory.wfFrom, Bool.and_eq_true, decide_eq_true_eq] at h
    intro c hc
    rcases List.mem_cons.mp hc with rfl | hc
    · exact h.1.1
    · exact le_trans (Nat.le_succ_of_le h.1.1) (ih h.2 c hc)

theorem wfFrom_filter {m : Memory} {a : Nat} (p : Nat × F → Bool) (h : Memory.wfFrom a m = true) :
    Memory.wfFrom a (m.filter p) = true := by
  induction m generalizing a with
  | nil => rfl
  | cons c rest ih =>
    obtain ⟨i, w⟩ := c
    simp only [Memory.wfFrom, Bool.and_eq_true, decide_eq_true_eq] at h
    by_cases hp : p (i, w) = true
    · simp only [List.filter_cons, hp, if_true, Memory.wfFrom, Bool.and_eq_true, decide_eq_true_eq]
      exact ⟨h.1, ih h.2⟩
    · simp only [List.filter_cons, hp]
      exact wfFrom_mono (Nat.le_succ_of_le h.1.1) (ih h.2)

theorem wfFrom_append {m k : Memory} {a b : Nat} (hm : Memory.wfFrom a m = true) (hlt : ∀ c ∈ m, c.1 < b)
    (hk : Memory.wfFrom b k = true) (hab : a ≤ b) : Memory.wfFrom a (m ++ k) = true := by
  induction m generalizing a with
  | nil => exact wfFrom_mono hab hk
  | cons c rest ih =>
    obtain ⟨i, w⟩ := c
    simp only [Memory.wfFrom, Bool.and_eq_true, decide_eq_true_eq, List.cons_append] at hm ⊢
    exact ⟨hm.1, ih hm.2 (fun c hc => hlt c (by simp [hc])) (hlt (i, w) (by simp))⟩

theorem wfFrom_raise {m : Memory} {a b : Nat} (h : Memory.wfFrom a m = true) (hb : ∀ c ∈ m, b ≤ c.1) :
    Memory.wfFrom b m = true := by
  cases m with
  | nil => rfl
  | cons c rest =>
    obtain ⟨i, w⟩ := c
    simp only [Memory.wfFrom, Bool.and_eq_true, decide_eq_true_eq] at h ⊢
    exact ⟨⟨hb (i, w) (by simp), h.1.2⟩, h.2⟩

@[simp] theorem wf_nil : Memory.wf [] = true := rfl

/-- A write keeps the canonical form. -/
theorem wf_memWrite {m : Memory} (h : Memory.wf m = true) (i : Nat) (v : F) :
    Memory.wf (memWrite m i v) = true := by
  have hlow := wfFrom_filter (fun c => decide (c.1 < i)) h
  have hhigh : Memory.wfFrom (i + 1) (m.filter (fun c => decide (i < c.1))) = true := by
    refine wfFrom_raise (wfFrom_filter _ h) ?_
    intro c hc
    simp only [List.mem_filter, decide_eq_true_eq] at hc
    exact hc.2
  have hmid : Memory.wfFrom i ((if v = fZero then [] else [(i, v)]) ++ m.filter (fun c => decide (i < c.1))) = true := by
    by_cases hv : v = fZero
    · simpa [hv] using wfFrom_mono (Nat.le_succ i) hhigh
    · simp [hv, Memory.wfFrom, hhigh]
  simp only [memWrite, List.append_assoc]
  refine wfFrom_append hlow ?_ hmid (Nat.zero_le i)
  intro c hc
  simp only [List.mem_filter, decide_eq_true_eq] at hc
  exact hc.2

/-- A write below `n` stores nothing at or above `n`. -/
theorem below_memWrite {m : Memory} {n i : Nat} (h : Memory.below n m = true) (hi : i < n) (v : F) :
    Memory.below n (memWrite m i v) = true := by
  simp only [Memory.below, List.all_eq_true, decide_eq_true_eq] at h ⊢
  intro c hc
  simp only [memWrite, List.mem_append, List.mem_filter] at hc
  rcases hc with (hc | hc) | hc
  · exact h c hc.1
  · by_cases hv : v = fZero
    · simp [hv] at hc
    · simp only [hv, if_false, List.mem_singleton] at hc
      subst hc; exact hi
  · exact h c hc.1

/-- A memory in canonical form holds no value twice over: reading every word alike means being the same list. -/
theorem memory_ext {m k : Memory} {a : Nat} (hm : Memory.wfFrom a m = true) (hk : Memory.wfFrom a k = true)
    (h : ∀ i, memRead m i = memRead k i) : m = k := by
  induction m generalizing a k with
  | nil =>
    cases k with
    | nil => rfl
    | cons c rest =>
      obtain ⟨i, w⟩ := c
      simp only [Memory.wfFrom, Bool.and_eq_true, bne_iff_ne] at hk
      have := h i
      simp only [memRead, if_true] at this
      exact absurd this.symm hk.1.2
  | cons c rest ih =>
    obtain ⟨i, w⟩ := c
    have hm' := hm
    simp only [Memory.wfFrom, Bool.and_eq_true, decide_eq_true_eq, bne_iff_ne] at hm
    have hi := h i
    simp only [memRead, if_true] at hi
    cases k with
    | nil => exact absurd hi hm.1.2
    | cons d rest' =>
      obtain ⟨j, u⟩ := d
      simp only [Memory.wfFrom, Bool.and_eq_true, decide_eq_true_eq, bne_iff_ne] at hk
      have hrest : ∀ c ∈ rest, i + 1 ≤ c.1 := wfFrom_le hm.2
      have hrest' : ∀ c ∈ rest', j + 1 ≤ c.1 := wfFrom_le hk.2
      have hij : i = j := by
        by_contra hne
        rcases Nat.lt_or_gt_of_ne hne with hlt | hgt
        · have : memRead ((j, u) :: rest') i = fZero := by
            apply memRead_of_no_entry
            intro c hc
            rcases List.mem_cons.mp hc with rfl | hc
            · exact Ne.symm hne
            · have := hrest' c hc; omega
          rw [this] at hi
          exact hm.1.2 hi
        · have hj := h j
          have hz : memRead ((i, w) :: rest) j = fZero := by
            apply memRead_of_no_entry
            intro c hc
            rcases List.mem_cons.mp hc with rfl | hc
            · exact hne
            · have := hrest c hc; omega
          rw [hz] at hj
          simp only [memRead, if_true] at hj
          exact hk.1.2 hj.symm
      subst hij
      simp only [memRead, if_true] at hi
      subst hi
      congr 1
      refine ih hm.2 hk.2 ?_
      intro x
      by_cases hx : x = i
      · subst hx
        rw [memRead_of_no_entry (fun c hc => by have := hrest c hc; omega),
          memRead_of_no_entry (fun c hc => by have := hrest' c hc; omega)]
      · have := h x
        simpa [memRead, Ne.symm hx] using this

/-! ### Loops -/

@[simp] theorem forIndex_zero {α : Type} (f : Nat → α → α) (a : α) : forIndex 0 f a = a := rfl

theorem forIndex_succ {α : Type} (n : Nat) (f : Nat → α → α) (a : α) :
    forIndex (n + 1) f a = f n (forIndex n f a) := rfl

/-- What holds before a loop and is kept by every round holds after it. -/
theorem forIndex_keeps {α : Type} {P : α → Prop} {n : Nat} {f : Nat → α → α} {a : α} (h0 : P a)
    (hs : ∀ i, i < n → ∀ x, P x → P (f i x)) : P (forIndex n f a) := by
  induction n with
  | zero => exact h0
  | succ n ih =>
    exact hs n (Nat.lt_succ_self n) _ (ih (fun i hi => hs i (Nat.lt_succ_of_lt hi)))

/-- A loop over words `0` to `n - 1` of a memory replaces exactly those words. -/
theorem memRead_writeWords (n : Nat) (f : Nat → F) (m : Memory) (j : Nat) :
    memRead (writeWords n f m) j = if j < n then f j else memRead m j := by
  induction n with
  | zero => simp [writeWords]
  | succ n ih =>
    simp only [writeWords, forIndex_succ] at ih ⊢
    rw [memRead_memWrite, ih]
    by_cases hj : j = n
    · subst hj; simp
    · by_cases hlt : j < n
      · simp [hj, hlt, Nat.lt_succ_of_lt hlt]
      · have : ¬ j < n + 1 := by omega
        simp [hj, hlt, this]

theorem wf_writeWords {m : Memory} (h : Memory.wf m = true) (n : Nat) (f : Nat → F) :
    Memory.wf (writeWords n f m) = true :=
  forIndex_keeps (P := fun m => Memory.wf m = true) h (fun i _ _ hx => wf_memWrite hx i (f i))

/-! ### The output port (47_host_commands R241) -/

/-- Moving frames into the queue neither loses nor reorders one. -/
theorem drain_frames (cfg : Engine) (s : State nv cw) : (drain cfg s).outQueue ++ (drain cfg s).emitting = s.outQueue ++ s.emitting := by
  simp [drain, List.append_assoc]

/-- The frames of a block come after every frame before them, in their order. -/
theorem emitFrames_frames (cfg : Engine) (fs : List Word64) (s : State nv cw) :
    (emitFrames cfg fs s).outQueue ++ (emitFrames cfg fs s).emitting = s.outQueue ++ s.emitting ++ fs := by
  simp [emitFrames, drain, List.append_assoc]

/-- The host takes the oldest frame of the queue, and no other. -/
theorem takeFrame_frames (cfg : Engine) (s : State nv cw) :
    (takeFrame cfg s).outQueue ++ (takeFrame cfg s).emitting = s.outQueue.drop 1 ++ s.emitting := by
  simp [takeFrame, drain, List.append_assoc]

/-! ### The pool -/

theorem mem_voiceOrder (v : Fin nv) : v ∈ voiceOrder nv := List.mem_finRange v

/-- The scan either finds every voice of its list Sounding and changes nothing, or starts the first Idle one. -/
theorem scanNoteon_cases (cfg : Engine) (p : Nat) (vel d b : F) (k : Wave) (c : F) (l : List (Fin nv))
    (s : State nv cw) :
    (scanNoteon cfg p vel d b k c l s = s ∧ ∀ v ∈ l, (s.voice v).active = true) ∨
      ∃ v before rest, l = before ++ v :: rest ∧ (∀ u ∈ before, (s.voice u).active = true) ∧
        (s.voice v).active = false ∧ scanNoteon cfg p vel d b k c l s = vStart cfg v p vel d b k c s := by
  induction l with
  | nil => exact .inl ⟨rfl, by simp⟩
  | cons v rest ih =>
    by_cases ha : (s.voice v).active = true
    · have hscan : scanNoteon cfg p vel d b k c (v :: rest) s = scanNoteon cfg p vel d b k c rest s := by
        simp [scanNoteon, vIsActive, ha]
      rw [hscan]
      rcases ih with ⟨h1, h2⟩ | ⟨u, before, after, rfl, h2, h3, h4⟩
      · exact .inl ⟨h1, by simpa [ha] using h2⟩
      · exact .inr ⟨u, v :: before, after, rfl, by simpa [ha] using h2, h3, h4⟩
    · refine .inr ⟨v, [], rest, rfl, by simp, by simpa using ha, ?_⟩
      simp [scanNoteon, vIsActive, ha]

/-- A state that a fold of `V.STOP` leaves differs at the voices of the list only, which are Idle. -/
theorem foldl_vStop_voice (l : List (Fin nv)) (s : State nv cw) (v : Fin nv) :
    (l.foldl (fun t u => vStop u t) s).voice v =
      if v ∈ l then { s.voice v with active := false } else s.voice v := by
  induction l generalizing s with
  | nil => simp
  | cons u rest ih =>
    rw [List.foldl_cons, ih]
    by_cases hvu : v = u
    · subst hvu; by_cases hm : v ∈ rest <;> simp [hm]
    · simp [hvu, vStop_voice_ne u s hvu]

/-! ### Fault entry, acceptance of a word, the outcome of a step -/

/-- The exciter answers and changes as one of its two branches says (42_exciter R141). -/
theorem excSample_cases (v : Fin nv) (s : State nv cw) :
    (fgt (s.voice v).exGain fZero = true ∧
        excSample v s =
          (fmul (waveValue (s.voice v).wave (s.voice v).phase s).1 (s.voice v).exGain,
            (waveValue (s.voice v).wave (s.voice v).phase s).2.setVoice v
              { s.voice v with exGain := clamp0 (fsub (s.voice v).exGain (gainStep (s.voice v).burst s.sr)) })) ∨
      (fgt (s.voice v).exGain fZero = false ∧ excSample v s = (fZero, s)) := by
  unfold excSample
  by_cases h : fgt (s.voice v).exGain fZero = true
  · exact .inl ⟨h, by rw [if_pos h]⟩
  · exact .inr ⟨by simpa using h, by rw [if_neg h]⟩

/-- A waveform value takes one draw for Noise and changes nothing otherwise (42_exciter R147). -/
theorem waveValue_state (k : Wave) (p : F) (s : State nv cw) :
    (waveValue k p s).2 = { s with noiseState := s.noiseState + (if k = .noise then 1 else 0) } := by
  cases k <;> simp [waveValue, draw]

/-- What a step can do, by the host's next action. -/
theorem step_cases {s t : State} (h : step s = .next t) :
    (s.hostIn = [] ∧ t = drain ksv s) ∨
      (∃ rest, s.hostIn = .reset :: rest ∧ t = hardReset { s with hostIn := rest }) ∨
      (∃ rest, s.hostIn = .take :: rest ∧ t = takeFrame ksv { s with hostIn := rest }) ∨
      (∃ w rest, s.hostIn = .word w :: rest ∧ s.emitting ≠ [] ∧ t = drain ksv s) ∨
      (∃ w rest, s.hostIn = .word w :: rest ∧ s.emitting = [] ∧
        acceptWord exec w { s with hostIn := rest } = .next t) := by
  unfold step sequence at h
  split at h
  · rename_i hin; exact .inl ⟨hin, by injection h with h; exact h.symm⟩
  · rename_i rest hin; exact .inr (.inl ⟨rest, hin, by injection h with h; exact h.symm⟩)
  · rename_i rest hin; exact .inr (.inr (.inl ⟨rest, hin, by injection h with h; exact h.symm⟩))
  · rename_i w rest hin
    split at h
    · rename_i he
      exact .inr (.inr (.inr (.inr ⟨w, rest, hin, by simpa using he, h⟩)))
    · rename_i he
      exact .inr (.inr (.inr (.inl ⟨w, rest, hin, by simpa using he, by injection h with h; exact h.symm⟩)))

/-- What accepting a word can do. -/
theorem acceptWord_cases {w : Word64} {s t : State} (h : acceptWord exec w s = .next t) :
    (s.fault = true ∧ t = s) ∨
      (s.fault = false ∧ (∃ why, decode w = .illegal why) ∧ t = raiseFault .illegalCmd s) ∨
      (s.fault = false ∧ ∃ i, decode w = .command i ∧ exec i s = .next t) := by
  unfold acceptWord at h
  split at h
  · rename_i hf; exact .inl ⟨hf, by injection h with h; exact h.symm⟩
  · rename_i hf
    split at h
    · rename_i why hd
      exact .inr (.inl ⟨by simpa using hf, ⟨why, hd⟩, by injection h with h; exact h.symm⟩)
    · rename_i i hd
      exact .inr (.inr ⟨by simpa using hf, i, hd, h⟩)

end Sys2Proof.Machine
end

