-- ==== Sys2Proof/Laws/Effects.lean ====
section
/-! SUPPORT. What a rendered sample and a rendered block can change: the frames of the shared operations from one
voice up to the state in which a block's output frames are formed. -/

namespace Sys2Proof.Machine

open Sys2Proof.Config

variable {nv cw : Nat}

/-- What the voices may change: register files and the noise counter (20_memory R62, 42_exciter R147). -/
def VoiceChange (s t : State nv cw) : Prop := t = { s with voices := t.voices, noiseState := t.noiseState }

theorem VoiceChange.refl (s : State nv cw) : VoiceChange s s := rfl

theorem VoiceChange.trans {s t u : State nv cw} (h : VoiceChange s t) (h' : VoiceChange t u) : VoiceChange s u := by
  unfold VoiceChange at *
  rw [h', h]

theorem voiceChange_setVoice (s : State nv cw) (v : Fin nv) (r : Voice cw) : VoiceChange s (s.setVoice v r) := rfl

theorem voiceChange_excSample (v : Fin nv) (s : State nv cw) : VoiceChange s (excSample v s).2 := by
  rcases excSample_cases v s with ⟨_, h⟩ | ⟨_, h⟩
  · rw [h, waveValue_state]
    rfl
  · rw [h]
    exact .refl s

/-- A `V.RENDER` changes register files and the noise counter only (44_voice R171). -/
theorem vRender_frame (cfg : Engine) (v : Fin nv) (s : State nv cw) : VoiceChange s (vRender cfg v s).2 := by
  unfold vRender
  split
  · have h1 := (voiceChange_setVoice s v _).trans (voiceChange_excSample v (seekReadCursor cfg v s))
    exact (((h1.trans (voiceChange_setVoice _ v _)).trans (voiceChange_setVoice _ v _)).trans
      (voiceChange_setVoice _ v _)).trans (voiceChange_setVoice _ v _)
  · exact .refl s

/-- The voices of a list, rendered and summed, change what a voice may change. -/
theorem foldl_sumStep_frame (cfg : Engine) (l : List (Fin nv)) (a : F × State nv cw) : VoiceChange a.2 (l.foldl (sumStep cfg) a).2 := by
  induction l generalizing a with
  | nil => exact .refl _
  | cons v rest ih => exact (vRender_frame cfg v a.2).trans (ih (sumStep cfg a v))

/-- A pool sum changes register files and the noise counter only (45_voice_pool R195). -/
theorem poolSum_frame (cfg : Engine) (s : State nv cw) : VoiceChange s (poolSum cfg s).2 := foldl_sumStep_frame cfg (voiceOrder nv) (fZero, s)

/-- What the dry pass may change: register files, the noise counter, the high-pass section, the tremolo phase and
`DRY` (46_global_effects R201). -/
def DryChange (s t : State nv cw) : Prop :=
  t = { s with voices := t.voices, noiseState := t.noiseState, hp := t.hp, tph := t.tph, dry := t.dry }

/-- A dry sample changes what the dry pass may change. -/
theorem drySample_frame (cfg : Engine) (rate depth : F) (i : Nat) (s : State nv cw) : DryChange s (drySample cfg rate depth i s) := by
  have h := poolSum_frame cfg s
  unfold VoiceChange at h
  unfold DryChange drySample
  generalize poolSum cfg s = p at h ⊢
  obtain ⟨x, u⟩ := p
  dsimp only at h ⊢
  rw [h]
  rfl

/-- The dry pass changes what it may change. -/
theorem dryPass_frame (cfg : Engine) (n : Nat) (rate depth : F) (s : State nv cw) : DryChange s (dryPass cfg n rate depth s) := by
  refine forIndex_keeps (P := DryChange s) rfl ?_
  intro i _ t ht
  have h := drySample_frame cfg rate depth i t
  unfold DryChange at *
  generalize drySample cfg rate depth i t = u at h ⊢
  rw [h, ht]

/-- The copy into the reverb's scratch memories changes those two memories only (46_global_effects R210). -/
theorem copyPass_frame (n : Nat) (s : State nv cw) :
    copyPass n s = { s with wetL := (copyPass n s).wetL, wetR := (copyPass n s).wetR } := by
  refine forIndex_keeps (P := fun t : State nv cw => t = { s with wetL := t.wetL, wetR := t.wetR }) rfl ?_
  intro i _ t ht
  rw [ht]

/-- The state in which a block's frames are formed differs from the state before the block in register files, the
noise counter, the effects state, the scratch memories and `RV_STATE` only: configuration, parameters, status registers
and ports are kept (46_global_effects R201). -/
theorem renderedBlock_frame (cfg : Engine) (n : Nat) (lowCut rate depth size : F) (s : State nv cw) :
    let t := renderedBlock cfg n lowCut rate depth size s
    t = { s with
      voices := t.voices, noiseState := t.noiseState, hp := t.hp, tph := t.tph, dry := t.dry, wetL := t.wetL
      wetR := t.wetR, rvState := t.rvState } := by
  have h1 := dryPass_frame cfg n rate depth (hpRetune cfg lowCut s)
  have h2 := copyPass_frame n (dryPass cfg n rate depth (hpRetune cfg lowCut s))
  unfold DryChange at h1
  unfold renderedBlock
  generalize dryPass cfg n rate depth (hpRetune cfg lowCut s) = d at h1 h2 ⊢
  generalize copyPass n d = c at h2 ⊢
  rw [h2, h1]
  rfl

/-- A block appends its frames to those emitted before it, in order (47_host_commands R241). -/
theorem fxBlock_frames (cfg : Engine) (n : Nat) (gain lowCut rate depth size mix : F) (s : State nv cw) :
    (fxBlock cfg n gain lowCut rate depth size mix s).outQueue ++ (fxBlock cfg n gain lowCut rate depth size mix s).emitting =
      s.outQueue ++ s.emitting ++ blockFrames n mix gain (renderedBlock cfg n lowCut rate depth size s) := by
  have h := renderedBlock_frame cfg n lowCut rate depth size s
  have hq := congrArg State.outQueue h
  have he := congrArg State.emitting h
  rw [fxBlock, emitFrames_frames, hq, he]

@[simp] theorem length_blockFrames (n : Nat) (mix gain : F) (s : State nv cw) : (blockFrames n mix gain s).length = n := by
  simp [blockFrames]

/-- A block keeps the status registers, the validity bits and the block size (46_global_effects R201). -/
theorem fxBlock_keeps (cfg : Engine) (n : Nat) (gain lowCut rate depth size mix : F) (s : State nv cw) :
    let t := fxBlock cfg n gain lowCut rate depth size mix s
    t.prepared = s.prepared ∧ t.blockSize = s.blockSize ∧ t.pvalid = s.pvalid := by
  have h := renderedBlock_frame cfg n lowCut rate depth size s
  have hp := congrArg State.prepared h
  have hb := congrArg State.blockSize h
  have hv := congrArg State.pvalid h
  exact ⟨hp, hb, hv⟩

/-- A RENDER whose checks pass answers the state of the block procedure, with the six parameters as they are
(47_host_commands R239), on every instance of the engine. -/
theorem renderOn_ready (cfg : Engine) {n : Nat} {s : State nv cw} (h : RenderReady n s) :
    renderOn cfg n s = .next (fxBlock cfg n s.params.gain s.params.lowcut s.params.tremrate s.params.tremdepth
      s.params.revsize s.params.revmix s) := by
  obtain ⟨hp, h1, hn, v0, v5, v6, v7, v8, v9⟩ := h
  simp only [renderOn, countAcceptable, blockParamsValid, validBit, hp, h1, hn, v0, v5, v6, v7, v8, v9,
    decide_true, Bool.and_self, Bool.not_true, Bool.false_eq_true, if_false]

/-- `renderOn_ready` on this hardware. -/
theorem render_ready {n : Nat} {s : State} (h : RenderReady n s) :
    exec (.render n) s = .next (fxBlock ksv n s.params.gain s.params.lowcut s.params.tremrate s.params.tremdepth
      s.params.revsize s.params.revmix s) :=
  renderOn_ready ksv h

end Sys2Proof.Machine
end

