-- ==== Sys2Proof/Laws/Numerics.lean ====
section
/-! SUPPORT. The small lemmas of the binary32 format and of its one rounding function: a value and its sign and
magnitude, the order of magnitudes, and that rounding leaves a representable value alone. -/

namespace Sys2Proof.Machine

open Sys2Proof.Config

/-! ### Sign and magnitude -/

theorem magBits_lt (x : F) : magBits x < 2 ^ 31 := Nat.mod_lt _ (by norm_num)

theorem toNat_makeF (neg : Bool) {mag : Nat} (h : mag < 2 ^ 31) :
    (makeF neg mag).toNat = if neg then 2 ^ 31 + mag else mag := by
  unfold makeF
  rw [BitVec.toNat_ofNat]
  apply Nat.mod_eq_of_lt
  split <;> omega

@[simp] theorem magBits_makeF (neg : Bool) {mag : Nat} (h : mag < 2 ^ 31) : magBits (makeF neg mag) = mag := by
  unfold magBits
  rw [toNat_makeF neg h]
  split <;> omega

theorem signBit_eq (x : F) : signBit x = decide (2 ^ 31 ≤ x.toNat) := by
  simp [signBit, BitVec.msb_eq_decide]

@[simp] theorem signBit_makeF (neg : Bool) {mag : Nat} (h : mag < 2 ^ 31) : signBit (makeF neg mag) = neg := by
  rw [signBit_eq, toNat_makeF neg h]
  cases neg
  · simp only [Bool.false_eq_true, if_false, decide_eq_false_iff_not]; omega
  · simp

/-- A value is its sign and its magnitude. -/
theorem makeF_eta (x : F) : makeF (signBit x) (magBits x) = x := by
  apply BitVec.eq_of_toNat_eq
  rw [toNat_makeF _ (magBits_lt x), signBit_eq]
  have hx : x.toNat < 2 ^ 32 := x.isLt
  unfold magBits
  by_cases h : 2 ^ 31 ≤ x.toNat
  · simp only [h, decide_true, if_true]; omega
  · simp only [h, decide_false, Bool.false_eq_true, if_false]; omega

theorem magBits_fneg (x : F) : magBits (fneg x) = magBits x := by
  unfold magBits fneg
  have h : ∀ y : BitVec 32, y.toNat % 2 ^ 31 = (y.extractLsb' 0 31).toNat := by
    intro y; simp [BitVec.extractLsb'_toNat]
  rw [h, h]
  congr 1
  ext i hi
  simp only [BitVec.getElem_extractLsb', BitVec.getLsbD_xor, Nat.zero_add]
  have : (0x80000000 : BitVec 32).getLsbD i = false := by
    interval_cases i <;> rfl
  rw [this]; simp

theorem signBit_fneg (x : F) : signBit (fneg x) = !signBit x := by
  simp only [signBit, fneg, BitVec.msb_xor]
  have : (0x80000000 : BitVec 32).msb = true := by decide
  rw [this]; simp

/-! ### NaNs -/

/-- A free NaN is a NaN (40_numerics R104). -/
@[simp] theorem isNaN_nanOf (op : NanOp) (a b : F) : isNaN (nanOf op a b) = true := by
  unfold nanOf
  split
  · assumption
  · rfl

/-! ### The order of magnitudes -/

theorem unitsOf_succ (m : Nat) : unitsOf m < unitsOf (m + 1) := by
  unfold unitsOf
  have hm : 2 ^ 23 * (m / 2 ^ 23) + m % 2 ^ 23 = m := Nat.div_add_mod m (2 ^ 23)
  have hlt : m % 2 ^ 23 < 2 ^ 23 := Nat.mod_lt _ (by norm_num)
  by_cases hf : m % 2 ^ 23 + 1 < 2 ^ 23
  · have h1 : (m + 1) / 2 ^ 23 = m / 2 ^ 23 := by omega
    have h2 : (m + 1) % 2 ^ 23 = m % 2 ^ 23 + 1 := by omega
    rw [h1, h2]
    split
    · omega
    · exact Nat.mul_lt_mul_of_pos_right (by omega) (by positivity)
  · have h1 : (m + 1) / 2 ^ 23 = m / 2 ^ 23 + 1 := by omega
    have h2 : (m + 1) % 2 ^ 23 = 0 := by omega
    rw [h1, h2]
    split
    · rename_i h0
      simp only [h0, Nat.zero_add, one_ne_zero, if_false, Nat.sub_self, pow_zero, Nat.mul_one, Nat.add_zero]
      exact hlt
    · rename_i h0
      obtain ⟨e, he⟩ : ∃ e, m / 2 ^ 23 = e + 1 := ⟨m / 2 ^ 23 - 1, by omega⟩
      simp only [he, Nat.add_sub_cancel, Nat.succ_ne_zero, if_false, Nat.add_zero]
      have : (2 ^ 23 + m % 2 ^ 23) * 2 ^ e < 2 ^ 24 * 2 ^ e :=
        Nat.mul_lt_mul_of_pos_right (by omega) (by positivity)
      calc (2 ^ 23 + m % 2 ^ 23) * 2 ^ e < 2 ^ 24 * 2 ^ e := this
        _ = 2 ^ 23 * 2 ^ (e + 1) := by rw [pow_succ]; ring

/-- Magnitudes are ordered as their patterns are. -/
theorem unitsOf_strictMono : StrictMono unitsOf := strictMono_nat_of_lt_succ unitsOf_succ

theorem unitsOf_lt_iff {a b : Nat} : unitsOf a < unitsOf b ↔ a < b := unitsOf_strictMono.lt_iff_lt

theorem unitsOf_le_iff {a b : Nat} : unitsOf a ≤ unitsOf b ↔ a ≤ b := unitsOf_strictMono.le_iff_le

@[simp] theorem unitsOf_zero : unitsOf 0 = 0 := rfl

theorem unitsOf_eq_zero {a : Nat} : unitsOf a = 0 ↔ a = 0 := by
  rw [← unitsOf_zero]; exact unitsOf_strictMono.injective.eq_iff

/-! ### Rounding -/

@[simp] theorem roundHalfEven_mul (r : Nat) {d : Nat} (hd : 0 < d) : roundHalfEven (r * d) d = r := by
  unfold roundHalfEven
  rw [Nat.mul_mod_left, Nat.mul_div_cancel _ hd]
  exact if_neg (by omega)

/-- Rounding to an integer moves by at most half a unit. -/
theorem roundHalfEven_near (n : Nat) {d : Nat} (hd : 0 < d) :
    2 * (roundHalfEven n d * d) ≤ 2 * n + d ∧ 2 * n ≤ 2 * (roundHalfEven n d * d) + d := by
  have hdm : d * (n / d) + n % d = n := Nat.div_add_mod n d
  have hlt : n % d < d := Nat.mod_lt _ hd
  have hc : n / d * d = d * (n / d) := Nat.mul_comm _ _
  unfold roundHalfEven
  split
  · rw [Nat.add_mul, Nat.one_mul, hc]; omega
  · rw [hc]; omega

/-- Rounding to an integer keeps order. -/
theorem roundHalfEven_mono {a b d : Nat} (hd : 0 < d) (h : a ≤ b) : roundHalfEven a d ≤ roundHalfEven b d := by
  have ha : d * (a / d) + a % d = a := Nat.div_add_mod a d
  have hb : d * (b / d) + b % d = b := Nat.div_add_mod b d
  have hla : a % d < d := Nat.mod_lt _ hd
  have hlb : b % d < d := Nat.mod_lt _ hd
  have hq : a / d ≤ b / d := Nat.div_le_div_right h
  rcases Nat.lt_or_ge (a / d) (b / d) with hlt | hge
  · have h1 : roundHalfEven a d ≤ a / d + 1 := by unfold roundHalfEven; split <;> omega
    have h2 : b / d ≤ roundHalfEven b d := by unfold roundHalfEven; split <;> omega
    omega
  · have he : a / d = b / d := by omega
    have hr : a % d ≤ b % d := by rw [he] at ha; omega
    unfold roundHalfEven
    rw [he]
    split <;> split <;> omega

/-- Rounding leaves a representable magnitude alone (the exactness behind 40_numerics R106, R109, R117). -/
theorem roundBits_exact (mag : Nat) {d : Nat} (hd : 0 < d) : roundBits (unitsOf mag * d) d = mag := by
  have hm : 2 ^ 23 * (mag / 2 ^ 23) + mag % 2 ^ 23 = mag := Nat.div_add_mod mag (2 ^ 23)
  have hlt : mag % 2 ^ 23 < 2 ^ 23 := Nat.mod_lt _ (by norm_num)
  unfold roundBits
  rw [Nat.mul_div_cancel _ hd]
  by_cases h0 : mag / 2 ^ 23 = 0
  · have hu : unitsOf mag = mag := by unfold unitsOf; rw [if_pos h0]; omega
    have hs : shiftOf mag = 0 := by
      unfold shiftOf
      by_cases hz : mag = 0
      · simp [hz]
      · have : Nat.log2 mag < 23 := (Nat.log2_lt hz).mpr (by omega)
        omega
    rw [hu, hs, Nat.zero_mul, Nat.zero_add, pow_zero, Nat.mul_one, roundHalfEven_mul mag hd]
  · obtain ⟨e, he⟩ : ∃ e, mag / 2 ^ 23 = e + 1 := ⟨mag / 2 ^ 23 - 1, by omega⟩
    have hu : unitsOf mag = (2 ^ 23 + mag % 2 ^ 23) * 2 ^ e := by
      unfold unitsOf; rw [if_neg h0, he, Nat.add_sub_cancel]
    have hl : Nat.log2 (unitsOf mag) = 23 + e := by
      have hne : unitsOf mag ≠ 0 := by rw [hu]; positivity
      rw [Nat.log2_eq_iff hne, hu]
      constructor
      · rw [pow_add]; exact Nat.mul_le_mul_right _ (by omega)
      · rw [show 23 + e + 1 = 24 + e by omega, pow_add]
        exact Nat.mul_lt_mul_of_pos_right (by omega) (by positivity)
    have hs : shiftOf (unitsOf mag) = e := by unfold shiftOf; omega
    have hr : roundHalfEven (unitsOf mag * d) (d * 2 ^ e) = 2 ^ 23 + mag % 2 ^ 23 := by
      have : unitsOf mag * d = (2 ^ 23 + mag % 2 ^ 23) * (d * 2 ^ e) := by rw [hu]; ring
      rw [this]
      exact roundHalfEven_mul _ (by positivity)
    rw [hs, hr]
    rw [he] at hm
    omega

theorem roundMag_exact {mag d : Nat} (hd : 0 < d) (h : mag < infBits) : roundMag (unitsOf mag * d) d = mag := by
  unfold roundMag
  rw [roundBits_exact mag hd, if_neg (Nat.not_le.mpr h)]

theorem roundMag_le (n d : Nat) : roundMag n d ≤ infBits := by
  unfold roundMag
  split
  · exact le_refl _
  · rename_i h; exact le_of_lt (Nat.not_le.mp h)

theorem infBits_lt : infBits < 2 ^ 31 := by norm_num [infBits]

theorem roundMag_lt (n d : Nat) : roundMag n d < 2 ^ 31 := lt_of_le_of_lt (roundMag_le n d) infBits_lt

end Sys2Proof.Machine
end

