-- ==== Sys2Proof/Laws/Instance.lean ====
section
/-! SUPPORT. This hardware as one instance of the engine: its configuration fields one by one, its buffer length, and
that `exec` and `step` are the instance's. -/

namespace Sys2Proof.Machine

open Sys2Proof.Config

@[simp] theorem ksv_maxLen : ksv.maxLen = 262144 := rfl
@[simp] theorem ksv_maxBlock : ksv.maxBlock = 8192 := rfl
@[simp] theorem ksv_bufSeconds : ksv.bufSeconds = fOne := rfl
@[simp] theorem ksv_pitchRom : ksv.pitchRom = pitchRom := rfl
@[simp] theorem ksv_velGain : ksv.velGain = velGain := rfl
@[simp] theorem ksv_delayQuant : ksv.delayQuant = truncToInt := rfl
@[simp] theorem ksv_coefLp : ksv.coefLp = coefLp := rfl
@[simp] theorem ksv_coefHp : ksv.coefHp = coefHp := rfl

/-- Multiplying a finite value by 1.0 leaves its pattern alone. -/
theorem fmul_fOne_of_isFinite {x : F} (h : isFinite x = true) : fmul x fOne = x := by
  have hx : magBits x < infBits := by simpa [isFinite] using h
  have h1 : magBits fOne = 0x3F800000 := by decide
  have hu : unitsOf (magBits fOne) = unit := by rw [h1]; decide +kernel
  have hs : signBit fOne = false := by decide
  have hnx : isNaN x = false := by simp only [isNaN, decide_eq_false_iff_not]; omega
  have hix : isInf x = false := by simp only [isInf, beq_eq_false_iff_ne]; omega
  have hn1 : isNaN fOne = false := by decide +kernel
  have hi1 : isInf fOne = false := by decide +kernel
  have hr : roundMag (unitsOf (magBits x) * unit) unit = magBits x :=
    roundMag_exact (by unfold unit; positivity) hx
  unfold fmul
  simp only [hnx, hn1, hix, hi1, hs, hu, hr, Bool.or_self, Bool.false_and, Bool.and_false, Bool.false_eq_true,
    if_false, Bool.bne_false]
  exact makeF_eta x

/-- On this hardware the buffer length is `roundHalfAway(sampleRate)` (47_host_commands R233). -/
theorem bufLength_ksv {sr : F} (h : isFinite sr = true) : bufLength ksv sr = roundHalfAway sr := by
  rw [bufLength, ksv_bufSeconds, fmul_fOne_of_isFinite h]

/-- The acceptance of a rate on this hardware, in the words of 47_host_commands R232. -/
theorem rateAcceptable_ksv (sr : F) :
    rateAcceptable ksv sr = true ↔ isFinite sr = true ∧ 1 ≤ roundHalfAway sr ∧ roundHalfAway sr ≤ (maxLen : Int) := by
  unfold rateAcceptable
  by_cases h : isFinite sr = true
  · rw [bufLength_ksv h]
    simp only [h, Bool.and_eq_true, decide_eq_true_eq, true_and]
    exact Iff.rfl
  · simp [h]

/-- `exec` runs a command on this hardware. -/
theorem execOn_ksv (i : Instr) : execOn (nv := numVoices) (cw := cursorWidth) ksv i = exec i := by
  cases i <;> rfl

/-- `step` is the step of this hardware. -/
theorem stepOn_ksv : stepOn (nv := numVoices) (cw := cursorWidth) ksv = step := by
  funext s
  have h : execOn ksv = exec := funext execOn_ksv
  rw [stepOn, step, h]

end Sys2Proof.Machine
end

