-- ==== Sys2Proof/Laws/PerInstr.lean ====
section
/-! SUPPORT. Facts about every command as syntax, one lemma per constructor: a well-formed command's word matches the
row of the opcode table that has its mnemonic (30_encoding R82 to R89, R93). -/

namespace Sys2Proof.Laws

/-- The masks of the opcode table work field by field. -/
theorem makeWord_and (op mo : BitVec 8) (a ma : BitVec 24) (b mb : BitVec 32) :
    makeWord op a b &&& makeWord mo ma mb = makeWord (op &&& mo) (a &&& ma) (b &&& mb) := by
  apply BitVec.eq_of_getLsbD_eq
  intro i _
  simp only [makeWord, BitVec.getLsbD_and, BitVec.getLsbD_append]
  split
  · rfl
  · split <;> rfl

/-- A word matches a row whose mask and pattern are given by fields when each field does. -/
theorem accepts_makeWord {name : String} {mask pattern : Word64} {op mo po : BitVec 8} {a ma pa : BitVec 24}
    {b mb pb : BitVec 32} (hmask : mask = makeWord mo ma mb) (hpattern : pattern = makeWord po pa pb)
    (ho : op &&& mo = po) (ha : a &&& ma = pa) (hb : b &&& mb = pb) :
    Row.accepts ⟨name, mask, pattern⟩ (makeWord op a b) = true := by
  subst hmask hpattern ho ha hb
  simp [Row.accepts, makeWord_and]

namespace EncodesToItsRow

/-- The word of a well-formed command matches the table's row of that mnemonic. -/
def Statement (i : Instr) : Prop :=
  i.wellFormed = true → ∃ r ∈ opcodeTable, r.mnemonic = i.mnemonic ∧ r.accepts (encode i) = true

theorem nop : Statement .nop := fun _ =>
  ⟨_, by simp only [opcodeTable]; exact .head _, rfl, by decide⟩

theorem prepare (blockSize : Nat) (sampleRate : F) : Statement (.prepare blockSize sampleRate) := fun _ =>
  ⟨⟨"PREPARE", 0xFF00000000000000, 0x0100000000000000⟩, by simp [opcodeTable], rfl,
    accepts_makeWord (mo := 0xFF) (ma := 0) (mb := 0) (po := 1) (pa := 0) (pb := 0) rfl rfl rfl (by simp) (by simp)⟩

theorem setpGain (value : F) : Statement (.setpGain value) := fun _ =>
  ⟨⟨"SETP.GAIN", 0xFFFFFFFF00000000, 0x0200000000000000⟩, by simp [opcodeTable], rfl,
    accepts_makeWord (mo := 0xFF) (ma := 0xFFFFFF) (mb := 0) (po := 2) (pa := 0) (pb := 0) rfl rfl rfl rfl (by simp)⟩

theorem setpWave (kind : Wave) : Statement (.setpWave kind) := fun _ =>
  ⟨⟨"SETP.WAVE", 0xFFFFFFFFFFFFFFFC, 0x0200000100000000⟩, by simp [opcodeTable], rfl, by cases kind <;> decide⟩

theorem setpDecay (value : F) : Statement (.setpDecay value) := fun _ =>
  ⟨⟨"SETP.DECAY", 0xFFFFFFFF00000000, 0x0200000200000000⟩, by simp [opcodeTable], rfl,
    accepts_makeWord (mo := 0xFF) (ma := 0xFFFFFF) (mb := 0) (po := 2) (pa := 2) (pb := 0) rfl rfl rfl rfl (by simp)⟩

theorem setpBurst (value : F) : Statement (.setpBurst value) := fun _ =>
  ⟨⟨"SETP.BURST", 0xFFFFFFFF00000000, 0x0200000300000000⟩, by simp [opcodeTable], rfl,
    accepts_makeWord (mo := 0xFF) (ma := 0xFFFFFF) (mb := 0) (po := 2) (pa := 3) (pb := 0) rfl rfl rfl rfl (by simp)⟩

theorem setpExcut (value : F) : Statement (.setpExcut value) := fun _ =>
  ⟨⟨"SETP.EXCUT", 0xFFFFFFFF00000000, 0x0200000400000000⟩, by simp [opcodeTable], rfl,
    accepts_makeWord (mo := 0xFF) (ma := 0xFFFFFF) (mb := 0) (po := 2) (pa := 4) (pb := 0) rfl rfl rfl rfl (by simp)⟩

theorem setpLowcut (value : F) : Statement (.setpLowcut value) := fun _ =>
  ⟨⟨"SETP.LOWCUT", 0xFFFFFFFF00000000, 0x0200000500000000⟩, by simp [opcodeTable], rfl,
    accepts_makeWord (mo := 0xFF) (ma := 0xFFFFFF) (mb := 0) (po := 2) (pa := 5) (pb := 0) rfl rfl rfl rfl (by simp)⟩

theorem setpTremrate (value : F) : Statement (.setpTremrate value) := fun _ =>
  ⟨⟨"SETP.TREMRATE", 0xFFFFFFFF00000000, 0x0200000600000000⟩, by simp [opcodeTable], rfl,
    accepts_makeWord (mo := 0xFF) (ma := 0xFFFFFF) (mb := 0) (po := 2) (pa := 6) (pb := 0) rfl rfl rfl rfl (by simp)⟩

theorem setpTremdepth (value : F) : Statement (.setpTremdepth value) := fun _ =>
  ⟨⟨"SETP.TREMDEPTH", 0xFFFFFFFF00000000, 0x0200000700000000⟩, by simp [opcodeTable], rfl,
    accepts_makeWord (mo := 0xFF) (ma := 0xFFFFFF) (mb := 0) (po := 2) (pa := 7) (pb := 0) rfl rfl rfl rfl (by simp)⟩

theorem setpRevsize (value : F) : Statement (.setpRevsize value) := fun _ =>
  ⟨⟨"SETP.REVSIZE", 0xFFFFFFFF00000000, 0x0200000800000000⟩, by simp [opcodeTable], rfl,
    accepts_makeWord (mo := 0xFF) (ma := 0xFFFFFF) (mb := 0) (po := 2) (pa := 8) (pb := 0) rfl rfl rfl rfl (by simp)⟩

theorem setpRevmix (value : F) : Statement (.setpRevmix value) := fun _ =>
  ⟨⟨"SETP.REVMIX", 0xFFFFFFFF00000000, 0x0200000900000000⟩, by simp [opcodeTable], rfl,
    accepts_makeWord (mo := 0xFF) (ma := 0xFFFFFF) (mb := 0) (po := 2) (pa := 9) (pb := 0) rfl rfl rfl rfl (by simp)⟩

theorem noteon (pitch : Nat) (velocity : F) : Statement (.noteon pitch velocity) := by
  intro h
  have hp : pitch < 128 := by simpa [Instr.wellFormed] using h
  have ha : BitVec.ofNat 24 pitch &&& 0xFFFF80 = 0 := by
    interval_cases pitch <;> rfl
  exact ⟨⟨"NOTEON", 0xFFFFFF8000000000, 0x0300000000000000⟩, by simp [opcodeTable], rfl,
    accepts_makeWord (mo := 0xFF) (ma := 0xFFFF80) (mb := 0) (po := 3) (pa := 0) (pb := 0) rfl rfl rfl ha (by simp)⟩

theorem noteoff : Statement .noteoff := fun _ =>
  ⟨⟨"NOTEOFF", 0xFFFFFFFFFFFFFFFF, 0x0400000000000000⟩, by simp [opcodeTable], rfl, by decide⟩

theorem render (n : Nat) : Statement (.render n) := fun _ =>
  ⟨⟨"RENDER", 0xFF000000FFFFFFFF, 0x0500000000000000⟩, by simp [opcodeTable], rfl,
    accepts_makeWord (mo := 0xFF) (ma := 0) (mb := 0xFFFFFFFF) (po := 5) (pa := 0) (pb := 0) rfl rfl rfl (by simp) rfl⟩

end EncodesToItsRow

end Sys2Proof.Laws
end

