-- ==== Sys2Proof/Tests/Slice0.lean ====
section
/-! SUPPORT. The model's own tests: words and values taken from spec/95_test_vectors.md or worked from the rules named,
and for each statement with hypotheses a state and operands that meet them together. -/

namespace Sys2Proof.Machine

open Sys2Proof.Config

-- One proof at a time: each kernel evaluation below would otherwise hold a thread of its own.
set_option Elab.async false

/-! ### WellFormed: an ill-formed command for each check, which it refuses -/

theorem test_wellFormed_refuses_a_25_bit_block_size : Instr.wellFormed (.prepare (2 ^ 24) 0x473B8000) = false := by
  decide

theorem test_wellFormed_refuses_pitch_128 : Instr.wellFormed (.noteon 128 0x3F800000) = false := by decide

theorem test_wellFormed_refuses_a_25_bit_count : Instr.wellFormed (.render (2 ^ 24)) = false := by decide

/-! ### Decode: one word for each constructor, its fields written out (30_encoding R83 to R89) -/

theorem test_decode_nop : decode (0x00#8 ++ 0x000000#24 ++ 0x00000000#32) = .command .nop := by decide

theorem test_decode_prepare :
    decode (0x01#8 ++ 0x000200#24 ++ 0x473B8000#32) = .command (.prepare 512 0x473B8000) := by decide

theorem test_decode_setpGain :
    decode (0x02#8 ++ 0x000000#24 ++ 0x3F000000#32) = .command (.setpGain 0x3F000000) := by decide

theorem test_decode_setpWave : decode (0x02#8 ++ 0x000001#24 ++ 0x00000002#32) = .command (.setpWave .square) := by
  decide

theorem test_decode_setpDecay :
    decode (0x02#8 ++ 0x000002#24 ++ 0x3F7851EC#32) = .command (.setpDecay 0x3F7851EC) := by decide

theorem test_decode_setpBurst :
    decode (0x02#8 ++ 0x000003#24 ++ 0x3BA3D70A#32) = .command (.setpBurst 0x3BA3D70A) := by decide

theorem test_decode_setpExcut :
    decode (0x02#8 ++ 0x000004#24 ++ 0x7F800000#32) = .command (.setpExcut 0x7F800000) := by decide

theorem test_decode_setpLowcut :
    decode (0x02#8 ++ 0x000005#24 ++ 0x41A00000#32) = .command (.setpLowcut 0x41A00000) := by decide

theorem test_decode_setpTremrate :
    decode (0x02#8 ++ 0x000006#24 ++ 0x41800000#32) = .command (.setpTremrate 0x41800000) := by decide

theorem test_decode_setpTremdepth :
    decode (0x02#8 ++ 0x000007#24 ++ 0x3F000000#32) = .command (.setpTremdepth 0x3F000000) := by decide

theorem test_decode_setpRevsize :
    decode (0x02#8 ++ 0x000008#24 ++ 0x3F000000#32) = .command (.setpRevsize 0x3F000000) := by decide

theorem test_decode_setpRevmix :
    decode (0x02#8 ++ 0x000009#24 ++ 0x3E800000#32) = .command (.setpRevmix 0x3E800000) := by decide

theorem test_decode_noteon :
    decode (0x03#8 ++ 0x000045#24 ++ 0x3F800000#32) = .command (.noteon 69 0x3F800000) := by decide

theorem test_decode_noteoff : decode (0x04#8 ++ 0x000000#24 ++ 0x00000000#32) = .command .noteoff := by decide

theorem test_decode_render : decode (0x05#8 ++ 0xFFFFFF#24 ++ 0x00000000#32) = .command (.render 16777215) := by
  decide

/-- 95_test_vectors 2.1, the illegal words. -/
theorem test_decode_refuses_by_name :
    decode 0x0600000000000000 = .illegal .reservedOpcode ∧ decode 0xFF00000000000000 = .illegal .reservedOpcode ∧
    decode 0x0000000000000001 = .illegal .operandBNotZero ∧ decode 0x0000000100000000 = .illegal .operandANotZero ∧
    decode 0x0200000A00000000 = .illegal .noSuchParameter ∧ decode 0x0200001000000000 = .illegal .noSuchParameter ∧
    decode 0x0200000100000004 = .illegal .noSuchWave ∧ decode 0x030000803F800000 = .illegal .noSuchPitch ∧
    decode 0x0400000000000001 = .illegal .operandBNotZero ∧ decode 0x0500000800000001 = .illegal .operandBNotZero := by
  decide

theorem test_encode_noteon : encode (.noteon 69 0x3F800000) = 0x030000453F800000 := by decide

theorem test_encode_setpWave : encode (.setpWave .square) = 0x0200000100000002 := by decide

/-- 95_test_vectors 2.1, the byte column of `SETP.DECAY 0.97`. -/
theorem test_bytes_are_little_endian :
    wordBytes 0x020000023F7851EC = [0xEC, 0x51, 0x78, 0x3F, 0x02, 0x00, 0x00, 0x02] ∧
      wordOfBytes [0xEC, 0x51, 0x78, 0x3F, 0x02, 0x00, 0x00, 0x02] = some 0x020000023F7851EC := by decide

/-! ### Numerics (95_test_vectors 2.2) -/

theorem test_fadd_rounds_ties_to_even :
    fadd 0x3F800000 0x33800000 = 0x3F800000 ∧ fadd 0x3F800000 0x33800001 = 0x3F800001 ∧
      fadd 0x3F800000 0x34000000 = 0x3F800001 := by decide +kernel

theorem test_signs_of_zero_sums :
    fsub 0x3F800000 0x3F800000 = 0 ∧ fadd 0x80000000 0 = 0 ∧ fadd 0x80000000 0x80000000 = 0x80000000 := by
  decide +kernel

theorem test_fmul_corners :
    fmul 0x3DCCCCCD 0x41200000 = 0x3F800000 ∧ fmul 0x7F7FFFFF 0x40000000 = 0x7F800000 ∧
      fmul 0x00800000 0x3F000000 = 0x00400000 ∧ fmul 0x00000003 0x3F000000 = 2 ∧ fmul 1 0x3F000000 = 0 ∧
      fmul 0xBF800000 0 = 0x80000000 := by decide +kernel

theorem test_fdiv_corners : fdiv 0x3F800000 0x40400000 = 0x3EAAAAAB ∧ fdiv 0x3F800000 0 = 0x7F800000 := by
  decide +kernel

theorem test_comparison_corners :
    fgt 0x80000000 0 = false ∧ fge 0x80000000 0 = true ∧ fgt 0x7FC00000 0 = false ∧ fge 0x7FC00000 0 = false := by
  decide +kernel

theorem test_floor_and_wrap :
    ffloor 0xBE800000 = 0xBF800000 ∧ wrap1 0x3FA00000 = 0x3E800000 ∧ wrap1 0x3F8147AE = 0x3C23D700 ∧
      wrap1 0xBE800000 = 0x3F400000 ∧ wrap1 0xB089705F = 0x3F800000 := by decide +kernel

theorem test_integer_conversions :
    truncToInt 0x42DA2E8B = 109 ∧ truncToInt 0x3F7A7ED1 = 0 ∧ roundHalfAway 0x46AC4500 = 22051 ∧
      roundHalfAway 0x3F000000 = 1 ∧ roundHalfAway 0x3ECCCCCD = 0 ∧ emod (-109) 48000 = 47891 ∧ emod 0 1 = 0 := by
  decide +kernel

theorem test_fmod2 : fmod2 0x3FC00000 = 0x3FC00000 ∧ fmod2 0x40200000 = 0x3F000000 ∧ fmod2 0xC0200000 = 0xBF000000 := by
  decide +kernel

/-! ### Small states -/

/-- An engine as after `PREPARE 64.0, 8` and a SNAPSHOT (95_test_vectors Program P1), with every voice as given. -/
def small (r : Voice) : State :=
  { State.reset with
    sr := 0x42800000, len := 64, blockSize := 8, prepared := true, pvalid := 0x3FF
    params :=
      { gain := 0x3F000000, wave := .sawtooth, decay := 0x3F000000, burst := 0x3D800000, excut := 0x7F800000
        lowcut := 0, tremrate := 0, tremdepth := 0, revsize := 0, revmix := 0 }
    voices := Vector.replicate 16 r }

/-- A voice as after `NOTEON 12, 0.5` in that engine (95_test_vectors 2.6, V1). -/
def plucked : Voice :=
  { Voice.zero with
    active := true, freqHz := 0x4182D013, delayTime := 0x3D7A7ED1, decay := 0x3F000000, burst := 0x3D800000
    wave := .sawtooth, exGain := 0x3F800000, noteGain := 0x3F000000, lp := ⟨0x3F800000, 0, 0x80000000, 0, 0⟩ }

/-- An engine with the word `w` at its command port. -/
def offered (w : Word64) (s : State) : State := { s with hostIn := [.word w] }

/-- What a test reads of an answer, with a default where there is no next state. -/
def answerOf {α : Type} (d : α) (f : State → α) : Answer → α
  | .next t => f t
  | _ => d

theorem small_voice (r : Voice) (v : Fin numVoices) : (small r).voice v = r := by simp [small, State.voice]

/-- The result of one `V.RENDER(0)` and the voice it leaves. -/
def callOf {α : Type} (r : Voice) (f : F → Voice → α) : α :=
  f (vRender ksv 0 (small r)).1 ((vRender ksv 0 (small r)).2.voice 0)

/-- A NOTEON with its parameters written is ready. -/
theorem small_noteonReady (r : Voice) : NoteonReady (small r) := by
  refine ⟨rfl, ?_, ?_, ?_, ?_⟩ <;> simp [small]

/-- A RENDER of 1 to 8 frames is ready. -/
theorem small_renderReady (r : Voice) {n : Nat} (h1 : 1 ≤ n) (h8 : n ≤ 8) : RenderReady n (small r) := by
  refine ⟨rfl, h1, h8, ?_, ?_, ?_, ?_, ?_, ?_⟩ <;> simp [small]

/-- A RENDER of 1 to 8 frames answers the block procedure's state. -/
theorem small_render (r : Voice) {n : Nat} (h1 : 1 ≤ n) (h8 : n ≤ 8) :
    exec (.render n) (small r) = .next (fxBlock ksv n 0x3F000000 0 0 0 0 0 (small r)) :=
  render_ready (small_renderReady r h1 h8)

/-! ### One step on small states -/

/-- 95_test_vectors 2.9: `SETP.GAIN 1.0` writes `P[0]` and PVALID bit 0, before PREPARE. -/
theorem test_setp_gain :
    answerOf none some (step (State.reset.withFetchWord 64 0x020000003F800000)) =
      some { State.reset with params := { Params.zero with gain := 0x3F800000 }, pvalid := 1 } := by decide +kernel

theorem test_setp_wave :
    answerOf none some (step (State.reset.withFetchWord 64 0x0200000100000003)) =
      some { State.reset with params := { Params.zero with wave := .noise }, pvalid := 2 } := by decide +kernel

theorem test_setp_revmix :
    answerOf none some (step (State.reset.withFetchWord 64 0x020000093E800000)) =
      some { State.reset with params := { Params.zero with revmix := 0x3E800000 }, pvalid := 0x200 } := by
  decide +kernel

/-- 47_host_commands R233: `PREPARE 22050.5, 8` gives `LEN = 22051`. -/
theorem test_prepare_length :
    answerOf (false, 0, 0) (fun t => (t.prepared, t.len, t.blockSize))
      (step (State.reset.withFetchWord 64 0x0100000846AC4500)) = (true, 22051, 8) := by decide +kernel

/-- 95_test_vectors 2.9: `PREPARE 262144.5, 512` is `BAD_PREPARE`. -/
theorem test_prepare_refuses_a_rate :
    answerOf none some (step (State.reset.withFetchWord 64 0x0100020048800010)) =
      some { State.reset with fault := true, cause := 3 } := by decide +kernel

/-- 95_test_vectors 2.9: `RENDER 0` after reset is `NOT_PREPARED`. -/
theorem test_render_before_prepare :
    answerOf none some (step (State.reset.withFetchWord 64 0x0500000000000000)) =
      some { State.reset with fault := true, cause := 2 } := by decide +kernel

/-- 95_test_vectors 2.9: a RENDER longer than the block size is `BAD_BLOCK`. -/
theorem test_render_too_long :
    answerOf (false, 0) (fun t => (t.fault, t.cause)) (exec (.render 9) (small .zero)) = (true, 4) := by decide +kernel

/-- 95_test_vectors 2.6, V1: what `NOTEON 12, 0.5` writes. -/
theorem test_noteon_starts_voice_0 :
    answerOf (false, 0, 0, 0, 0)
      (fun t => ((t.voice 0).active, (t.voice 0).freqHz, (t.voice 0).delayTime, (t.voice 0).lp.b0, (t.voice 0).lp.a1))
      (exec (.noteon 12 0x3F000000) (small .zero)) =
    (true, 0x4182D013, 0x3D7A7ED1, 0x3F800000, 0x80000000) := by decide +kernel

/-- 45_voice_pool R190, R192 on another instance of the engine, with two voices and 8-bit cursors: a first NOTEON starts
voice 0, a second one voice 1, and a third one is dropped. -/
theorem test_two_voices :
    let on := fun (s : State 2 8) => poolNoteon ksv 12 0x3F000000 0x3F000000 0x3D800000 .sawtooth 0x7F800000 s
    let s0 : State 2 8 :=
      { sr := 0x42800000, len := 64, blockSize := 8, params := .zero, pvalid := 0, voices := Vector.replicate 2 .zero,
        hp := .zero, tph := 0, dry := [], wetL := [], wetR := [], prepared := true, fault := false, cause := 0,
        noiseState := 0, rvState := ⟨0⟩, outQueue := [], emitting := [], hostIn := [] }
    activeO (on s0) = 1 ∧ activeO (on (on s0)) = 3 ∧ activeO (on (on (on s0))) = 3 := by decide +kernel

/-- 95_test_vectors 2.7: with voices 0 and 2 Sounding a NOTEON starts voice 1. -/
theorem test_noteon_scan_order :
    answerOf 0 activeO
      (exec (.noteon 12 0x3F000000) (((small .zero).setVoice 0 plucked).setVoice 2 plucked)) = 0x0007 := by decide +kernel

theorem test_noteoff_stops_all : answerOf 1 activeO (exec .noteoff (small plucked)) = 0 := by decide +kernel

/-- 95_test_vectors 2.6, V1: `V.RENDER` call 0. -/
theorem test_voice_call_0 :
    callOf plucked (fun out r => (out, r.wc, r.rc, r.phase, r.exGain, memRead r.buf 0)) =
      (0, 1, 62, 0x3E82D013, 0x3F400000, 0xBF800000) := by decide +kernel

/-- 95_test_vectors 2.6, V1: `V.RENDER` call 3, where the phase wraps and the sample of call 0 comes out. -/
theorem test_voice_call_3 :
    callOf { plucked with
        wc := 3, rc := 0, phase := 0x3F44381C, exGain := 0x3E800000
        buf := [(0, 0xBF800000), (1, 0xBEBBC7E4), (2, 0x3C3404C0)] }
      (fun out r => (out, r.wc, r.rc, r.phase, r.exGain, memRead r.buf 3)) =
      (0xBF000000, 4, 1, 0x3CB404C0, 0, 0xBEBBC7E4) := by decide +kernel

/-- 95_test_vectors 2.5: the hand-worked first-order section, third and fourth step. -/
theorem test_iir1_step :
    iir1Step ⟨0x3F000000, 0x3E800000, 0xBF000000, 0, 0x3F000000⟩ 0xC0000000 =
      (0xBF400000, ⟨0x3F000000, 0x3E800000, 0xBF000000, 0xC0000000, 0xBF400000⟩) ∧
    (iir1Step ⟨0x3F000000, 0x3E800000, 0xBF000000, 0xC0000000, 0xBF400000⟩ 0).1 = 0xBF600000 := by decide +kernel

/-- 43_feedback_filter R156 by its pseudocode and 40_numerics R101: a section at rest answers `+0` to `+0` with `b0 > 0`,
and `-0` with `b0 < 0`, `b1 < 0`, `a1 > 0` (log 18). -/
theorem test_section_at_rest :
    iir1Out ⟨0x3F000000, 0, 0xBF000000, 0, 0⟩ 0 = 0 ∧
      iir1Out ⟨0xBF800000, 0xBF800000, 0x3F800000, 0, 0⟩ 0 = 0x80000000 := by decide +kernel

/-- 95_test_vectors 2.8: the high-pass coefficients for a cutoff of `+0`, the tremolo factor at phase 0, and
`MIX.FRAME(0.5, 0.25, 0.25, 0.5)`. -/
theorem test_effects :
    coefHp 0x42800000 0 = (0x3F800000, 0xBF800000, 0xBF800000) ∧ tremFactor 0x3F000000 0 = 0x3F400000 ∧
      mixFrame 0x3F000000 0x3E800000 0x3E800000 0x3F000000 = 0x3E600000 := by decide +kernel

/-- 95_test_vectors 2.4: the sawtooth at phases 0, 0.25 and `0x3E82D013`. -/
theorem test_sawtooth :
    waveSawtooth 0 = 0xBF800000 ∧ waveSawtooth 0x3E800000 = 0xBF000000 ∧ waveSawtooth 0x3E82D013 = 0xBEFA5FDA := by
  decide +kernel

/-- 70_reset_and_hazards R280 on a fault state with frames queued. -/
theorem test_hardware_reset :
    answerOf (true, 1, 1, 1, [0], 0)
      (fun t => (t.fault, t.cause, t.pvalid, t.noiseState, t.outQueue, t.len))
      (step { small .zero with fault := true, cause := 4, noiseState := 7, outQueue := [5], hostIn := [.reset] }) =
    (false, 0, 0, 0, [], 64) := by decide +kernel

/-- The host takes the oldest frame. -/
theorem test_take_the_oldest_frame :
    answerOf [] (fun t => t.outQueue) (step { small .zero with outQueue := [5, 6], hostIn := [.take] }) = [6] := by
  simp [step, sequence, takeFrame, drain, small, State.reset, answerOf]

/-- `RENDER 2` runs and emits two frames. -/
theorem test_render_emits_its_count :
    ∃ t, exec (.render 2) (small plucked) = .next t ∧ (t.outQueue ++ t.emitting).length = 2 := by
  refine ⟨_, small_render plucked (by decide) (by decide), ?_⟩
  rw [fxBlock_frames, List.length_append, length_blockFrames]
  rfl

/-! ### Witnesses: for each statement with hypotheses, a state and operands that meet all of them -/

/-- `DecodeInvertsEncode`, at the largest operands. -/
theorem witness_wellFormed_commands :
    Instr.wellFormed (.prepare 16777215 0xFFFFFFFF) = true ∧ Instr.wellFormed (.noteon 127 0xFFC00000) = true ∧
      Instr.wellFormed (.render 16777215) = true := by decide

/-- `EncodeInvertsDecode` and `TableRowsAgreeWithDecoder`. -/
theorem witness_a_word_decodes : decode 0x0300007FFFC00000 = .command (.noteon 127 0xFFC00000) := by decide

/-- `StepRunsTheDecodedCommand`. -/
theorem witness_a_command_at_the_port :
    (offered 0x0500000800000000 (small plucked)).hostIn = .word 0x0500000800000000 :: [] ∧
      (offered 0x0500000800000000 (small plucked)).emitting = [] ∧
      (offered 0x0500000800000000 (small plucked)).fault = false ∧
      decode 0x0500000800000000 = .command (.render 8) := by decide +kernel

/-- `IllegalWordRaisesIllegalCmd`. -/
theorem witness_an_illegal_word_at_the_port :
    (offered 0x0600000000000000 State.reset).hostIn = .word 0x0600000000000000 :: [] ∧
      (offered 0x0600000000000000 State.reset).emitting = [] ∧
      (offered 0x0600000000000000 State.reset).fault = false ∧
      decode 0x0600000000000000 = .illegal .reservedOpcode := by decide +kernel

/-- An engine in the fault state with a word at its port. -/
def faulted : State := offered 0x0500000800000000 { small plucked with fault := true, cause := 4 }

/-- `FaultStateDiscardsEveryWord`, `OnlyHardwareResetLeavesTheFaultState` and
`FramesStayInOrderAndOnlyCommandsChangeTheEngine`. -/
theorem witness_a_word_in_the_fault_state :
    PortOrdered faulted ∧ faulted.fault = true ∧ faulted.hostIn = .word 0x0500000800000000 :: [] ∧
      step faulted = .next { faulted with hostIn := [] } ∧ ∀ rest, faulted.hostIn ≠ .reset :: rest := by
  refine ⟨⟨Nat.zero_le _, fun h => absurd rfl h, fun _ => rfl⟩, rfl, rfl, rfl, fun _ => ?_⟩
  simp [faulted, offered]

/-- `HardwareResetClearsControlState`. -/
theorem witness_a_reset_pulse : ({ faulted with hostIn := [.reset] } : State).hostIn = .reset :: [] := rfl

/-- `FramesStayInOrderAndOnlyCommandsChangeTheEngine`, the clause of a taken frame. -/
theorem witness_a_taken_frame :
    step { small plucked with outQueue := [5, 6], hostIn := [.take] } =
      .next (takeFrame ksv { small plucked with outQueue := [5, 6], hostIn := [] }) := rfl

/-- `FramesStayInOrderAndOnlyCommandsChangeTheEngine`, the clauses of an idle engine, of a word that waits, and of a full
queue. -/
theorem witness_idle_and_waiting :
    let idle := small plucked
    let waiting := offered 0x0500000800000000 { small plucked with emitting := [9] }
    let full : State := { small plucked with outQueue := List.replicate (queueCapacity ksv) 5 }
    (idle.hostIn = [] ∧ idle.emitting = [] ∧ step idle = .next (drain ksv idle)) ∧
      (waiting.hostIn = .word 0x0500000800000000 :: [] ∧ waiting.emitting ≠ [] ∧
        step waiting = .next (drain ksv waiting)) ∧
      queueCapacity ksv ≤ full.outQueue.length :=
  ⟨⟨rfl, rfl, rfl⟩, ⟨rfl, List.cons_ne_nil _ _, rfl⟩, by simp⟩

/-- `PrepareRebuildsTheEngineOrFaults` and `AcceptableRatesAreAnInterval`, both clauses at the ends of their ranges. -/
theorem witness_prepare_clauses :
    prepareAcceptable ksv 1 0x3F000000 = true ∧ prepareAcceptable ksv 8192 0x48800000 = true ∧
      prepareAcceptable ksv 0 0x3F000000 = false ∧ prepareAcceptable ksv 8193 0x48800000 = false ∧
      prepareAcceptable ksv 1 0x3EFFFFFF = false ∧ prepareAcceptable ksv 1 0x48800010 = false ∧
      isFinite 0x3F000000 = true ∧ (1 : Int) ≤ roundHalfAway 0x3F000000 ∧ roundHalfAway 0x48800000 ≤ 262144 := by
  decide +kernel

/-- `NoteonStartsTheFirstIdleVoice`, with the lowest and the highest voice the first Idle one. -/
theorem witness_first_idle_voice :
    (NoteonReady (small .zero) ∧ (∀ u : Fin 16, u < 0 → ((small .zero).voice u).active = true) ∧
      ((small .zero).voice 0).active = false) ∧
    (NoteonReady ((small plucked).setVoice 15 .zero) ∧
      (∀ u : Fin 16, u < 15 → (((small plucked).setVoice 15 .zero).voice u).active = true) ∧
      (((small plucked).setVoice 15 .zero).voice 15).active = false) := by
  refine ⟨⟨small_noteonReady _, fun u hu => absurd hu (by omega), by decide +kernel⟩,
    small_noteonReady plucked, by decide +kernel, by decide +kernel⟩

/-- `NoteonOnAFullPoolChangesNothing`. -/
theorem witness_full_pool :
    NoteonReady (small plucked) ∧ ∀ v : Fin 16, ((small plucked).voice v).active = true :=
  ⟨small_noteonReady _, by decide +kernel⟩

/-- An engine in which one parameter has not been written. -/
def unset (k : Nat) : State := { small plucked with pvalid := 0x3FF &&& ~~~(BitVec.twoPow 10 k) }

/-- `NoteonFaultsInOrder`, both clauses. -/
theorem witness_noteon_faults :
    State.reset.prepared = false ∧ (unset 4).prepared = true ∧ ¬ NoteonReady (unset 4) := by
  refine ⟨rfl, rfl, fun h => absurd h.2.2.2.2 (by decide +kernel)⟩

/-- `NoteoffStopsEveryVoice`, both clauses. -/
theorem witness_noteoff_clauses : (small plucked).prepared = true ∧ State.reset.prepared = false := ⟨rfl, rfl⟩

/-- `RenderFaultsInOrder`: before PREPARE; a count below and one above the range; a parameter never written, at both
ends of the range. -/
theorem witness_render_faults :
    State.reset.prepared = false ∧ (small plucked).prepared = true ∧ ((0 : Nat) = 0 ∨ (small plucked).blockSize.toNat < 0) ∧
      ((9 : Nat) = 0 ∨ (small plucked).blockSize.toNat < 9) ∧ (unset 9).prepared = true ∧
      (1 : Nat) ≤ (unset 9).blockSize.toNat ∧ 8 ≤ (unset 9).blockSize.toNat ∧ ¬ RenderReady 1 (unset 9) ∧
      ¬ RenderReady 8 (unset 9) := by
  refine ⟨rfl, rfl, .inl rfl, .inr (by decide +kernel), rfl, by decide +kernel, by decide +kernel, fun h => ?_, fun h => ?_⟩ <;>
    exact absurd h.2.2.2.2.2.2.2.2 (by decide +kernel)

/-- `RenderCompletesAndKeepsTheRest` and `RenderEmitsTheMixedFrames`, at both ends of the range, with a Sounding and
an Idle voice. -/
theorem witness_render_ready :
    RenderReady 1 (small plucked) ∧ RenderReady 8 (small plucked) ∧ ((small plucked).voice 0).active = true ∧
      ((small .zero).voice 0).active = false :=
  ⟨small_renderReady _ (by decide) (by decide), small_renderReady _ (by decide) (by decide), by decide +kernel,
    by decide +kernel⟩

/-- `RegistersHaveTheirNamedWriters`. -/
theorem witness_a_command_answers :
    exec .nop (small plucked) = .next (small plucked) ∧
      exec (.render 1) (small plucked) = .next (fxBlock ksv 1 0x3F000000 0 0 0 0 0 (small plucked)) :=
  ⟨rfl, small_render plucked (by decide) (by decide)⟩

/-- `AFaultingCommandChangesOnlyFaultAndCause`. -/
theorem witness_a_faulting_command :
    State.reset.fault = false ∧ exec .noteoff State.reset = .next (raiseFault .notPrepared State.reset) ∧
      (raiseFault .notPrepared State.reset).fault = true := ⟨rfl, rfl, rfl⟩

/-- `AnIdleVoiceRendersZeroWithoutEffect` and the idle clause of `PoolSumAddsEveryVoiceInOrder`. -/
theorem witness_idle_voices : ∀ v : Fin 16, ((small .zero).voice v).active = false := by decide +kernel

/-- `ASoundingVoiceRendersAsSpecified` and `CursorsKeepTheirDistance`, the latter also with the shortest buffer. -/
theorem witness_a_sounding_voice :
    ((small plucked).voice 3).active = true ∧ 1 ≤ (small plucked).len.toNat ∧
      1 ≤ ({ small plucked with len := 1 } : State).len.toNat := by decide +kernel

/-- `WaveformsAreThoseOfTheirKinds`, at the ends of `[0, 1)`. -/
theorem witness_phases : inUnit 0x00000000 = true ∧ inUnit 0x80000000 = true ∧ inUnit 0x3F7FFFFF = true := by
  decide +kernel

/-- `VoicesDoNotInterfere`: two engines that agree on voice 0 only. -/
theorem witness_two_engines :
    let s := small plucked
    let s' := (small .zero).setVoice 0 plucked
    RenderReady 8 s ∧ RenderReady 8 s' ∧ s.sr = s'.sr ∧ s.len = s'.len ∧ s.voice 0 = s'.voice 0 ∧
      (s.voice 0).wave ≠ .noise ∧ exec (.render 8) s = .next (fxBlock ksv 8 0x3F000000 0 0 0 0 0 s) ∧
      ∃ t', exec (.render 8) s' = .next t' := by
  refine ⟨small_renderReady _ (by decide) (by decide), small_renderReady .zero (by decide) (by decide), rfl, rfl,
    by decide +kernel, by decide +kernel, small_render plucked (by decide) (by decide), ?_⟩
  exact ⟨_, render_ready (small_renderReady .zero (by decide) (by decide))⟩

/-- A voice of the noise kind whose burst is over. -/
def spent : Voice := { plucked with wave := .noise, exGain := 0x80000000 }

/-- `VoicesDoNotInterfere`, with a voice of the noise kind that draws nothing, in engines of different noise states. -/
theorem witness_a_spent_noise_voice :
    let s := small spent
    let s' := { (small plucked).setVoice 15 spent with noiseState := 7 }
    RenderReady 1 s ∧ RenderReady 1 s' ∧ s.sr = s'.sr ∧ s.len = s'.len ∧ s.voice 15 = s'.voice 15 ∧
      (s.voice 15).wave = .noise ∧ fgt (s.voice 15).exGain fZero = false ∧
      (∃ t, exec (.render 1) s = .next t) ∧ ∃ t', exec (.render 1) s' = .next t' := by
  have h : RenderReady 1 { (small plucked).setVoice 15 spent with noiseState := 7 } :=
    small_renderReady plucked (by decide) (by decide)
  exact ⟨small_renderReady _ (by decide) (by decide), h, rfl, rfl, by decide +kernel, by decide +kernel,
    by decide +kernel, ⟨_, render_ready (small_renderReady spent (by decide) (by decide))⟩, _, render_ready h⟩

/-- `DelayStaysBelowTheBufferLength`, at the ends of both ranges. -/
theorem witness_rates_and_pitches :
    rateAcceptable ksv 0x3F000000 = true ∧ rateAcceptable ksv 0x4880000F = true ∧ 0 < 128 ∧ 127 < 128 := by decide +kernel

/-- `DelayLineRealisesTheDelay`: delays of 0, 1, `LEN` and `LEN + 1` samples. -/
theorem witness_delays :
    (small plucked).len.toNat = 64 ∧ ((small plucked).voice 0).active = true ∧ ((small plucked).voice 0).wc = 0 ∧
      delaySamples ksv 0 (small { plucked with delayTime := 0 }) = (0 : Nat) ∧
      delaySamples ksv 0 (small { plucked with delayTime := 0x3C800000 }) = (1 : Nat) ∧
      delaySamples ksv 0 (small { plucked with delayTime := 0x3F800000 }) = (64 : Nat) ∧
      delaySamples ksv 0 (small { plucked with delayTime := 0x3F820000 }) = (65 : Nat) := by decide +kernel

/-- `OnsetLatencyIsOneDelay`: a voice just started, with a delay of three samples, with none, and with the longest. -/
theorem witness_a_started_voice (dt : F) (d : Nat)
    (h : (dt, d) = (0x3D7A7ED1, 3) ∨ (dt, d) = (0, 0) ∨ (dt, d) = (0x3F800000, 64)) :
    let s := small { plucked with delayTime := dt }
    ((s.voice 0).active = true ∧ (s.voice 0).wc = 0 ∧ delaySamples ksv 0 s = d ∧ d ≤ s.len.toNat ∧ 1 ≤ s.len.toNat) ∧
    (∀ a, memRead (s.voice 0).buf a = fZero) ∧ (s.voice 0).lp.x1 = fZero ∧ (s.voice 0).lp.y1 = fZero ∧
    isFinite (s.voice 0).lp.b0 = true ∧ isFinite (s.voice 0).lp.b1 = true ∧ isFinite (s.voice 0).lp.a1 = true ∧
    isFinite (s.voice 0).noteGain = true ∧ isFinite (s.voice 0).decay = true ∧
    isFinite (excSample 0 s).1 = true := by
  obtain h | h | h := h <;> (
    obtain ⟨rfl, rfl⟩ := Prod.mk.inj h
    refine ⟨by decide +kernel, fun a => ?_, ?_, ?_, ?_, ?_, ?_, ?_, ?_, ?_⟩
    · rw [small_voice]; rfl
    all_goals decide +kernel)

/-- `ExciterGainNeverIncreases` and `EveryPositiveStepEndsTheBurst`. -/
theorem witness_a_decaying_gain :
    fge ((small plucked).voice 0).exGain fZero = true ∧ ((small plucked).voice 0).exGain = fOne ∧
      fge (gainStep ((small plucked).voice 0).burst (small plucked).sr) fZero = true ∧
      fgt (gainStep ((small plucked).voice 0).burst (small plucked).sr) fZero = true := by decide +kernel

/-- `DrySampleIsFilteredSumTimesTremolo` (with `witness_render_ready`) and `ReverbRunsOnceOnTheDryBlock`, the first and the last index. -/
theorem witness_indices : 0 < 8 ∧ 7 < 8 := by decide

/-- `SplittingABlockKeepsTheDrySignal`. -/
theorem witness_a_split_block :
    let s := small plucked
    RenderReady 3 s ∧ 1 ≤ 5 ∧ 3 + 5 ≤ s.blockSize.toNat ∧
      ∃ t u w, exec (.render 3) s = .next t ∧ exec (.render 5) t = .next u ∧ exec (.render (3 + 5)) s = .next w := by
  have h := fxBlock_keeps ksv 3 0x3F000000 0 0 0 0 0 (small plucked)
  have hr : RenderReady 5 (fxBlock ksv 3 0x3F000000 0 0 0 0 0 (small plucked)) := by
    unfold RenderReady
    rw [h.1, h.2.1, h.2.2]
    exact small_renderReady plucked (by decide) (by decide)
  exact ⟨small_renderReady _ (by decide) (by decide), by decide, by decide +kernel, _, _, _,
    small_render plucked (by decide) (by decide), render_ready hr, small_render plucked (by decide) (by decide)⟩

/-- `TremoloDepthZeroLeavesTheSignal`, at both ends of the phase's range. -/
theorem witness_tremolo_phases :
    isZero 0x80000000 = true ∧ fge fZero fZero = true ∧ fge fOne fZero = true ∧ fge fOne fOne = true ∧
      isFinite 0x3F800000 = true := by decide +kernel

/-- The statements over finite values, and the clauses of `MultiplicationRoundsToNearestEven` and
`DivisionRoundsToNearestEven` on two finite operands: a result that is finite, and one that is not. -/
theorem witness_finite_values :
    isFinite 0x7F7FFFFF = true ∧ isFinite 0x80000001 = true ∧ isZero 0x80000001 = false ∧
      (0x80000001 : F) ≠ 0x80000000 ∧
      isFinite (fmul 0x7F7FFFFF 0x80000001) = true ∧ isFinite (fmul 0x7F7FFFFF 0xFF7FFFFF) = false ∧
      isFinite (fdiv 0x80000001 0x7F7FFFFF) = true ∧ isFinite (fdiv 0x7F7FFFFF 0x80000001) = false := by decide +kernel

/-- `SumsAndDifferencesRoundToNearestEven`: the overflow bound is met and missed by one unit in the last place, with the
half spacing `2^103` above the largest finite value, and exact zeros of each kind. -/
theorem witness_sums_and_differences :
    fadd 0x7F7FFFFF 0x73000000 = posInf ∧ fadd 0x7F7FFFFF 0x72FFFFFF = 0x7F7FFFFF ∧
      fsub 0xFF7FFFFF 0x73000000 = negInf ∧ fsub 0xFF7FFFFF 0x72FFFFFF = 0xFF7FFFFF ∧
      fadd 0x80000000 0x80000000 = 0x80000000 ∧ fsub 0x80000000 0 = 0x80000000 ∧ fadd 0xBF800000 0x3F800000 = 0 ∧
      fsub 0x3F800000 0x3F800000 = 0 ∧ fixOf 0xBF800000 + fixOf 0x3F800000 = 0 := by decide +kernel

/-- The overflow bounds of `MultiplicationRoundsToNearestEven` and `DivisionRoundsToNearestEven` are met and missed by
one unit in the last place: `2^64·2^64` against `(2^64·(1 - 2^-24))·2^64`, and the same as quotients. -/
theorem witness_overflow_bounds :
    fmul 0x5F800000 0x5F800000 = posInf ∧ fmul 0x5F7FFFFF 0x5F800000 = 0x7F7FFFFF ∧
      fdiv 0x5F800000 0x9F800000 = negInf ∧ fdiv 0x5F7FFFFF 0x9F800000 = 0xFF7FFFFF := by decide +kernel

/-- `InvalidOperationsGiveANaN`, `ComparisonsAreThoseOfTheValues` and the clauses on infinities and zeros of
`SumsAndDifferencesRoundToNearestEven`, `MultiplicationRoundsToNearestEven` and `DivisionRoundsToNearestEven`: the operands of each clause. -/
theorem witness_special_values :
    isNaN 0x7F800001 = true ∧ isNaN 0x7F800000 = false ∧ isZero 0x7F800000 = false ∧ isInf 0x7F800000 = true ∧
      isInf 0xFF800000 = true ∧ isZero 0x80000000 = true ∧ signBit 0x7F800000 ≠ signBit 0xFF800000 := by decide +kernel

/-- `FloorConversionsAndRemaindersAreExact`, each clause, with halves of either sign (40_numerics R106 to R108, R113,
R115). -/
theorem witness_conversions :
    ffloor 0xBE800000 = 0xBF800000 ∧ ffloor negInf = negInf ∧ truncToInt 0xC0700000 = -3 ∧
      roundHalfAway 0xBF000000 = -1 ∧ roundHalfAway 0x3FC00000 = 2 ∧ roundHalfAway 0x40200000 = 3 ∧
      fmod2 0xC0200000 = 0xBF000000 ∧ emod (-17) 8 = 7 ∧ (1 : Int) ≤ 8 := by decide +kernel

/-- `WrapOneIsTheFractionalPart`, each clause. -/
theorem witness_wrap_clauses :
    (isFinite 0x80000000 = true ∧ fge 0x80000000 fZero = true) ∧
      (isFinite 0x80000001 = true ∧ flt 0x80000001 fZero = true) ∧ isFinite posInf = false := by decide +kernel

/-- `OpenFunctionsHaveTheirNamedProperties`, the arguments of its clauses. -/
theorem witness_open_arguments :
    isFinite 0x40490FDB = true ∧ isFinite negInf = false ∧ isFinite 0xBF800000 = true ∧
      fge fZero 0xBF800000 = true ∧ isNaN 0x7FC00000 = true := by decide +kernel

/-- The invariants, in a prepared engine with every voice Sounding that has a step to take. -/
theorem witness_invariants :
    let s := offered 0x0000000000000000 (small plucked)
    MemoriesCanonical s ∧ PreparedShape s ∧ PhasesInUnit s ∧ GainsNotNegative s ∧ FaultCoded s ∧ PortOrdered s ∧
      ∃ t, step s = .next t := by
  have hv : ∀ v : Fin 16, (offered 0x0000000000000000 (small plucked)).voice v = plucked := small_voice plucked
  refine ⟨⟨rfl, rfl, rfl, fun v => by rw [hv]; rfl⟩, ?_, fun _ =>
      ⟨fun v => ⟨by rw [hv]; decide +kernel, ?_⟩, .inr (by decide +kernel)⟩,
    fun _ v => by rw [hv]; decide +kernel, ⟨⟨fun _ => rfl, fun _ => rfl⟩, by decide +kernel⟩,
    ⟨Nat.zero_le _, fun h => absurd rfl h, fun h => absurd h (by decide)⟩, _, rfl⟩
  · refine ⟨fun _ => ⟨by decide +kernel, by decide +kernel, by decide +kernel, by decide +kernel, by decide +kernel,
      by decide +kernel, fun v => by rw [hv]; decide +kernel⟩, rfl, rfl, rfl⟩
  · rw [hv]
    exact .inr ⟨12, by decide, by decide +kernel, by decide +kernel⟩

end Sys2Proof.Machine
end

section
/-! PROOFS. Exact values of the binary32 format: which magnitudes it represents, the order of finite values, what a
sum of finite values is, and that `wrap1` answers the exact fractional part (40_numerics R101, R103, R106, R109). -/

namespace Sys2Proof.Machine

open Sys2Proof.Config

/-! ### Representable magnitudes -/

/-- A count of units of `2^-149` that is the magnitude of a finite value. -/
def Representable (n : Nat) : Prop := ∃ mag, mag < infBits ∧ unitsOf mag = n

theorem representable_unitsOf {mag : Nat} (h : mag < infBits) : Representable (unitsOf mag) := ⟨mag, h, rfl⟩

theorem unitsOf_infBits : unitsOf infBits = 2 ^ 277 := by decide +kernel

/-- A power of two in units is a pattern with an empty fraction. -/
theorem unitsOf_pow {k : Nat} (hk : 1 ≤ k) : unitsOf (k * 2 ^ 23) = 2 ^ (k + 22) := by
  have hdiv : k * 2 ^ 23 / 2 ^ 23 = k := Nat.mul_div_cancel _ (by norm_num)
  have hmod : k * 2 ^ 23 % 2 ^ 23 = 0 := Nat.mul_mod_left _ _
  unfold unitsOf
  rw [hdiv, hmod, if_neg (by omega), Nat.add_zero, ← pow_add]
  congr 1
  omega

/-- A magnitude is a significand of at most 24 bits, shifted. -/
theorem unitsOf_eq_mul_pow (mag : Nat) : ∃ m e, m < 2 ^ 24 ∧ unitsOf mag = m * 2 ^ e := by
  have hlt : mag % 2 ^ 23 < 2 ^ 23 := Nat.mod_lt _ (by norm_num)
  unfold unitsOf
  split
  · exact ⟨mag % 2 ^ 23, 0, by omega, by rw [pow_zero, Nat.mul_one]⟩
  · exact ⟨2 ^ 23 + mag % 2 ^ 23, mag / 2 ^ 23 - 1, by omega, rfl⟩

theorem exists_unitsOf_double (mag : Nat) : ∃ mag', unitsOf mag' = 2 * unitsOf mag := by
  by_cases h : mag / 2 ^ 23 = 0
  · have hsmall : mag < 2 ^ 23 := by omega
    refine ⟨2 * mag, ?_⟩
    by_cases h2 : 2 * mag / 2 ^ 23 = 0
    · unfold unitsOf
      rw [if_pos h, if_pos h2]
      omega
    · have h1 : 2 * mag / 2 ^ 23 = 1 := by omega
      unfold unitsOf
      rw [if_pos h, if_neg h2, h1, Nat.sub_self, pow_zero]
      omega
  · refine ⟨mag + 2 ^ 23, ?_⟩
    have hd : (mag + 2 ^ 23) / 2 ^ 23 = mag / 2 ^ 23 + 1 := Nat.add_div_right _ (by norm_num)
    obtain ⟨e, he⟩ : ∃ e, mag / 2 ^ 23 = e + 1 := ⟨mag / 2 ^ 23 - 1, by omega⟩
    unfold unitsOf
    rw [hd, if_neg h, if_neg (by omega), Nat.add_mod_right, he, Nat.add_sub_cancel, Nat.add_sub_cancel, pow_succ]
    ring

theorem exists_unitsOf_mul_pow {m : Nat} (hm : m ≤ 2 ^ 24) (j : Nat) : ∃ mag, unitsOf mag = m * 2 ^ j := by
  induction j with
  | zero =>
    refine ⟨m, ?_⟩
    rcases Nat.lt_or_ge m (2 ^ 23) with hlt | hge
    · have h0 : m / 2 ^ 23 = 0 := by omega
      unfold unitsOf
      rw [if_pos h0]
      omega
    · rcases Nat.eq_or_lt_of_le hm with rfl | hlt
      · decide +kernel
      · have h1 : m / 2 ^ 23 = 1 := by omega
        unfold unitsOf
        rw [if_neg (by omega), h1, Nat.sub_self, pow_zero]
        omega
  | succ j ih =>
    obtain ⟨mag, hmag⟩ := ih
    obtain ⟨mag', hmag'⟩ := exists_unitsOf_double mag
    exact ⟨mag', by rw [hmag', hmag, pow_succ]; ring⟩

/-- A significand of at most 24 bits (or the carry out of one) is representable at every shift below the largest. -/
theorem representable_mul_pow {m j : Nat} (hm : m ≤ 2 ^ 24) (hj : j ≤ 252) : Representable (m * 2 ^ j) := by
  obtain ⟨mag, hmag⟩ := exists_unitsOf_mul_pow hm j
  refine ⟨mag, ?_, hmag⟩
  rw [← unitsOf_lt_iff, hmag, unitsOf_infBits]
  refine lt_of_le_of_lt (Nat.mul_le_mul_right (2 ^ j) hm) ?_
  rw [← pow_add]
  exact pow_lt_pow_right₀ one_lt_two (by omega)

/-- The whole multiples of `2^j` next to a representable magnitude, below and above it, are representable: what makes
`NUM.floor` exact (40_numerics R106). -/
theorem representable_of_near {a c j : Nat} (ha : Representable a) (hj : j ≤ 252) (hlow : a < c * 2 ^ j + 2 ^ j)
    (hhigh : c * 2 ^ j < a + 2 ^ j) : Representable (c * 2 ^ j) := by
  obtain ⟨mag, hfin, hmag⟩ := ha
  obtain ⟨m, e, hm, hme⟩ := unitsOf_eq_mul_pow mag
  have hpos : 0 < 2 ^ j := by positivity
  have ha' : a = m * 2 ^ e := by rw [← hmag, hme]
  rcases Nat.le_total j e with hje | hej
  · have hmul : a = m * 2 ^ (e - j) * 2 ^ j := by rw [ha', Nat.mul_assoc, ← pow_add, Nat.sub_add_cancel hje]
    have hc : c = m * 2 ^ (e - j) := by
      rw [hmul, ← Nat.succ_mul] at hlow hhigh
      have h1 := Nat.lt_of_mul_lt_mul_right hlow
      have h2 := Nat.lt_of_mul_lt_mul_right hhigh
      omega
    rw [hc, ← hmul, ← hmag]
    exact representable_unitsOf hfin
  · have hle : m * 2 ^ e ≤ m * 2 ^ j := Nat.mul_le_mul_left _ (Nat.pow_le_pow_right (by norm_num) hej)
    have hlt : c * 2 ^ j < (m + 1) * 2 ^ j := by rw [Nat.succ_mul]; omega
    have hc : c < m + 1 := Nat.lt_of_mul_lt_mul_right hlt
    exact representable_mul_pow (by omega) hj

/-- The rest of a representable magnitude by a power of two is representable: what makes `wrap1` exact (R109). -/
theorem representable_mod {a j : Nat} (ha : Representable a) (hj : j ≤ 252) : Representable (a % 2 ^ j) := by
  obtain ⟨mag, _, rfl⟩ := ha
  obtain ⟨m, e, hm, hme⟩ := unitsOf_eq_mul_pow mag
  rw [hme]
  rcases Nat.le_total j e with hje | hej
  · have hz : m * 2 ^ e % 2 ^ j = 0 := Nat.mod_eq_zero_of_dvd (Dvd.dvd.mul_left (pow_dvd_pow 2 hje) m)
    rw [hz, ← Nat.zero_mul (2 ^ 0)]
    exact representable_mul_pow (by norm_num) (by norm_num)
  · have hsplit : 2 ^ j = 2 ^ (j - e) * 2 ^ e := by rw [← pow_add, Nat.sub_add_cancel hej]
    have hle : m % 2 ^ (j - e) ≤ m := Nat.mod_le _ _
    rw [hsplit, Nat.mul_mod_mul_right]
    exact representable_mul_pow (by omega) (by omega)

/-! ### Rounding: exact on representable magnitudes, and never past a power of two -/

theorem unitsOf_roundMag_of_representable {n : Nat} (h : Representable n) :
    roundMag n 1 < infBits ∧ unitsOf (roundMag n 1) = n := by
  obtain ⟨mag, hfin, rfl⟩ := h
  have hr : roundMag (unitsOf mag) 1 = mag := by simpa using roundMag_exact (d := 1) Nat.one_pos hfin
  rw [hr]
  exact ⟨hfin, rfl⟩

theorem roundHalfEven_le_succ_div (n d : Nat) : roundHalfEven n d ≤ n / d + 1 := by
  unfold roundHalfEven
  split <;> omega

theorem roundBits_le {n d K : Nat} (hK : 24 ≤ K) (h : n / d < 2 ^ K) :
    roundBits n d ≤ (K - 22) * 2 ^ 23 := by
  have hq : n / d < 2 ^ (shiftOf (n / d) + 24) :=
    lt_of_lt_of_le Nat.lt_log2_self (Nat.pow_le_pow_right (by norm_num) (by unfold shiftOf; omega))
  have hs : shiftOf (n / d) ≤ K - 24 := by
    by_cases hz : n / d = 0
    · rw [hz]; exact Nat.zero_le _
    · have := (Nat.log2_lt hz).mpr h
      unfold shiftOf
      omega
  have hsig : n / (d * 2 ^ shiftOf (n / d)) < 2 ^ 24 := by
    rw [← Nat.div_div_eq_div_mul]
    apply Nat.div_lt_of_lt_mul
    rwa [← pow_add]
  have hr := roundHalfEven_le_succ_div n (d * 2 ^ shiftOf (n / d))
  unfold roundBits
  omega

/-- What lies below a power of two is rounded to a finite value not above it. -/
theorem unitsOf_roundMag_le {n d K : Nat} (hK : 24 ≤ K) (hK' : K ≤ 276) (h : n / d < 2 ^ K) :
    roundMag n d < infBits ∧ unitsOf (roundMag n d) ≤ 2 ^ K := by
  have hb := roundBits_le hK h
  have hinf : (K - 22) * 2 ^ 23 < infBits := by unfold infBits; omega
  have hr : roundMag n d = roundBits n d := by
    unfold roundMag
    exact if_neg (by omega)
  rw [hr]
  refine ⟨by omega, ?_⟩
  calc unitsOf (roundBits n d) ≤ unitsOf ((K - 22) * 2 ^ 23) := unitsOf_le_iff.mpr hb
    _ = 2 ^ K := by rw [unitsOf_pow (by omega)]; congr 1; omega

/-! ### Finite values and their order (40_numerics R103) -/

theorem isFinite_iff {x : F} : isFinite x = true ↔ magBits x < infBits := by simp [isFinite]

theorem isNaN_eq_false_of_isFinite {x : F} (h : isFinite x = true) : isNaN x = false := by
  have := isFinite_iff.mp h
  simp only [isNaN, decide_eq_false_iff_not]
  omega

theorem isInf_eq_false_of_isFinite {x : F} (h : isFinite x = true) : isInf x = false := by
  have := isFinite_iff.mp h
  simp only [isInf, beq_eq_false_iff_ne]
  omega

theorem representable_fixOf {x : F} (h : isFinite x = true) : Representable (fixOf x).natAbs := by
  have hn : (fixOf x).natAbs = unitsOf (magBits x) := by unfold fixOf; split <;> simp
  rw [hn]
  exact representable_unitsOf (isFinite_iff.mp h)

theorem isFinite_makeF (s : Bool) {mag : Nat} (h : mag < infBits) : isFinite (makeF s mag) = true := by
  rw [isFinite_iff, magBits_makeF s (lt_trans h infBits_lt)]
  exact h

theorem fixOf_makeF (s : Bool) {mag : Nat} (h : mag < 2 ^ 31) :
    fixOf (makeF s mag) = if s then -(unitsOf mag : Int) else (unitsOf mag : Int) := by
  simp [fixOf, signBit_makeF s h, magBits_makeF s h]

theorem fixOf_fneg (x : F) : fixOf (fneg x) = -fixOf x := by
  unfold fixOf
  rw [signBit_fneg, magBits_fneg]
  cases signBit x <;> simp

theorem isFinite_fneg (x : F) : isFinite (fneg x) = isFinite x := by simp [isFinite, magBits_fneg]
theorem isNaN_fneg (x : F) : isNaN (fneg x) = isNaN x := by simp [isNaN, magBits_fneg]
theorem isInf_fneg (x : F) : isInf (fneg x) = isInf x := by simp [isInf, magBits_fneg]

theorem fixOf_fZero : fixOf fZero = 0 := by decide
theorem fixOf_fOne : fixOf fOne = (unit : Int) := by decide +kernel

theorem unit_pos : 0 < unit := by unfold unit; positivity

/-- The order of the patterns is the order of the values, with both zeros at 0. -/
theorem orderKey_le_iff (a b : F) : orderKey a ≤ orderKey b ↔ fixOf a ≤ fixOf b := by
  have hle : ∀ m k, unitsOf m ≤ unitsOf k ↔ m ≤ k := fun _ _ => unitsOf_le_iff
  have h1 := hle (magBits a) (magBits b)
  have h2 := hle (magBits b) (magBits a)
  have ha : unitsOf (magBits a) = 0 ↔ magBits a = 0 := unitsOf_eq_zero
  have hb : unitsOf (magBits b) = 0 ↔ magBits b = 0 := unitsOf_eq_zero
  unfold orderKey fixOf
  cases signBit a <;> cases signBit b <;> simp only [if_true, if_false, Bool.false_eq_true] <;> omega

theorem fge_iff {a b : F} (ha : isFinite a = true) (hb : isFinite b = true) :
    fge a b = true ↔ fixOf b ≤ fixOf a := by
  unfold fge
  rw [isNaN_eq_false_of_isFinite ha, isNaN_eq_false_of_isFinite hb]
  simpa using orderKey_le_iff b a

theorem flt_iff {a b : F} (ha : isFinite a = true) (hb : isFinite b = true) :
    flt a b = true ↔ fixOf a < fixOf b := by
  unfold flt
  rw [isNaN_eq_false_of_isFinite ha, isNaN_eq_false_of_isFinite hb]
  have h := orderKey_le_iff b a
  simp only [Bool.not_false, Bool.true_and, decide_eq_true_eq]
  omega

/-- A value that is greater is greater or equal, whatever the values are. -/
theorem fge_of_fgt {a b : F} (h : fgt a b = true) : fge a b = true := by
  unfold fgt flt at h
  unfold fge
  simp only [Bool.and_eq_true, decide_eq_true_eq] at h ⊢
  obtain ⟨⟨hb, ha⟩, hlt⟩ := h
  exact ⟨⟨ha, hb⟩, le_of_lt hlt⟩

theorem isFinite_fZero : isFinite fZero = true := by decide
theorem isFinite_fOne : isFinite fOne = true := by decide

theorem inUnit_iff {x : F} : inUnit x = true ↔ isFinite x = true ∧ 0 ≤ fixOf x ∧ fixOf x < (unit : Int) := by
  unfold inUnit
  by_cases hx : isFinite x = true
  · rw [Bool.and_eq_true, Bool.and_eq_true, fge_iff hx isFinite_fZero, flt_iff hx isFinite_fOne, fixOf_fZero,
      fixOf_fOne, and_assoc]
  · simp [hx]

/-! ### Sums of finite values (40_numerics R101) -/

/-- The sum of two finite values is the exact sum, rounded; only the sign of an exact zero is not the sum's own. -/
theorem addCore_of_isFinite (nan : F) {a b : F} (ha : isFinite a = true) (hb : isFinite b = true) :
    ∃ s, addCore nan a b = makeF s (roundMag (fixOf a + fixOf b).natAbs 1) ∧
      (fixOf a + fixOf b ≠ 0 → s = decide (fixOf a + fixOf b < 0)) := by
  unfold addCore
  simp only [isNaN_eq_false_of_isFinite ha, isNaN_eq_false_of_isFinite hb, isInf_eq_false_of_isFinite ha,
    isInf_eq_false_of_isFinite hb, Bool.or_self, Bool.false_eq_true, if_false]
  by_cases hz : fixOf a + fixOf b = 0
  · have hr : roundMag 0 1 = 0 := by simpa using roundMag_exact (mag := 0) (d := 1) Nat.one_pos (by decide)
    exact ⟨signBit a && signBit b, by rw [if_pos hz, hz, Int.natAbs_zero, hr], fun h => absurd hz h⟩
  · exact ⟨_, by rw [if_neg hz], fun _ => rfl⟩

/-- A sum whose exact value is representable is that value. -/
theorem addCore_exact (nan : F) {a b : F} (ha : isFinite a = true) (hb : isFinite b = true)
    (h : Representable (fixOf a + fixOf b).natAbs) :
    isFinite (addCore nan a b) = true ∧ fixOf (addCore nan a b) = fixOf a + fixOf b := by
  obtain ⟨s, heq, hs⟩ := addCore_of_isFinite nan ha hb
  obtain ⟨hfin, hval⟩ := unitsOf_roundMag_of_representable h
  rw [heq, fixOf_makeF s (roundMag_lt _ _), hval]
  refine ⟨isFinite_makeF s hfin, ?_⟩
  by_cases hz : fixOf a + fixOf b = 0
  · simp [hz]
  · rw [hs hz]
    by_cases hneg : fixOf a + fixOf b < 0
    · simp only [hneg, decide_true, if_true]; omega
    · simp only [hneg, decide_false, Bool.false_eq_true, if_false]; omega

/-- A sum that is not negative and lies below a power of two is finite, not negative and not above that power. -/
theorem addCore_bounds (nan : F) {a b : F} {K : Nat} (ha : isFinite a = true) (hb : isFinite b = true)
    (h0 : 0 ≤ fixOf a + fixOf b) (hK : 24 ≤ K) (hK' : K ≤ 276) (h : fixOf a + fixOf b < ((2 ^ K : Nat) : Int)) :
    isFinite (addCore nan a b) = true ∧ 0 ≤ fixOf (addCore nan a b) ∧
      fixOf (addCore nan a b) ≤ ((2 ^ K : Nat) : Int) := by
  obtain ⟨s, heq, hs⟩ := addCore_of_isFinite nan ha hb
  by_cases hz : fixOf a + fixOf b = 0
  · have hrep : Representable (fixOf a + fixOf b).natAbs := by rw [hz]; exact representable_unitsOf (mag := 0) (by decide)
    obtain ⟨hfin, hval⟩ := addCore_exact nan ha hb hrep
    rw [hval, hz]
    exact ⟨hfin, le_refl _, by positivity⟩
  · obtain ⟨hfin, hle⟩ := unitsOf_roundMag_le (n := (fixOf a + fixOf b).natAbs) hK hK'
      (by rw [Nat.div_one]; omega)
    have hsign : s = false := by rw [hs hz]; simpa using h0
    rw [heq, hsign, fixOf_makeF false (roundMag_lt _ _)]
    simp only [Bool.false_eq_true, if_false]
    exact ⟨isFinite_makeF false hfin, Int.natCast_nonneg _, by exact_mod_cast hle⟩

/-! ### Floor and wrap (40_numerics R106, R109) -/

/-- `NUM.floor` of a finite value is exact. -/
theorem ffloor_of_isFinite {x : F} (hx : isFinite x = true) :
    isFinite (ffloor x) = true ∧ fixOf (ffloor x) = fixOf x / (unit : Int) * (unit : Int) := by
  unfold ffloor
  rw [isNaN_eq_false_of_isFinite hx, isInf_eq_false_of_isFinite hx]
  simp only [Bool.false_eq_true, if_false, Bool.false_or]
  by_cases hz : isZero x = true
  · have hm : magBits x = 0 := by simpa [isZero] using hz
    have h0 : fixOf x = 0 := by simp [fixOf, hm]
    rw [if_pos hz, h0]
    exact ⟨hx, by simp⟩
  · rw [if_neg hz]
    have hpos : (0 : Int) < unit := by exact_mod_cast unit_pos
    have hrep : Representable ((fixOf x / (unit : Int)).natAbs * unit) := by
      have hdm := Int.mul_ediv_add_emod (fixOf x) unit
      have hr0 := Int.emod_nonneg (fixOf x) (ne_of_gt hpos)
      have hr1 := Int.emod_lt_of_pos (fixOf x) hpos
      have habs : (fixOf x / (unit : Int)).natAbs * unit = ((unit : Int) * (fixOf x / (unit : Int))).natAbs := by
        rw [Int.natAbs_mul, Int.natAbs_natCast, Nat.mul_comm]
      have hlow : (fixOf x).natAbs < (fixOf x / (unit : Int)).natAbs * unit + unit := by rw [habs]; omega
      have hhigh : (fixOf x / (unit : Int)).natAbs * unit < (fixOf x).natAbs + unit := by rw [habs]; omega
      exact representable_of_near (j := 149) (representable_fixOf hx) (by norm_num) hlow hhigh
    obtain ⟨hfin, hval⟩ := unitsOf_roundMag_of_representable hrep
    rw [fixOf_makeF _ (roundMag_lt _ _), hval]
    refine ⟨isFinite_makeF _ hfin, ?_⟩
    by_cases hneg : fixOf x / (unit : Int) < 0
    · simp only [hneg, decide_true, if_true, Nat.cast_mul, Int.natCast_natAbs, abs_of_neg hneg]; ring
    · simp only [hneg, decide_false, Bool.false_eq_true, if_false, Nat.cast_mul, Int.natCast_natAbs,
        abs_of_nonneg (not_lt.mp hneg)]

/-- The difference `wrap1` rounds is the fractional part. -/
theorem fixOf_add_fneg_ffloor {x : F} (hx : isFinite x = true) :
    fixOf x + fixOf (fneg (ffloor x)) = fixOf x % (unit : Int) := by
  obtain ⟨_, hval⟩ := ffloor_of_isFinite hx
  have hdm := Int.mul_ediv_add_emod (fixOf x) unit
  rw [fixOf_fneg, hval, mul_comm]
  omega

/-- `wrap1` of a finite value that is not negative is its fractional part, exactly. -/
theorem wrap1_exact {x : F} (hx : isFinite x = true) (h0 : 0 ≤ fixOf x) :
    isFinite (wrap1 x) = true ∧ fixOf (wrap1 x) = fixOf x % (unit : Int) := by
  obtain ⟨hfin, _⟩ := ffloor_of_isFinite hx
  have hfin' : isFinite (fneg (ffloor x)) = true := by rw [isFinite_fneg]; exact hfin
  have hrep : Representable (fixOf x % (unit : Int)).natAbs := by
    rw [Int.natAbs_emod_of_nonneg h0]
    exact representable_mod (j := 149) (representable_fixOf hx) (by norm_num)
  rw [← fixOf_add_fneg_ffloor hx] at hrep ⊢
  unfold wrap1 fsub
  exact addCore_exact _ hx hfin' hrep

theorem inUnit_wrap1 {x : F} (hx : isFinite x = true) (h0 : 0 ≤ fixOf x) : inUnit (wrap1 x) = true := by
  have hpos : (0 : Int) < unit := by exact_mod_cast unit_pos
  obtain ⟨hfin, hval⟩ := wrap1_exact hx h0
  rw [inUnit_iff, hval]
  exact ⟨hfin, Int.emod_nonneg _ (ne_of_gt hpos), Int.emod_lt_of_pos _ hpos⟩

/-- `wrap1` of a finite value, of either sign, lies in `[0, 1]`: a fractional part next to 1 is rounded to 1 at most. -/
theorem wrap1_bounds {x : F} (hx : isFinite x = true) :
    isFinite (wrap1 x) = true ∧ fge (wrap1 x) fZero = true ∧ fge fOne (wrap1 x) = true := by
  have hpos : (0 : Int) < unit := by exact_mod_cast unit_pos
  have hsum := fixOf_add_fneg_ffloor hx
  obtain ⟨hfin, _⟩ := ffloor_of_isFinite hx
  have hfin' : isFinite (fneg (ffloor x)) = true := by rw [isFinite_fneg]; exact hfin
  obtain ⟨hw, hw0, hw1⟩ := addCore_bounds (nanOf .sub x (ffloor x)) (K := 149) hx hfin'
    (by rw [hsum]; exact Int.emod_nonneg _ (ne_of_gt hpos)) (by norm_num) (by norm_num)
    (by rw [hsum]; exact Int.emod_lt_of_pos _ hpos)
  have heq : wrap1 x = addCore (nanOf .sub x (ffloor x)) x (fneg (ffloor x)) := by unfold wrap1 fsub; rfl
  rw [← heq] at hw hw0 hw1
  rw [fge_iff hw isFinite_fZero, fge_iff isFinite_fOne hw, fixOf_fZero, fixOf_fOne]
  exact ⟨hw, hw0, hw1⟩

/-- `wrap1` of an infinity or a NaN is a NaN. -/
theorem isNaN_wrap1 {x : F} (hx : isFinite x = false) : isNaN (wrap1 x) = true := by
  unfold wrap1 fsub addCore ffloor
  rcases Nat.lt_or_ge infBits (magBits x) with hlt | hge
  · have hn : isNaN x = true := by simpa [isNaN] using hlt
    simp [hn]
  · have heq : magBits x = infBits := by
      simp only [isFinite, decide_eq_false_iff_not] at hx
      omega
    have hn : isNaN x = false := by simp [isNaN, heq]
    have hi : isInf x = true := by simp [isInf, heq]
    have hs : (signBit x != !signBit x) = true := by cases signBit x <;> rfl
    simp [hn, hi, hs, isNaN_fneg, isInf_fneg, signBit_fneg]

end Sys2Proof.Machine
end

section
/-! PROOFS. What a rendered voice, a rendered block, a command and a step can do to the state, said once each; and what
therefore is kept by every step (44_voice R171, 46_global_effects R201, 47_host_commands R230). -/

namespace Sys2Proof.Machine

open Sys2Proof.Config

variable {nv cw : Nat}

/-! ### One voice (44_voice R171) -/

/-- The exciter gain after one `EXC.SAMPLE` (42_exciter R141). -/
def nextGain (r : Voice cw) (sr : F) : F :=
  if fgt r.exGain fZero then clamp0 (fsub r.exGain (gainStep r.burst sr)) else r.exGain

/-- The read cursor a `V.RENDER` seeks to (44_voice R176). -/
def soughtCursor (cfg : Engine) (v : Fin nv) (s : State nv cw) : BitVec cw :=
  cursorOf (emod (((s.voice v).wc.toNat : Int) - delaySamples cfg v s) (s.len.toNat : Int))

/-- The delayed sample a `V.RENDER` reads (44_voice R179). -/
def delayedSample (cfg : Engine) (v : Fin nv) (s : State nv cw) : F :=
  memRead (s.voice v).buf (soughtCursor cfg v s).toNat

/-- The register file one `V.RENDER` makes of a Sounding voice (44_voice R171). -/
def renderedVoice (cfg : Engine) (v : Fin nv) (s : State nv cw) : Voice cw :=
  { s.voice v with
    rc := stepCursor (soughtCursor cfg v s) s.len
    wc := stepCursor (s.voice v).wc s.len
    exGain := nextGain (s.voice v) s.sr
    phase := nextPhase (s.voice v).phase (s.voice v).freqHz s.sr
    lp := (iir1Step (s.voice v).lp (delayedSample cfg v s)).2
    buf := memWrite (s.voice v).buf (s.voice v).wc.toNat
      (fadd (excSample v (seekReadCursor cfg v s)).1
        (fmul (iir1Step (s.voice v).lp (delayedSample cfg v s)).1 (s.voice v).decay)) }

theorem VoiceChange.keeps_sr {s t : State nv cw} (h : VoiceChange s t) : t.sr = s.sr := by
  unfold VoiceChange at h
  rw [h]

theorem VoiceChange.keeps_len {s t : State nv cw} (h : VoiceChange s t) : t.len = s.len := by
  unfold VoiceChange at h
  rw [h]

@[simp] theorem lpStep_fst (v : Fin nv) (x : F) (s : State nv cw) :
    (lpStep v x s).1 = (iir1Step (s.voice v).lp x).1 := rfl

@[simp] theorem excSample_sr (v : Fin nv) (s : State nv cw) : (excSample v s).2.sr = s.sr :=
  (voiceChange_excSample v s).keeps_sr

@[simp] theorem excSample_len (v : Fin nv) (s : State nv cw) : (excSample v s).2.len = s.len :=
  (voiceChange_excSample v s).keeps_len

@[simp] theorem excSample_voice_same (v : Fin nv) (s : State nv cw) :
    (excSample v s).2.voice v = { s.voice v with exGain := nextGain (s.voice v) s.sr } := by
  rcases excSample_cases v s with ⟨hg, h⟩ | ⟨hg, h⟩
  · rw [h, voice_setVoice_same, nextGain, if_pos hg]
  · rw [h, nextGain, hg]
    rfl

theorem excSample_voice_ne (v : Fin nv) (s : State nv cw) {u : Fin nv} (hu : u ≠ v) :
    (excSample v s).2.voice u = s.voice u := by
  rcases excSample_cases v s with ⟨_, h⟩ | ⟨_, h⟩
  · rw [h, voice_setVoice_ne _ _ hu, waveValue_state]
    rfl
  · rw [h]

/-- An Idle voice is left as it is (44_voice R185). -/
theorem vRender_idle (cfg : Engine) {v : Fin nv} {s : State nv cw} (h : (s.voice v).active = false) :
    vRender cfg v s = (fZero, s) := by
  unfold vRender vIsActive
  rw [h]
  rfl

theorem vRender_voice_same (cfg : Engine) {v : Fin nv} {s : State nv cw} (h : (s.voice v).active = true) :
    (vRender cfg v s).2.voice v = renderedVoice cfg v s := by
  simp [vRender, vIsActive, h, renderedVoice, delayedSample, soughtCursor, dlRead, nextGain]

theorem vRender_voice_ne (cfg : Engine) {u v : Fin nv} (s : State nv cw) (hu : u ≠ v) :
    (vRender cfg v s).2.voice u = s.voice u := by
  unfold vRender
  split
  · simp [advanceCursors_voice_ne _ _ hu, dlWrite_voice_ne _ _ _ _ hu, lpStep_voice_ne _ _ _ hu,
      advancePhase_voice_ne _ _ hu, excSample_voice_ne _ _ hu, seekReadCursor_voice_ne _ _ _ hu]
  · rfl

@[simp] theorem vRender_sr (cfg : Engine) (v : Fin nv) (s : State nv cw) : (vRender cfg v s).2.sr = s.sr :=
  (vRender_frame cfg v s).keeps_sr

@[simp] theorem vRender_len (cfg : Engine) (v : Fin nv) (s : State nv cw) : (vRender cfg v s).2.len = s.len :=
  (vRender_frame cfg v s).keeps_len

/-! ### The voices through a block (46_global_effects R201) -/

/-- At the rate `sr` and the buffer length `len`, a `V.RENDER` keeps what `P` says of the voice rendered. -/
def RenderKeeps (cfg : Engine) (sr : F) (len : BitVec cw) (P : Fin nv → Voice cw → Prop) : Prop :=
  ∀ v (s : State nv cw), s.sr = sr → s.len = len → (s.voice v).active = true → P v (s.voice v) →
    P v (renderedVoice cfg v s)

/-- The rate, the buffer length, and what `P` says of every voice. -/
def VoicesHave (sr : F) (len : BitVec cw) (P : Fin nv → Voice cw → Prop) (s : State nv cw) : Prop :=
  s.sr = sr ∧ s.len = len ∧ ∀ v, P v (s.voice v)

section Block

variable {cfg : Engine} {sr : F} {len : BitVec cw} {P : Fin nv → Voice cw → Prop}

theorem vRender_keeps (hP : RenderKeeps cfg sr len P) (v : Fin nv) {s : State nv cw} (hs : VoicesHave sr len P s) :
    VoicesHave sr len P (vRender cfg v s).2 := by
  obtain ⟨hsr, hlen, hv⟩ := hs
  refine ⟨by rw [vRender_sr, hsr], by rw [vRender_len, hlen], fun u => ?_⟩
  by_cases hu : u = v
  · subst hu
    cases ha : (s.voice u).active with
    | false => rw [vRender_idle cfg ha]; exact hv u
    | true => rw [vRender_voice_same cfg ha]; exact hP u s hsr hlen ha (hv u)
  · rw [vRender_voice_ne cfg s hu]
    exact hv u

theorem poolSum_keeps (hP : RenderKeeps cfg sr len P) {s : State nv cw} (hs : VoicesHave sr len P s) :
    VoicesHave sr len P (poolSum cfg s).2 := by
  have hfold : ∀ (l : List (Fin nv)) (a : F × State nv cw), VoicesHave sr len P a.2 →
      VoicesHave sr len P (l.foldl (sumStep cfg) a).2 := by
    intro l
    induction l with
    | nil => exact fun _ h => h
    | cons v rest ih => exact fun a h => ih _ (vRender_keeps hP v h)
  exact hfold _ _ hs

/-- After its pool sum a dry sample writes no register file. -/
theorem drySample_keeps (hP : RenderKeeps cfg sr len P) (rate depth : F) (i : Nat) {s : State nv cw}
    (hs : VoicesHave sr len P s) : VoicesHave sr len P (drySample cfg rate depth i s) :=
  poolSum_keeps hP hs

theorem dryPass_keeps (hP : RenderKeeps cfg sr len P) (n : Nat) (rate depth : F) {s : State nv cw}
    (hs : VoicesHave sr len P s) : VoicesHave sr len P (dryPass cfg n rate depth s) :=
  forIndex_keeps (P := VoicesHave sr len P) hs fun i _ _ ht => drySample_keeps hP rate depth i ht

/-- What `V.RENDER` keeps of each voice, a block keeps of every voice. -/
theorem fxBlock_keeps_voices (hP : RenderKeeps cfg sr len P) (n : Nat) (gain lowCut rate depth size mix : F)
    {s : State nv cw} (hs : VoicesHave sr len P s) :
    VoicesHave sr len P (fxBlock cfg n gain lowCut rate depth size mix s) := by
  have hdry : VoicesHave sr len P (dryPass cfg n rate depth (hpRetune cfg lowCut s)) := dryPass_keeps hP n rate depth hs
  unfold fxBlock renderedBlock
  rw [copyPass_frame]
  exact hdry

end Block

/-! ### The other registers of a block -/

/-- A block writes register files, the noise counter, the effects state, the scratch memories and the output port, and
nothing else. -/
theorem fxBlock_frame (cfg : Engine) (n : Nat) (gain lowCut rate depth size mix : F) (s : State nv cw) :
    let t := fxBlock cfg n gain lowCut rate depth size mix s
    t = { s with
      voices := t.voices, noiseState := t.noiseState, hp := t.hp, tph := t.tph, dry := t.dry, wetL := t.wetL
      wetR := t.wetR, rvState := t.rvState, outQueue := t.outQueue, emitting := t.emitting } := by
  have h := renderedBlock_frame cfg n lowCut rate depth size s
  unfold fxBlock
  generalize renderedBlock cfg n lowCut rate depth size s = b at h ⊢
  dsimp only at h
  rw [h]
  rfl

theorem drySample_tph (cfg : Engine) (rate depth : F) (i : Nat) (s : State nv cw) :
    (drySample cfg rate depth i s).tph = nextTph rate s.tph s.sr := by
  have h := poolSum_frame cfg s
  unfold VoiceChange at h
  change nextTph rate (poolSum cfg s).2.tph (poolSum cfg s).2.sr = _
  rw [h]

theorem drySample_dry (cfg : Engine) (rate depth : F) (i : Nat) (s : State nv cw) :
    ∃ x, (drySample cfg rate depth i s).dry = memWrite s.dry i x := by
  have h := poolSum_frame cfg s
  unfold VoiceChange at h
  have hdry : (poolSum cfg s).2.dry = s.dry := by rw [h]
  exact ⟨_, by rw [← hdry]; rfl⟩

/-- What every advance of the tremolo phase establishes, a block keeps of it. -/
theorem fxBlock_tph {cfg : Engine} {P : F → Prop} {rate : F} (hP : ∀ tph sr, P (nextTph rate tph sr)) (n : Nat)
    (gain lowCut depth size mix : F) {s : State nv cw} (hs : P s.tph) :
    P (fxBlock cfg n gain lowCut rate depth size mix s).tph := by
  have hdry : P (dryPass cfg n rate depth (hpRetune cfg lowCut s)).tph := by
    refine forIndex_keeps (P := fun t : State nv cw => P t.tph) hs fun i _ t _ => ?_
    rw [drySample_tph]
    exact hP t.tph t.sr
  unfold fxBlock renderedBlock
  rw [copyPass_frame]
  exact hdry

theorem below_writeWords {m : Memory} {k n : Nat} (hm : Memory.below k m = true) (hn : n ≤ k) (f : Nat → F) :
    Memory.below k (writeWords n f m) = true :=
  forIndex_keeps (P := fun m => Memory.below k m = true) hm
    fun i hi _ hx => below_memWrite hx (lt_of_lt_of_le hi hn) (f i)

/-- The scratch memories hold nothing at or above word `k`. -/
def ScratchBelow (k : Nat) (s : State nv cw) : Prop :=
  Memory.below k s.dry = true ∧ Memory.below k s.wetL = true ∧ Memory.below k s.wetR = true

theorem dryPass_scratchBelow (cfg : Engine) {k n : Nat} (hn : n ≤ k) (rate depth : F) {s : State nv cw}
    (hs : ScratchBelow k s) : ScratchBelow k (dryPass cfg n rate depth s) := by
  refine forIndex_keeps (P := ScratchBelow k) hs fun i hi t ⟨hd, hl, hr⟩ => ?_
  obtain ⟨x, hx⟩ := drySample_dry cfg rate depth i t
  have hframe := drySample_frame cfg rate depth i t
  refine ⟨by rw [hx]; exact below_memWrite hd (lt_of_lt_of_le hi hn) x, ?_, ?_⟩ <;>
    (unfold DryChange at hframe; rw [hframe]; assumption)

theorem copyPass_scratchBelow {k n : Nat} (hn : n ≤ k) {s : State nv cw} (hs : ScratchBelow k s) :
    ScratchBelow k (copyPass n s) :=
  forIndex_keeps (P := ScratchBelow k) hs fun _ hi _ ⟨hd, hl, hr⟩ =>
    ⟨hd, below_memWrite hl (lt_of_lt_of_le hi hn) _, below_memWrite hr (lt_of_lt_of_le hi hn) _⟩

/-- A block of at most `k` frames stores nothing at or above word `k` (20_memory R63). -/
theorem fxBlock_scratchBelow (cfg : Engine) {k n : Nat} (hn : n ≤ k) (gain lowCut rate depth size mix : F)
    {s : State nv cw} (hs : ScratchBelow k s) : ScratchBelow k (fxBlock cfg n gain lowCut rate depth size mix s) := by
  obtain ⟨hd, hl, hr⟩ := copyPass_scratchBelow hn
    (dryPass_scratchBelow cfg hn rate depth (s := hpRetune cfg lowCut s) hs)
  exact ⟨hd, below_writeWords hl hn _, below_writeWords hr hn _⟩

/-! ### What a command can do (47_host_commands) -/

/-- Whether a command is one of the ten SETPs (30_encoding R85, R88). -/
def isSetp : Instr → Bool
  | .setpGain _ | .setpWave _ | .setpDecay _ | .setpBurst _ | .setpExcut _ => true
  | .setpLowcut _ | .setpTremrate _ | .setpTremdepth _ | .setpRevsize _ | .setpRevmix _ => true
  | _ => false

/-- The causes a command can raise (47_host_commands R233, R236, R238, R239). -/
def MayRaise : Instr → Cause → Prop
  | .prepare _ _, c => c = .badPrepare
  | .noteon _ _, c => c = .notPrepared ∨ c = .paramUnset
  | .noteoff, c => c = .notPrepared
  | .render _, c => c = .notPrepared ∨ c = .badBlock ∨ c = .paramUnset
  | _, _ => False

/-- The ways a command can leave the engine: `Runs i s t` lists them, with the checks that stood before each. -/
inductive Runs : Instr → State → State → Prop where
  | nop (s : State) : Runs .nop s s
  | setp {i : Instr} (k : Nat) (p : Params) (s : State) (hi : isSetp i = true) : Runs i s (writeParam k p s)
  | fault {i : Instr} {c : Cause} (s : State) (hc : MayRaise i c) : Runs i s (raiseFault c s)
  | prepare {b : Nat} {r : F} (s : State) (h : prepareAcceptable ksv b r = true) :
      Runs (.prepare b r) s (prepareState ksv b r s)
  | full (p : Nat) (x : F) {s : State} (h : NoteonReady s) : Runs (.noteon p x) s s
  | start (p : Nat) (x : F) (v : Fin 16) {s : State} (h : NoteonReady s) :
      Runs (.noteon p x) s
        (vStart ksv v p x s.params.decay s.params.burst s.params.wave s.params.excut s)
  | noteoff {s : State} (h : s.prepared = true) : Runs .noteoff s (poolNoteoff s)
  | render {n : Nat} {s : State} (h : RenderReady n s) :
      Runs (.render n) s (fxBlock ksv n s.params.gain s.params.lowcut s.params.tremrate s.params.tremdepth
        s.params.revsize s.params.revmix s)

theorem prepare_runs {b : Nat} {r : F} {s t : State} (h : exec (.prepare b r) s = .next t) :
    Runs (.prepare b r) s t := by
  change prepareOn ksv b r s = .next t at h
  unfold prepareOn at h
  split at h <;> cases h
  next hp => exact .prepare s hp
  next => exact .fault s rfl

theorem noteon_runs {p : Nat} {x : F} {s t : State} (h : exec (.noteon p x) s = .next t) :
    Runs (.noteon p x) s t := by
  change noteonOn ksv p x s = .next t at h
  unfold noteonOn at h
  split at h
  next => cases h; exact .fault s (.inl rfl)
  next hp =>
    split at h <;> cases h
    next => exact .fault s (.inr rfl)
    next hv =>
      have hready : NoteonReady s := by
        simp only [noteParamsValid, validBit, Bool.not_eq_true', Bool.not_eq_false, Bool.and_eq_true] at hp hv
        obtain ⟨⟨⟨h1, h2⟩, h3⟩, h4⟩ := hv
        exact ⟨hp, h1, h2, h3, h4⟩
      unfold poolNoteon
      rcases scanNoteon_cases ksv p x s.params.decay s.params.burst s.params.wave s.params.excut
        (voiceOrder 16) s with ⟨heq, _⟩ | ⟨v, _, _, _, _, _, heq⟩
      · rw [heq]; exact .full p x hready
      · rw [heq]; exact .start p x v hready

theorem noteoff_runs {s t : State} (h : exec .noteoff s = .next t) : Runs .noteoff s t := by
  change execNoteoff s = .next t at h
  unfold execNoteoff at h
  split at h <;> cases h
  next => exact .fault s rfl
  next hp => exact .noteoff (by simpa using hp)

theorem render_runs {n : Nat} {s t : State} (h : exec (.render n) s = .next t) : Runs (.render n) s t := by
  change renderOn ksv n s = .next t at h
  unfold renderOn at h
  split at h
  next => cases h; exact .fault s (.inl rfl)
  next hp =>
    split at h
    next => cases h; exact .fault s (.inr (.inl rfl))
    next hc =>
      split at h <;> cases h
      next => exact .fault s (.inr (.inr rfl))
      next hv =>
        refine .render ?_
        simp only [blockParamsValid, countAcceptable, validBit, Bool.not_eq_true', Bool.not_eq_false,
          Bool.and_eq_true, decide_eq_true_eq] at hp hc hv
        obtain ⟨h1, hn⟩ := hc
        obtain ⟨⟨⟨⟨⟨h0, h5⟩, h6⟩, h7⟩, h8⟩, h9⟩ := hv
        exact ⟨hp, h1, hn, h0, h5, h6, h7, h8, h9⟩

/-- A command leaves the engine in one of the ways listed. -/
theorem exec_runs {i : Instr} {s t : State} (h : exec i s = .next t) : Runs i s t := by
  cases i with
  | nop => cases h; exact .nop s
  | prepare b r => exact prepare_runs h
  | noteon p x => exact noteon_runs h
  | noteoff => exact noteoff_runs h
  | render n => exact render_runs h
  | setpGain _ | setpWave _ | setpDecay _ | setpBurst _ | setpExcut _ | setpLowcut _ | setpTremrate _
  | setpTremdepth _ | setpRevsize _ | setpRevmix _ => cases h; exact .setp _ _ s rfl

/-- NOTEOFF writes the voices only (45_voice_pool R193). -/
theorem poolNoteoff_frame (s : State nv cw) : poolNoteoff s = { s with voices := (poolNoteoff s).voices } := by
  have hfold : ∀ (l : List (Fin nv)) (t : State nv cw), t = { s with voices := t.voices } →
      l.foldl (fun t v => vStop v t) t = { s with voices := (l.foldl (fun t v => vStop v t) t).voices } := by
    intro l
    induction l with
    | nil => exact fun _ ht => ht
    | cons v rest ih =>
      intro t ht
      refine ih (vStop v t) ?_
      rw [ht]
      rfl
  exact hfold (voiceOrder nv) s rfl

@[simp] theorem poolNoteoff_voice (s : State nv cw) (v : Fin nv) :
    (poolNoteoff s).voice v = { s.voice v with active := false } := by
  rw [poolNoteoff, foldl_vStop_voice, if_pos (mem_voiceOrder v)]

/-! ### What a step can do (47_host_commands R230) -/

/-- The operands of a decoded command are in range (30_encoding R90). -/
theorem wellFormed_of_decode {w : Word64} {i : Instr} (h : decode w = .command i) : i.wellFormed = true := by
  have hsetp : ∀ k b, decodeSetp k b = .command i → i.wellFormed = true := by
    intro k b hk
    unfold decodeSetp at hk
    split at hk
    case h_2 => split at hk <;> cases hk; rfl
    all_goals cases hk <;> rfl
  have ha : (aField w).toNat < 2 ^ 24 := (aField w).isLt
  unfold decode at h
  split at h
  · split at h
    · cases h
    · split at h <;> cases h
      rfl
  · cases h; simpa [Instr.wellFormed] using ha
  · exact hsetp _ _ h
  · split at h <;> cases h
    next hp => simpa [Instr.wellFormed] using hp
  · split at h
    · cases h
    · split at h <;> cases h
      rfl
  · split at h <;> cases h
    simpa [Instr.wellFormed] using ha
  · cases h

/-- What port traffic, hardware reset, fault entry and every well-formed command keep, every step keeps. -/
theorem step_keeps {P : State → Prop}
    (hport : ∀ s q e a, P s → P { s with outQueue := q, emitting := e, hostIn := a })
    (hreset : ∀ s, P s → P (hardReset s)) (hfault : ∀ c s, P s → P (raiseFault c s))
    (hexec : ∀ i s t, i.wellFormed = true → P s → Runs i s t → P t)
    {s t : State} (hs : P s) (h : step s = .next t) : P t := by
  rcases step_cases h with ⟨_, rfl⟩ | ⟨rest, _, rfl⟩ | ⟨rest, _, rfl⟩ | ⟨_, _, _, _, rfl⟩ | ⟨w, rest, _, _, ha⟩
  · exact hport s _ _ s.hostIn hs
  · exact hreset _ (hport s s.outQueue s.emitting rest hs)
  · exact hport s _ _ rest hs
  · exact hport s _ _ s.hostIn hs
  · have hs' := hport s s.outQueue s.emitting rest hs
    rcases acceptWord_cases ha with ⟨_, rfl⟩ | ⟨_, _, rfl⟩ | ⟨_, i, hd, he⟩
    · exact hs'
    · exact hfault _ _ hs'
    · exact hexec i _ t (wellFormed_of_decode hd) hs' (exec_runs he)

end Sys2Proof.Machine
end

section
/-! PROOFS. The statements about the state: what every step keeps (10_state R31, R34, R40, R44), which command writes
which register (R22), the distance of the cursors (R31 (I2)) and the status wires (R47). -/

namespace Sys2Proof.Machine

open Sys2Proof.Config

variable {nv cw : Nat}

/-! ### Invariants of the voices -/

/-- What `Q` says of the register file of every voice, at the rate and buffer length of a prepared engine. -/
def InPrepared (Q : F → BitVec 32 → Voice → Prop) (s : State) : Prop :=
  s.prepared = true → ∀ v, Q s.sr s.len (s.voice v)

/-- `Q` is established by PREPARE and kept by the three operations that write a voice (10_state R22). -/
structure VoiceInvariant (Q : F → BitVec 32 → Voice → Prop) : Prop where
  prepare : ∀ r, rateAcceptable ksv r = true → Q r (cursorOf (bufLength ksv r)) Voice.zero
  start : ∀ (v : Fin 16) (s : State) (p : Nat) (vel d b : F) (k : Wave) (c : F), p < 128 →
    Q s.sr s.len (s.voice v) → Q s.sr s.len ((vStart ksv v p vel d b k c s).voice v)
  stop : ∀ sr len r, Q sr len r → Q sr len { r with active := false }
  render : ∀ (v : Fin 16) (s : State), (s.voice v).active = true →
    Q s.sr s.len (s.voice v) → Q s.sr s.len (renderedVoice ksv v s)

theorem runs_keeps_voices {Q : F → BitVec 32 → Voice → Prop} (hQ : VoiceInvariant Q) {i : Instr} {s t : State}
    (hi : i.wellFormed = true) (hs : InPrepared Q s) (h : Runs i s t) : InPrepared Q t := by
  cases h with
  | nop | setp | fault | full => exact hs
  | @prepare b r _ hp =>
    simp only [prepareAcceptable, Bool.and_eq_true] at hp
    intro _ v
    have hz : (prepareState ksv b r s).voice v = Voice.zero := voice_mk_replicate s Voice.zero v
    rw [hz]
    exact hQ.prepare _ hp.2
  | start p x v _ =>
    have hp : p < 128 := by simpa [Instr.wellFormed] using hi
    intro hprep u
    by_cases hu : u = v
    · subst hu; exact hQ.start u s p x _ _ _ _ hp (hs hprep u)
    · rw [vStart_voice_ne _ _ _ _ _ _ _ _ _ hu]; exact hs hprep u
  | noteoff hp =>
    intro _ v
    rw [poolNoteoff_voice, poolNoteoff_frame]
    exact hQ.stop _ _ _ (hs hp v)
  | render hr =>
    have hrk : RenderKeeps ksv s.sr s.len fun _ : Fin 16 => Q s.sr s.len := by
      intro v t hsr hlen ha hv
      rw [← hsr, ← hlen] at hv ⊢
      exact hQ.render v t ha hv
    obtain ⟨hsr, hlen, hv⟩ := fxBlock_keeps_voices hrk _ s.params.gain s.params.lowcut s.params.tremrate
      s.params.tremdepth s.params.revsize s.params.revmix ⟨rfl, rfl, hs hr.1⟩
    intro _ v
    rw [hsr, hlen]
    exact hv v

theorem step_keeps_voices {Q : F → BitVec 32 → Voice → Prop} (hQ : VoiceInvariant Q) {s t : State}
    (hs : InPrepared Q s) (h : step s = .next t) : InPrepared Q t :=
  step_keeps (P := InPrepared Q) (fun _ _ _ _ h => h) (fun _ _ hp => absurd hp Bool.false_ne_true)
    (fun _ _ h => h) (fun _ _ _ => runs_keeps_voices hQ) hs h

/-! ### Exciter gains (10_state R27, 42_exciter R148) -/

theorem fge_clamp0 (g : F) : fge (clamp0 g) fZero = true := by
  unfold clamp0
  split
  next h => exact fge_of_fgt h
  next => decide +kernel

theorem fge_nextGain {r : Voice cw} {sr : F} (h : fge r.exGain fZero = true) : fge (nextGain r sr) fZero = true := by
  unfold nextGain
  split
  · exact fge_clamp0 _
  · exact h

theorem voiceInvariant_exGain : VoiceInvariant fun _ _ r => fge r.exGain fZero = true where
  prepare _ _ := by decide +kernel
  start v s p vel d b k c _ _ := by
    rw [vStart_voice_same]
    change fge fOne fZero = true
    decide +kernel
  stop _ _ _ h := h
  render _ _ _ h := fge_nextGain h

/-! ### Phases (10_state R31 (I4), R40, 44_voice R178, 46_global_effects R206) -/

/-- A rate that PREPARE accepts is positive, at least one half. -/
theorem rate_bounds {sr : F} (h : rateAcceptable ksv sr = true) :
    isFinite sr = true ∧ signBit sr = false ∧ unit ≤ 2 * unitsOf (magBits sr) := by
  obtain ⟨hfin, h1, _⟩ := (rateAcceptable_ksv sr).mp h
  unfold roundHalfAway at h1
  rw [if_pos hfin] at h1
  cases hs : signBit sr with
  | true =>
    rw [hs, if_pos rfl] at h1
    exact absurd h1 (not_le_of_gt (lt_of_le_of_lt (neg_nonpos.mpr (Int.natCast_nonneg _)) one_pos))
  | false =>
    rw [hs, if_neg Bool.false_ne_true] at h1
    have hq : 1 ≤ (2 * unitsOf (magBits sr) + unit) / (2 * unit) := by exact_mod_cast h1
    have hpos : 0 < 2 * unit := by have := unit_pos; omega
    rw [Nat.le_div_iff_mul_le hpos] at hq
    exact ⟨hfin, rfl, by omega⟩

/-- Every entry of the pitch table is positive and below `2^14` Hz. -/
theorem pitchRom_bounds : ∀ p, p < 128 → signBit (pitchRom p) = false ∧ magBits (pitchRom p) < 141 * 2 ^ 23 := by
  decide +kernel

theorem NoteOfRom.freq_bounds {r : Voice cw} (h : NoteOfRom r) :
    signBit r.freqHz = false ∧ magBits r.freqHz < 141 * 2 ^ 23 := by
  rcases h with ⟨hf, _⟩ | ⟨p, hp, hf, _⟩
  · rw [hf]; decide
  · rw [hf]; exact pitchRom_bounds p hp

/-- A quotient of values that are not negative, below a power of two, is finite, not negative and not above it. -/
theorem fdiv_bounds {a b : F} {K : Nat} (ha : isFinite a = true) (hb : isFinite b = true) (hsa : signBit a = false)
    (hsb : signBit b = false) (hz : isZero b = false) (hK : 24 ≤ K) (hK' : K ≤ 276)
    (h : unitsOf (magBits a) * unit / unitsOf (magBits b) < 2 ^ K) :
    isFinite (fdiv a b) = true ∧ 0 ≤ fixOf (fdiv a b) ∧ fixOf (fdiv a b) ≤ ((2 ^ K : Nat) : Int) := by
  obtain ⟨hfin, hle⟩ := unitsOf_roundMag_le hK hK' h
  unfold fdiv
  simp only [isNaN_eq_false_of_isFinite ha, isNaN_eq_false_of_isFinite hb, isInf_eq_false_of_isFinite ha,
    isInf_eq_false_of_isFinite hb, hsa, hsb, hz, Bool.or_self, Bool.and_false, Bool.false_eq_true, if_false,
    bne_self_eq_false]
  rw [fixOf_makeF false (roundMag_lt _ _)]
  simp only [Bool.false_eq_true, if_false]
  exact ⟨isFinite_makeF false hfin, Int.natCast_nonneg _, by exact_mod_cast hle⟩

/-- The phase of a voice stays in `[0, 1)`: neither the increment nor the sum overflows, and `wrap1` is exact. -/
theorem inUnit_nextPhase {r : Voice cw} {sr : F} (hsr : rateAcceptable ksv sr = true) (hphase : inUnit r.phase = true)
    (hnote : NoteOfRom r) : inUnit (nextPhase r.phase r.freqHz sr) = true := by
  obtain ⟨hsrf, hsrs, hsru⟩ := rate_bounds hsr
  obtain ⟨hfs, hfm⟩ := hnote.freq_bounds
  obtain ⟨hpf, hp0, hp1⟩ := inUnit_iff.mp hphase
  have hff : isFinite r.freqHz = true := isFinite_iff.mpr (lt_trans hfm (by decide))
  have hpos := unit_pos
  have hsrz : isZero sr = false := by
    simp only [isZero, beq_eq_false_iff_ne]
    intro hz
    rw [hz, unitsOf_zero] at hsru
    omega
  have hfu : unitsOf (magBits r.freqHz) < 2 ^ 163 := by
    rw [← unitsOf_pow (k := 141) (by norm_num)]
    exact unitsOf_lt_iff.mpr hfm
  have hquot : unitsOf (magBits r.freqHz) * unit / unitsOf (magBits sr) < 2 ^ 164 := by
    have hle : unitsOf (magBits r.freqHz) * unit / unitsOf (magBits sr) ≤ 2 * unitsOf (magBits r.freqHz) := by
      apply Nat.div_le_of_le_mul
      calc unitsOf (magBits r.freqHz) * unit
          ≤ unitsOf (magBits r.freqHz) * (2 * unitsOf (magBits sr)) := Nat.mul_le_mul_left _ hsru
        _ = unitsOf (magBits sr) * (2 * unitsOf (magBits r.freqHz)) := by ring
    omega
  obtain ⟨hdf, hd0, hd1⟩ := fdiv_bounds hff hsrf hfs hsrs hsrz (by norm_num) (by norm_num) hquot
  have hunit : (unit : Int) = 2 ^ 149 := by unfold unit; norm_num
  have hsum : fixOf r.phase + fixOf (fdiv r.freqHz sr) < ((2 ^ 165 : Nat) : Int) := by
    rw [hunit] at hp1
    push_cast at hd1 ⊢
    omega
  obtain ⟨haf, ha0, _⟩ := addCore_bounds (nanOf .add r.phase (fdiv r.freqHz sr)) hpf hdf (by omega) (by norm_num)
    (by norm_num) hsum
  unfold nextPhase fadd
  exact inUnit_wrap1 haf ha0

/-- An acceptable rate, a phase in `[0, 1)` and a note of the pitch table. -/
def PhaseShape (sr : F) (r : Voice) : Prop := rateAcceptable ksv sr = true ∧ inUnit r.phase = true ∧ NoteOfRom r

theorem voiceInvariant_phaseShape : VoiceInvariant fun sr _ r => PhaseShape sr r where
  prepare _ hr := ⟨hr, by decide +kernel, .inl ⟨rfl, rfl⟩⟩
  start v s p vel d b k c hp h := by
    obtain ⟨hsr, hphase, _⟩ := h
    rw [vStart_voice_same]
    exact ⟨hsr, hphase, .inr ⟨p, hp, rfl, rfl⟩⟩
  stop _ _ _ h := h
  render _ _ _ h := by
    obtain ⟨hsr, hphase, hnote⟩ := h
    exact ⟨hsr, inUnit_nextPhase hsr hphase hnote, hnote⟩

/-- A tremolo phase in `[0, 1]`, or a NaN (10_state R40). -/
def TphBounded (x : F) : Prop := isNaN x = true ∨ (fge x fZero = true ∧ fge fOne x = true)

theorem tphBounded_wrap1 (x : F) : TphBounded (wrap1 x) := by
  cases hx : isFinite x with
  | false => exact .inl (isNaN_wrap1 hx)
  | true =>
    obtain ⟨_, h0, h1⟩ := wrap1_bounds hx
    exact .inr ⟨h0, h1⟩

theorem tphBounded_nextTph (rate tph sr : F) : TphBounded (nextTph rate tph sr) := tphBounded_wrap1 _

theorem tphBounded_fZero : TphBounded fZero := by unfold TphBounded; decide +kernel

/-- The tremolo phase of a prepared engine is bounded. -/
def TphInPrepared (s : State) : Prop := s.prepared = true → TphBounded s.tph

theorem runs_keeps_tph {i : Instr} {s t : State} (hs : TphInPrepared s) (h : Runs i s t) : TphInPrepared t := by
  cases h with
  | nop | setp | fault | full | start => exact hs
  | prepare => exact fun _ => tphBounded_fZero
  | noteoff => rw [poolNoteoff_frame]; unfold TphInPrepared; exact hs
  | render hr => exact fun _ => fxBlock_tph (P := TphBounded) (tphBounded_nextTph _) _ _ _ _ _ _ (hs hr.1)

theorem step_keeps_tph {s t : State} (hs : TphInPrepared s) (h : step s = .next t) : TphInPrepared t :=
  step_keeps (P := TphInPrepared) (fun _ _ _ _ h => h) (fun _ _ hp => absurd hp Bool.false_ne_true)
    (fun _ _ h => h) (fun _ _ _ _ => runs_keeps_tph) hs h

/-! ### Cursors (10_state R31 (I1), (I2), (I5), 44_voice R176, R181) -/

/-- A remainder by the buffer length fits in its register. -/
theorem toNat_cursorOf_emod (a : Int) {len : BitVec cw} (hlen : 1 ≤ len.toNat) :
    ((cursorOf (emod a (len.toNat : Int)) : BitVec cw).toNat : Int) = a % (len.toNat : Int) := by
  have hpos : (0 : Int) < (len.toNat : Int) := by omega
  have h0 := Int.emod_nonneg a (ne_of_gt hpos)
  have h1 := Int.emod_lt_of_pos a hpos
  have hlt : (len.toNat : Int) < ((2 ^ cw : Nat) : Int) := by exact_mod_cast len.isLt
  unfold cursorOf emod
  rw [BitVec.toNat_ofInt, Int.emod_eq_of_lt h0 (lt_trans h1 hlt), Int.toNat_of_nonneg h0]

theorem toNat_cursorOf_emod_lt (a : Int) {len : BitVec cw} (hlen : 1 ≤ len.toNat) :
    (cursorOf (emod a (len.toNat : Int)) : BitVec cw).toNat < len.toNat := by
  have h := toNat_cursorOf_emod a hlen
  have h1 := Int.emod_lt_of_pos a (b := (len.toNat : Int)) (by omega)
  omega

/-- Both cursors advance together, so that their distance modulo the buffer length is kept. -/
theorem renderedVoice_rc (cfg : Engine) (v : Fin nv) {s : State nv cw} (hlen : 1 ≤ s.len.toNat) :
    ((renderedVoice cfg v s).rc.toNat : Int) =
      emod (((renderedVoice cfg v s).wc.toNat : Int) - delaySamples cfg v s) s.len.toNat := by
  change ((stepCursor (soughtCursor cfg v s) s.len).toNat : Int) =
    emod (((stepCursor (s.voice v).wc s.len).toNat : Int) - delaySamples cfg v s) s.len.toNat
  unfold stepCursor soughtCursor
  rw [toNat_cursorOf_emod _ hlen, toNat_cursorOf_emod _ hlen, toNat_cursorOf_emod _ hlen]
  unfold emod
  rw [Int.emod_add_emod, Int.emod_sub_emod, sub_add_eq_add_sub]

/-- Both cursors lie in the buffer, and nothing is stored outside it. -/
def CursorShape (len : BitVec 32) (r : Voice) : Prop :=
  r.wc.toNat < len.toNat ∧ r.rc.toNat < len.toNat ∧ Memory.below len.toNat r.buf = true

/-- The buffer length an acceptable rate gives fits in its register. -/
theorem toNat_prepared_len {r : F} (h : rateAcceptable ksv r = true) :
    ((cursorOf (bufLength ksv r) : BitVec 32).toNat : Int) = roundHalfAway r := by
  obtain ⟨hfin, h1, h2⟩ := (rateAcceptable_ksv r).mp h
  have hlt : roundHalfAway r < ((2 ^ 32 : Nat) : Int) := by
    unfold maxLen at h2
    push_cast at h2 ⊢
    omega
  rw [bufLength_ksv hfin, cursorOf, BitVec.toNat_ofInt, Int.emod_eq_of_lt (by omega) hlt,
    Int.toNat_of_nonneg (by omega)]

theorem voiceInvariant_cursorShape : VoiceInvariant fun _ len r => CursorShape len r where
  prepare r hr := by
    obtain ⟨_, h1, _⟩ := (rateAcceptable_ksv r).mp hr
    have hlen := toNat_prepared_len hr
    have hpos : 0 < (cursorOf (bufLength ksv r) : BitVec 32).toNat := by omega
    exact ⟨hpos, hpos, rfl⟩
  start v s p vel d b k c _ h := by
    obtain ⟨hwc, hrc, hbuf⟩ := h
    rw [vStart_voice_same]
    exact ⟨Nat.zero_lt_of_lt hwc, hrc, hbuf⟩
  stop _ _ _ h := h
  render v s _ h := by
    obtain ⟨hwc, _, hbuf⟩ := h
    have hlen : 1 ≤ s.len.toNat := Nat.zero_lt_of_lt hwc
    exact ⟨toNat_cursorOf_emod_lt _ hlen, toNat_cursorOf_emod_lt _ hlen, below_memWrite hbuf hwc _⟩

/-! ### The configuration and the scratch memories (10_state R34, 20_memory R63) -/

/-- In a prepared engine the rate, `LEN` and `BLOCK_SIZE` are in their ranges. -/
def ConfigShape (s : State) : Prop :=
  s.prepared = true →
    rateAcceptable ksv s.sr = true ∧ (s.len.toNat : Int) = roundHalfAway s.sr ∧
    1 ≤ s.len.toNat ∧ s.len.toNat ≤ maxLen ∧ 1 ≤ s.blockSize.toNat ∧ s.blockSize.toNat ≤ maxBlock

theorem configShape_prepareState {b : Nat} {r : F} (s : State) (h : prepareAcceptable ksv b r = true) :
    ConfigShape (prepareState ksv b r s) := by
  intro _
  simp only [prepareAcceptable, blockSizeAcceptable, Bool.and_eq_true, decide_eq_true_eq] at h
  obtain ⟨⟨hb1, hb2⟩, hr⟩ := h
  rw [ksv_maxBlock] at hb2
  obtain ⟨_, h1, h2⟩ := (rateAcceptable_ksv r).mp hr
  have hlen := toNat_prepared_len hr
  have hb : (zextN b : BitVec 32).toNat = b := by
    rw [zextN, BitVec.toNat_ofNat]
    exact Nat.mod_eq_of_lt (by omega)
  rw [prepareState_sr, prepareState_len, prepareState_blockSize, hb]
  exact ⟨hr, hlen, by omega, by omega, hb1, hb2⟩

/-- PREPARE alone writes `SR`, `LEN`, `BLOCK_SIZE` and sets `PREPARED` (10_state R34, R44). -/
theorem runs_keeps_config {i : Instr} {s t : State} (h : Runs i s t) (hi : ∀ b r, i ≠ .prepare b r) :
    t.sr = s.sr ∧ t.len = s.len ∧ t.blockSize = s.blockSize ∧ t.prepared = s.prepared := by
  cases h with
  | nop | setp | fault | full | start => exact ⟨rfl, rfl, rfl, rfl⟩
  | prepare => exact absurd rfl (hi _ _)
  | noteoff => rw [poolNoteoff_frame]; exact ⟨rfl, rfl, rfl, rfl⟩
  | render => rw [fxBlock_frame]; exact ⟨rfl, rfl, rfl, rfl⟩

theorem runs_keeps_configShape {i : Instr} {s t : State} (hs : ConfigShape s) (h : Runs i s t) : ConfigShape t := by
  by_cases hi : ∀ b r, i ≠ .prepare b r
  · obtain ⟨hsr, hlen, hb, hp⟩ := runs_keeps_config h hi
    unfold ConfigShape
    rw [hsr, hlen, hb, hp]
    exact hs
  · push Not at hi
    obtain ⟨b, r, rfl⟩ := hi
    cases h with
    | prepare _ hp => exact configShape_prepareState s hp
    | fault => exact hs
    | setp _ _ _ hset => exact absurd hset Bool.false_ne_true

theorem runs_keeps_scratchBelow {i : Instr} {s t : State} (hc : ConfigShape s) (hs : ScratchBelow maxBlock s)
    (h : Runs i s t) : ScratchBelow maxBlock t := by
  cases h with
  | nop | setp | fault | full | prepare | start => exact hs
  | noteoff => rw [poolNoteoff_frame]; unfold ScratchBelow; exact hs
  | render hr =>
    obtain ⟨hp, _, hn, _⟩ := hr
    obtain ⟨_, _, _, _, _, hb⟩ := hc hp
    exact fxBlock_scratchBelow ksv (le_trans hn hb) _ _ _ _ _ _ hs

theorem step_keeps_config {s t : State} (hs : ConfigShape s ∧ ScratchBelow maxBlock s) (h : step s = .next t) :
    ConfigShape t ∧ ScratchBelow maxBlock t :=
  step_keeps (P := fun s => ConfigShape s ∧ ScratchBelow maxBlock s) (fun _ _ _ _ h => h)
    (fun _ hs => ⟨fun hp => absurd hp Bool.false_ne_true, hs.2⟩) (fun _ _ h => h)
    (fun _ _ _ _ hs h => ⟨runs_keeps_configShape hs.1 h, runs_keeps_scratchBelow hs.1 hs.2 h⟩) hs h

/-- The shape of a prepared engine is that of its configuration, of its voices and of its scratch memories. -/
theorem preparedShape_iff (s : State) :
    PreparedShape s ↔
      (ConfigShape s ∧ ScratchBelow maxBlock s) ∧ InPrepared (fun _ len r => CursorShape len r) s := by
  constructor
  · rintro ⟨hprep, hscratch⟩
    refine ⟨⟨fun hp => ?_, hscratch⟩, fun hp v => ?_⟩
    · obtain ⟨h1, h2, h3, h4, h5, h6, _⟩ := hprep hp
      exact ⟨h1, h2, h3, h4, h5, h6⟩
    · obtain ⟨_, _, _, _, _, _, hv⟩ := hprep hp
      exact hv v
  · rintro ⟨⟨hc, hscratch⟩, hv⟩
    refine ⟨fun hp => ?_, hscratch⟩
    obtain ⟨h1, h2, h3, h4, h5, h6⟩ := hc hp
    exact ⟨h1, h2, h3, h4, h5, h6, hv hp⟩

/-! ### Fault and cause (10_state R44, 60_exceptions R257) -/

theorem faultCoded_raiseFault (c : Cause) (s : State nv cw) : FaultCoded (raiseFault c s) := by
  unfold FaultCoded
  rw [raiseFault_fault, raiseFault_cause]
  cases c <;> decide

/-- A command keeps `FAULT` and `CAUSE`, or enters the fault state with a cause of its own. -/
theorem runs_fault_cases {i : Instr} {s t : State} (h : Runs i s t) :
    (t.fault = s.fault ∧ t.cause = s.cause) ∨ ∃ c, MayRaise i c ∧ t = raiseFault c s := by
  cases h with
  | nop | setp => exact .inl ⟨rfl, rfl⟩
  | fault _ hc => exact .inr ⟨_, hc, rfl⟩
  | full | prepare | start => exact .inl ⟨rfl, rfl⟩
  | noteoff => rw [poolNoteoff_frame]; exact .inl ⟨rfl, rfl⟩
  | render => rw [fxBlock_frame]; exact .inl ⟨rfl, rfl⟩

theorem runs_keeps_faultCoded {i : Instr} {s t : State} (hs : FaultCoded s) (h : Runs i s t) : FaultCoded t := by
  rcases runs_fault_cases h with ⟨hf, hc⟩ | ⟨c, _, rfl⟩
  · unfold FaultCoded
    rw [hf, hc]
    exact hs
  · exact faultCoded_raiseFault c s

/-! ### Which command writes which register (10_state R22) -/

/-- SETP alone writes `P` and `PVALID` (10_state R37). -/
theorem runs_keeps_params {i : Instr} {s t : State} (h : Runs i s t) (hi : isSetp i = false) :
    t.params = s.params ∧ t.pvalid = s.pvalid := by
  cases h with
  | nop => exact ⟨rfl, rfl⟩
  | setp _ _ _ hset => exact absurd (hset.symm.trans hi) (by decide)
  | fault | full | prepare | start => exact ⟨rfl, rfl⟩
  | noteoff => rw [poolNoteoff_frame]; exact ⟨rfl, rfl⟩
  | render => rw [fxBlock_frame]; exact ⟨rfl, rfl⟩

/-- RENDER alone writes `NOISE_STATE`, the output port and the scratch memories (10_state R42, R46). -/
theorem runs_keeps_port {i : Instr} {s t : State} (h : Runs i s t) (hi : ∀ n, i ≠ .render n) :
    t.noiseState = s.noiseState ∧ t.outQueue = s.outQueue ∧ t.emitting = s.emitting ∧
      t.dry = s.dry ∧ t.wetL = s.wetL ∧ t.wetR = s.wetR := by
  cases h with
  | nop | setp | fault | full | prepare | start => exact ⟨rfl, rfl, rfl, rfl, rfl, rfl⟩
  | noteoff => rw [poolNoteoff_frame]; exact ⟨rfl, rfl, rfl, rfl, rfl, rfl⟩
  | render => exact absurd rfl (hi _)

/-- PREPARE and RENDER alone write the effects state (10_state R39, R40, R46). -/
theorem runs_keeps_effects {i : Instr} {s t : State} (h : Runs i s t) (hp : ∀ b r, i ≠ .prepare b r)
    (hr : ∀ n, i ≠ .render n) : t.hp = s.hp ∧ t.tph = s.tph ∧ t.rvState = s.rvState := by
  cases h with
  | nop | setp | fault | full | start => exact ⟨rfl, rfl, rfl⟩
  | prepare => exact absurd rfl (hp _ _)
  | noteoff => rw [poolNoteoff_frame]; exact ⟨rfl, rfl, rfl⟩
  | render => exact absurd rfl (hr _)

/-- No command writes the host's list, and none takes `PREPARED` back (10_state R44). -/
theorem runs_keeps_prepared {i : Instr} {s t : State} (h : Runs i s t) :
    (s.prepared = true → t.prepared = true) ∧ t.hostIn = s.hostIn := by
  cases h with
  | nop | setp | fault | full | start => exact ⟨id, rfl⟩
  | prepare => exact ⟨fun _ => rfl, rfl⟩
  | noteoff => rw [poolNoteoff_frame]; exact ⟨id, rfl⟩
  | render => rw [fxBlock_frame]; exact ⟨id, rfl⟩

/-- `FAULT` and `CAUSE` are written with a cause of the command's own (60_exceptions R257). -/
theorem runs_writes_own_cause {i : Instr} {s t : State} (h : Runs i s t) :
    (t.fault = s.fault ∧ t.cause = s.cause) ∨
      (t.fault = true ∧
        ((∃ b r, i = .prepare b r ∧ t.cause = 3) ∨ (∃ p x, i = .noteon p x ∧ (t.cause = 2 ∨ t.cause = 5)) ∨
          (i = .noteoff ∧ t.cause = 2) ∨ (∃ n, i = .render n ∧ (t.cause = 2 ∨ t.cause = 4 ∨ t.cause = 5)))) := by
  rcases runs_fault_cases h with hkept | ⟨c, hc, rfl⟩
  · exact .inl hkept
  · refine .inr ⟨rfl, ?_⟩
    cases i with
    | prepare b r => cases hc; exact .inl ⟨b, r, rfl, rfl⟩
    | noteon p x =>
      refine .inr (.inl ⟨p, x, rfl, ?_⟩)
      rcases hc with rfl | rfl
      · exact .inl rfl
      · exact .inr rfl
    | noteoff => cases hc; exact .inr (.inr (.inl ⟨rfl, rfl⟩))
    | render n =>
      refine .inr (.inr (.inr ⟨n, rfl, ?_⟩))
      rcases hc with rfl | rfl | rfl
      · exact .inl rfl
      · exact .inr (.inl rfl)
      · exact .inr (.inr rfl)
    | _ => exact absurd hc id

/-- The registers of a voice that a NOTEON sets and a RENDER only reads (10_state R25, R26, R29, R30). -/
def SameNote (r q : Voice) : Prop :=
  q.freqHz = r.freqHz ∧ q.delayTime = r.delayTime ∧ q.decay = r.decay ∧ q.burst = r.burst ∧ q.wave = r.wave ∧
    q.noteGain = r.noteGain ∧ q.lp.b0 = r.lp.b0 ∧ q.lp.b1 = r.lp.b1 ∧ q.lp.a1 = r.lp.a1

theorem SameNote.refl (r : Voice) : SameNote r r := ⟨rfl, rfl, rfl, rfl, rfl, rfl, rfl, rfl, rfl⟩

/-- A `V.RENDER` writes neither `active` nor a register of the note (44_voice R171). -/
theorem renderKeeps_sameNote (s : State) :
    RenderKeeps ksv s.sr s.len fun v q => q.active = (s.voice v).active ∧ SameNote (s.voice v) q :=
  fun _ _ _ _ _ h => h

theorem render_keeps_note (s : State) (n : Nat) (gain lowCut rate depth size mix : F) (v : Fin 16) :
    let q := (fxBlock ksv n gain lowCut rate depth size mix s).voice v
    q.active = (s.voice v).active ∧ SameNote (s.voice v) q := by
  obtain ⟨_, _, hv⟩ := fxBlock_keeps_voices (renderKeeps_sameNote s) n gain lowCut rate depth size mix
    ⟨rfl, rfl, fun u => ⟨rfl, SameNote.refl (s.voice u)⟩⟩
  exact hv v

/-- PREPARE, NOTEON and NOTEOFF alone write `active` (10_state R23). -/
theorem runs_keeps_active {i : Instr} {s t : State} (h : Runs i s t) (hp : ∀ b r, i ≠ .prepare b r)
    (hn : ∀ p x, i ≠ .noteon p x) (ho : i ≠ .noteoff) (v : Fin 16) : (t.voice v).active = (s.voice v).active := by
  cases h with
  | nop | setp | fault | full => rfl
  | prepare => exact absurd rfl (hp _ _)
  | start => exact absurd rfl (hn _ _)
  | noteoff => exact absurd rfl ho
  | render => exact (render_keeps_note s _ _ _ _ _ _ _ v).1

/-- PREPARE and NOTEON alone write the registers of the note. -/
theorem runs_keeps_note {i : Instr} {s t : State} (h : Runs i s t) (hp : ∀ b r, i ≠ .prepare b r)
    (hn : ∀ p x, i ≠ .noteon p x) (v : Fin 16) : SameNote (s.voice v) (t.voice v) := by
  cases h with
  | nop | setp | fault | full => exact .refl _
  | prepare => exact absurd rfl (hp _ _)
  | start => exact absurd rfl (hn _ _)
  | noteoff => rw [poolNoteoff_voice]; exact .refl _
  | render => exact (render_keeps_note s _ _ _ _ _ _ _ v).2

/-- PREPARE and RENDER alone write the read cursor, the phase and the buffer: a NOTEON keeps them (44_voice R174). -/
theorem runs_keeps_line {i : Instr} {s t : State} (h : Runs i s t) (hp : ∀ b r, i ≠ .prepare b r)
    (hr : ∀ n, i ≠ .render n) (v : Fin 16) :
    (t.voice v).rc = (s.voice v).rc ∧ (t.voice v).phase = (s.voice v).phase ∧ (t.voice v).buf = (s.voice v).buf := by
  cases h with
  | nop | setp | fault | full => exact ⟨rfl, rfl, rfl⟩
  | prepare => exact absurd rfl (hp _ _)
  | start _ _ u =>
    by_cases hv : v = u
    · subst hv; rw [vStart_voice_same]; exact ⟨rfl, rfl, rfl⟩
    · rw [vStart_voice_ne _ _ _ _ _ _ _ _ _ hv]; exact ⟨rfl, rfl, rfl⟩
  | noteoff => rw [poolNoteoff_voice]; exact ⟨rfl, rfl, rfl⟩
  | render => exact absurd rfl (hr _)

/-- PREPARE, NOTEON and RENDER alone write the write cursor, the gain and the filter's internal state. -/
theorem runs_keeps_running {i : Instr} {s t : State} (h : Runs i s t) (hp : ∀ b r, i ≠ .prepare b r)
    (hn : ∀ p x, i ≠ .noteon p x) (hr : ∀ n, i ≠ .render n) (v : Fin 16) :
    (t.voice v).wc = (s.voice v).wc ∧ (t.voice v).exGain = (s.voice v).exGain ∧
      (t.voice v).lp.x1 = (s.voice v).lp.x1 ∧ (t.voice v).lp.y1 = (s.voice v).lp.y1 := by
  cases h with
  | nop | setp | fault | full => exact ⟨rfl, rfl, rfl, rfl⟩
  | prepare => exact absurd rfl (hp _ _)
  | start => exact absurd rfl (hn _ _)
  | noteoff => rw [poolNoteoff_voice]; exact ⟨rfl, rfl, rfl, rfl⟩
  | render => exact absurd rfl (hr _)

/-! ### The obligations -/

/-- Settles O56: the configuration, the scratch memories and the voices are three invariants of the step. -/
theorem everyStepKeepsCursorsInBounds : Obligations.EveryStepKeepsCursorsInBounds := by
  intro s t hs h
  obtain ⟨hc, hv⟩ := (preparedShape_iff s).mp hs
  exact (preparedShape_iff t).mpr ⟨step_keeps_config hc h, step_keeps_voices voiceInvariant_cursorShape hv h⟩

/-- Settles O57: the rate is acceptable by the prepared shape, so no phase advance overflows and `wrap1` is exact. -/
theorem everyStepKeepsPhasesInUnit : Obligations.EveryStepKeepsPhasesInUnit := by
  intro s t hshape hs h
  have hvoices : InPrepared (fun sr _ r => PhaseShape sr r) s := fun hp v => ⟨(hshape.1 hp).1, (hs hp).1 v⟩
  have htph : TphInPrepared s := fun hp => (hs hp).2
  have hvoices' := step_keeps_voices voiceInvariant_phaseShape hvoices h
  have htph' := step_keeps_tph htph h
  exact fun hp => ⟨fun v => (hvoices' hp v).2, htph' hp⟩

/-- Settles O58: the gain is set to 1.0 by a start and clamped at `+0` by every decay step. -/
theorem everyStepKeepsGainsNotNegative : Obligations.EveryStepKeepsGainsNotNegative := by
  intro s t hs h
  exact step_keeps_voices voiceInvariant_exGain hs h

/-- Settles O59: fault entry records a code from 1 to 5, reset clears it, and nothing else writes either register. -/
theorem everyStepKeepsFaultsCoded : Obligations.EveryStepKeepsFaultsCoded := by
  intro s t hs h
  refine step_keeps (P := FaultCoded) (fun _ _ _ _ h => h) (fun s _ => ?_) (fun c s _ => faultCoded_raiseFault c s)
    (fun _ _ _ _ => runs_keeps_faultCoded) hs h
  exact ⟨⟨fun _ => rfl, fun _ => rfl⟩, Nat.zero_le 5⟩

/-- Settles O26, register by register from the ways a command can leave the engine. -/
theorem registersHaveTheirNamedWriters : Obligations.RegistersHaveTheirNamedWriters := by
  intro i s t h noPrepare noNoteon noRender
  have hruns := exec_runs h
  obtain ⟨hprepared, hhost⟩ := runs_keeps_prepared hruns
  refine ⟨fun hi => runs_keeps_params hruns ?_, runs_keeps_port hruns, runs_keeps_config hruns, hprepared, hhost,
    runs_keeps_effects hruns, runs_writes_own_cause hruns, fun v =>
      ⟨fun hp hn ho => runs_keeps_active hruns hp hn ho v, fun hp hn => runs_keeps_note hruns hp hn v,
        fun hp hr => runs_keeps_line hruns hp hr v, fun hp hn hr => runs_keeps_running hruns hp hn hr v⟩⟩
  rcases hi with rfl | ⟨_, _, rfl⟩ | ⟨_, _, rfl⟩ | rfl | ⟨_, rfl⟩ <;> rfl

/-- Settles O31: the read cursor is sought at its distance before the sample, and both cursors then advance by one. -/
theorem cursorsKeepTheirDistance : Obligations.CursorsKeepTheirDistance := by
  intro nv cw cfg v s hactive hlen t
  have hvoice : t.voice v = renderedVoice cfg v s := vRender_voice_same cfg hactive
  have hdelay : delaySamples cfg v t = delaySamples cfg v s := by
    unfold delaySamples
    rw [hvoice, vRender_sr]
    rfl
  rw [hdelay, hvoice]
  exact ⟨renderedVoice_rc cfg v hlen, rfl⟩

/-- Settles O13: `active_o` is assembled bit by bit from the voices, gated by `PREPARED`. -/
theorem statusWiresShowTheRegisters : Obligations.StatusWiresShowTheRegisters := by
  intro s
  refine ⟨rfl, rfl, rfl, fun v => ?_⟩
  unfold activeO
  rw [BitVec.getLsbD_ofFnLE]
  simp

end Sys2Proof.Machine
end

section
/-! PROOFS. The statements about the memories: every step keeps their canonical form (log 1), and what a RENDER makes
of one voice does not depend on the others (20_memory R62, R72, 42_exciter R147). -/

namespace Sys2Proof.Machine

open Sys2Proof.Config

variable {nv cw : Nat}

/-! ### Canonical memories (20_memory R60, R61, R65, log 1) -/

/-- The scratch memories `DRY`, `WETL` and `WETR` are in canonical form. -/
def ScratchCanonical (s : State nv cw) : Prop :=
  Memory.wf s.dry = true ∧ Memory.wf s.wetL = true ∧ Memory.wf s.wetR = true

/-- The delay buffer of every voice is in canonical form. -/
def BuffersCanonical (s : State nv cw) : Prop := ∀ v, Memory.wf (s.voice v).buf = true

theorem memoriesCanonical_iff (s : State nv cw) : MemoriesCanonical s ↔ ScratchCanonical s ∧ BuffersCanonical s := by
  unfold MemoriesCanonical ScratchCanonical BuffersCanonical
  rw [and_assoc, and_assoc]

theorem DryChange.keeps_wet {s t : State nv cw} (h : DryChange s t) : t.wetL = s.wetL ∧ t.wetR = s.wetR := by
  unfold DryChange at h
  rw [h]
  exact ⟨rfl, rfl⟩

theorem dryPass_scratchCanonical (cfg : Engine) (n : Nat) (rate depth : F) {s : State nv cw}
    (hs : ScratchCanonical s) : ScratchCanonical (dryPass cfg n rate depth s) := by
  refine forIndex_keeps (P := ScratchCanonical) hs fun i _ t ⟨hd, hl, hr⟩ => ?_
  obtain ⟨x, hx⟩ := drySample_dry cfg rate depth i t
  obtain ⟨hwl, hwr⟩ := (drySample_frame cfg rate depth i t).keeps_wet
  unfold ScratchCanonical
  rw [hx, hwl, hwr]
  exact ⟨wf_memWrite hd i x, hl, hr⟩

theorem copyPass_scratchCanonical (n : Nat) {s : State nv cw} (hs : ScratchCanonical s) :
    ScratchCanonical (copyPass n s) :=
  forIndex_keeps (P := ScratchCanonical) hs fun i _ _ ⟨hd, hl, hr⟩ => ⟨hd, wf_memWrite hl i _, wf_memWrite hr i _⟩

/-- A block reaches its scratch memories by `MemWrite` only (46_global_effects R201). -/
theorem fxBlock_scratchCanonical (cfg : Engine) (n : Nat) (gain lowCut rate depth size mix : F) {s : State nv cw}
    (hs : ScratchCanonical s) : ScratchCanonical (fxBlock cfg n gain lowCut rate depth size mix s) := by
  obtain ⟨hd, hl, hr⟩ := copyPass_scratchCanonical n
    (dryPass_scratchCanonical cfg n rate depth (s := hpRetune cfg lowCut s) hs)
  exact ⟨hd, wf_writeWords hl n _, wf_writeWords hr n _⟩

/-- A `V.RENDER` reaches its buffer by one `MemWrite` (44_voice R171). -/
theorem renderKeeps_canonical (cfg : Engine) (sr : F) (len : BitVec cw) :
    RenderKeeps cfg sr len fun (_ : Fin nv) r => Memory.wf r.buf = true :=
  fun _ _ _ _ _ h => wf_memWrite h _ _

theorem fxBlock_buffersCanonical (cfg : Engine) (n : Nat) (gain lowCut rate depth size mix : F) {s : State nv cw}
    (hs : BuffersCanonical s) : BuffersCanonical (fxBlock cfg n gain lowCut rate depth size mix s) := by
  obtain ⟨_, _, hv⟩ := fxBlock_keeps_voices (renderKeeps_canonical cfg s.sr s.len) n gain lowCut rate depth size mix
    ⟨rfl, rfl, hs⟩
  exact hv

theorem runs_keeps_scratchCanonical {i : Instr} {s t : State} (hs : ScratchCanonical s) (h : Runs i s t) :
    ScratchCanonical t := by
  cases h with
  | nop | setp | fault | prepare | full | start => exact hs
  | noteoff => rw [poolNoteoff_frame]; unfold ScratchCanonical; exact hs
  | render => exact fxBlock_scratchCanonical ksv _ _ _ _ _ _ _ hs

/-- PREPARE empties every buffer, RENDER writes words, and no other command touches one. -/
theorem runs_keeps_buffersCanonical {i : Instr} {s t : State} (hs : BuffersCanonical s) (h : Runs i s t) :
    BuffersCanonical t := by
  cases h with
  | nop | setp | fault | full => exact hs
  | @prepare b r _ _ =>
    intro v
    have hzero : (prepareState ksv b r s).voice v = Voice.zero := voice_mk_replicate s Voice.zero v
    rw [hzero]
    rfl
  | start p x u hready =>
    intro v
    obtain ⟨_, _, hbuf⟩ := runs_keeps_line (.start p x u hready) (fun _ _ => nofun) (fun _ => nofun) v
    rw [hbuf]
    exact hs v
  | noteoff =>
    intro v
    rw [poolNoteoff_voice]
    exact hs v
  | render => exact fxBlock_buffersCanonical ksv _ _ _ _ _ _ _ hs

theorem runs_keeps_memoriesCanonical {i : Instr} {s t : State} (hs : MemoriesCanonical s) (h : Runs i s t) :
    MemoriesCanonical t := by
  obtain ⟨hscratch, hbuf⟩ := (memoriesCanonical_iff s).mp hs
  exact (memoriesCanonical_iff t).mpr ⟨runs_keeps_scratchCanonical hscratch h, runs_keeps_buffersCanonical hbuf h⟩

/-! ### Two engines that agree on one voice (20_memory R62, R72) -/

/-- A voice that takes no draw: it is of another kind than Noise, or its burst is over (42_exciter R147). -/
def DrawsNoNoise (r : Voice cw) : Prop := r.wave ≠ .noise ∨ fgt r.exGain fZero = false

/-- Two engines have the same rate and buffer length and the same voice `v`, which draws no noise. -/
structure AgreeOn (v : Fin nv) (s s' : State nv cw) : Prop where
  sr : s.sr = s'.sr
  len : s.len = s'.len
  voice : s.voice v = s'.voice v
  quiet : DrawsNoNoise (s.voice v)

/-- `V.RENDER` keeps the kind of a voice, and keeps a gain that has run out (42_exciter R141). -/
theorem drawsNoNoise_renderedVoice (cfg : Engine) {v : Fin nv} {s : State nv cw} (h : DrawsNoNoise (s.voice v)) :
    DrawsNoNoise (renderedVoice cfg v s) := by
  rcases h with hwave | hgain
  · exact .inl hwave
  · have hnext : (renderedVoice cfg v s).exGain = (s.voice v).exGain := by
      change nextGain (s.voice v) s.sr = _
      rw [nextGain, hgain]
      rfl
    exact .inr (by rw [hnext, hgain])

/-- Only the noise waveform reads the state, for its draw (42_exciter R145). -/
theorem waveValue_fst_of_ne_noise {k : Wave} (hk : k ≠ .noise) (p : F) (s s' : State nv cw) :
    (waveValue k p s).1 = (waveValue k p s').1 := by
  cases k with
  | noise => exact absurd rfl hk
  | _ => rfl

theorem DryChange.keeps_rate {s t : State nv cw} (h : DryChange s t) : t.sr = s.sr ∧ t.len = s.len := by
  unfold DryChange at h
  rw [h]
  exact ⟨rfl, rfl⟩

/-- The high-pass, the tremolo and the write into `DRY` reach no voice (46_global_effects R201). -/
theorem drySample_voice (cfg : Engine) (rate depth : F) (i : Nat) (s : State nv cw) (v : Fin nv) :
    (drySample cfg rate depth i s).voice v = (poolSum cfg s).2.voice v := by
  unfold drySample
  generalize poolSum cfg s = p
  rfl

/-- Two loops whose rounds keep a relation end related. -/
theorem forIndex_relates {α β : Type} {R : α → β → Prop} {n : Nat} {f : Nat → α → α} {g : Nat → β → β} {a : α} {b : β}
    (h0 : R a b) (hs : ∀ i x y, R x y → R (f i x) (g i y)) : R (forIndex n f a) (forIndex n g b) := by
  induction n with
  | zero => exact h0
  | succ n ih => exact hs n _ _ ih

namespace AgreeOn

variable {v : Fin nv} {s s' : State nv cw}

theorem delaySamples_eq (h : AgreeOn v s s') (cfg : Engine) : delaySamples cfg v s = delaySamples cfg v s' := by
  unfold delaySamples
  rw [h.voice, h.sr]

theorem soughtCursor_eq (h : AgreeOn v s s') (cfg : Engine) : soughtCursor cfg v s = soughtCursor cfg v s' := by
  unfold soughtCursor
  rw [h.delaySamples_eq cfg, h.voice, h.len]

theorem delayedSample_eq (h : AgreeOn v s s') (cfg : Engine) : delayedSample cfg v s = delayedSample cfg v s' := by
  unfold delayedSample
  rw [h.soughtCursor_eq cfg, h.voice]

theorem after_seekReadCursor (h : AgreeOn v s s') (cfg : Engine) :
    AgreeOn v (seekReadCursor cfg v s) (seekReadCursor cfg v s') where
  sr := h.sr
  len := h.len
  voice := by rw [seekReadCursor_voice_same, seekReadCursor_voice_same, h.delaySamples_eq cfg, h.voice, h.len]
  quiet := by rw [seekReadCursor_voice_same]; exact h.quiet

/-- The exciter is the one place where `V.RENDER` reads state that the voices share, and a voice that draws no noise
does not reach it (20_memory R72, 42_exciter R147). -/
theorem excSample_eq (h : AgreeOn v s s') : (excSample v s).1 = (excSample v s').1 := by
  unfold excSample
  rw [← h.voice]
  split
  next hgain =>
    rcases h.quiet with hwave | hspent
    · rw [waveValue_fst_of_ne_noise hwave _ s s']
    · exact absurd (hgain.symm.trans hspent) (by decide)
  next => rfl

theorem renderedVoice_eq (h : AgreeOn v s s') (cfg : Engine) : renderedVoice cfg v s = renderedVoice cfg v s' := by
  unfold renderedVoice
  rw [(h.after_seekReadCursor cfg).excSample_eq, h.delayedSample_eq cfg, h.soughtCursor_eq cfg, h.voice, h.sr, h.len]

/-- Rendering any voice, the agreed one or another, keeps the agreement. -/
theorem after_vRender (h : AgreeOn v s s') (cfg : Engine) (u : Fin nv) :
    AgreeOn v (vRender cfg u s).2 (vRender cfg u s').2 := by
  have hsr : (vRender cfg u s).2.sr = (vRender cfg u s').2.sr := by rw [vRender_sr, vRender_sr, h.sr]
  have hlen : (vRender cfg u s).2.len = (vRender cfg u s').2.len := by rw [vRender_len, vRender_len, h.len]
  by_cases hu : v = u
  · subst hu
    cases ha : (s.voice v).active with
    | false =>
      have ha' : (s'.voice v).active = false := by rw [← h.voice, ha]
      rw [vRender_idle cfg ha, vRender_idle cfg ha']
      exact h
    | true =>
      have ha' : (s'.voice v).active = true := by rw [← h.voice, ha]
      refine ⟨hsr, hlen, ?_, ?_⟩
      · rw [vRender_voice_same cfg ha, vRender_voice_same cfg ha', h.renderedVoice_eq cfg]
      · rw [vRender_voice_same cfg ha]
        exact drawsNoNoise_renderedVoice cfg h.quiet
  · refine ⟨hsr, hlen, ?_, ?_⟩
    · rw [vRender_voice_ne cfg s hu, vRender_voice_ne cfg s' hu, h.voice]
    · rw [vRender_voice_ne cfg s hu]
      exact h.quiet

theorem after_poolSum (h : AgreeOn v s s') (cfg : Engine) : AgreeOn v (poolSum cfg s).2 (poolSum cfg s').2 := by
  have hfold : ∀ (l : List (Fin nv)) (a a' : F × State nv cw), AgreeOn v a.2 a'.2 →
      AgreeOn v (l.foldl (sumStep cfg) a).2 (l.foldl (sumStep cfg) a').2 := by
    intro l
    induction l with
    | nil => exact fun _ _ h => h
    | cons u rest ih => exact fun _ _ h => ih _ _ (h.after_vRender cfg u)
  exact hfold _ _ _ h

theorem after_drySample (h : AgreeOn v s s') (cfg : Engine) (rate rate' depth depth' : F) (i : Nat) :
    AgreeOn v (drySample cfg rate depth i s) (drySample cfg rate' depth' i s') := by
  obtain ⟨hsr, hlen⟩ := (drySample_frame cfg rate depth i s).keeps_rate
  obtain ⟨hsr', hlen'⟩ := (drySample_frame cfg rate' depth' i s').keeps_rate
  obtain ⟨_, _, hvoice, hquiet⟩ := h.after_poolSum cfg
  refine ⟨by rw [hsr, hsr', h.sr], by rw [hlen, hlen', h.len], ?_, ?_⟩
  · rw [drySample_voice, drySample_voice, hvoice]
  · rw [drySample_voice]
    exact hquiet

theorem after_dryPass (h : AgreeOn v s s') (cfg : Engine) (n : Nat) (rate rate' depth depth' : F) :
    AgreeOn v (dryPass cfg n rate depth s) (dryPass cfg n rate' depth' s') :=
  forIndex_relates h fun i _ _ ht => ht.after_drySample cfg rate rate' depth depth' i

end AgreeOn

/-- After the dry pass a block writes no voice (46_global_effects R201). -/
theorem fxBlock_voice (cfg : Engine) (n : Nat) (gain lowCut rate depth size mix : F) (s : State nv cw) (v : Fin nv) :
    (fxBlock cfg n gain lowCut rate depth size mix s).voice v =
      (dryPass cfg n rate depth (hpRetune cfg lowCut s)).voice v := by
  unfold fxBlock renderedBlock
  rw [copyPass_frame]
  rfl

/-- A block of the same length makes the same of a voice on which two engines agree, whatever the parameters. -/
theorem AgreeOn.fxBlock_voice_eq {v : Fin nv} {s s' : State nv cw} (h : AgreeOn v s s') (cfg : Engine) (n : Nat)
    (gain gain' lowCut lowCut' rate rate' depth depth' size size' mix mix' : F) :
    (fxBlock cfg n gain lowCut rate depth size mix s).voice v =
      (fxBlock cfg n gain' lowCut' rate' depth' size' mix' s').voice v := by
  have hretuned : AgreeOn v (hpRetune cfg lowCut s) (hpRetune cfg lowCut' s') := ⟨h.sr, h.len, h.voice, h.quiet⟩
  rw [fxBlock_voice, fxBlock_voice]
  exact (hretuned.after_dryPass cfg n rate rate' depth depth').voice

/-! ### The obligations -/

/-- Settles O55: PREPARE empties the delay buffers, and every other write of a word is a `MemWrite`, which keeps the
form. -/
theorem everyStepKeepsMemoriesCanonical : Obligations.EveryStepKeepsMemoriesCanonical := by
  intro s t hs h
  exact step_keeps (P := MemoriesCanonical) (fun _ _ _ _ h => h) (fun _ h => h) (fun _ _ h => h)
    (fun _ _ _ _ => runs_keeps_memoriesCanonical) hs h

/-- Settles O32: the two engines agree on the voice before the block, and every sample of the block keeps that. -/
theorem voicesDoNotInterfere : Obligations.VoicesDoNotInterfere := by
  intro n s s' t t' v hready hready' hsr hlen hvoice hquiet ht ht'
  have hagree : AgreeOn v s s' := ⟨hsr, hlen, hvoice, hquiet⟩
  rw [render_ready hready] at ht
  rw [render_ready hready'] at ht'
  cases ht
  cases ht'
  exact hagree.fxBlock_voice_eq ksv n _ _ _ _ _ _ _ _ _ _ _ _

end Sys2Proof.Machine
end

section
/-! PROOFS. The statements about the encoding: the fields of a word, the decoder one row family at a time, the round
trip in both directions, the illegal words, and the opcode table (30_encoding R80 to R93). -/

namespace Sys2Proof

/-! ### The fields of a word (30_encoding R80) -/

@[simp] theorem opField_makeWord (op : BitVec 8) (a : BitVec 24) (b : BitVec 32) : opField (makeWord op a b) = op := by
  apply BitVec.eq_of_getLsbD_eq
  intro j hj
  simp only [opField, makeWord, BitVec.getLsbD_extractLsb', BitVec.getLsbD_append, hj, decide_true, Bool.true_and]
  rw [if_neg (by omega), if_neg (by omega)]
  congr 1
  omega

@[simp] theorem aField_makeWord (op : BitVec 8) (a : BitVec 24) (b : BitVec 32) : aField (makeWord op a b) = a := by
  apply BitVec.eq_of_getLsbD_eq
  intro j hj
  simp only [aField, makeWord, BitVec.getLsbD_extractLsb', BitVec.getLsbD_append, hj, decide_true, Bool.true_and]
  rw [if_neg (by omega), if_pos (by omega)]
  congr 1
  omega

@[simp] theorem bField_makeWord (op : BitVec 8) (a : BitVec 24) (b : BitVec 32) : bField (makeWord op a b) = b := by
  apply BitVec.eq_of_getLsbD_eq
  intro j hj
  simp only [bField, makeWord, BitVec.getLsbD_extractLsb', BitVec.getLsbD_append, hj, decide_true, Bool.true_and]
  rw [if_pos (by omega), Nat.zero_add]

/-- A word is its three fields. -/
theorem makeWord_fields (w : Word64) : makeWord (opField w) (aField w) (bField w) = w := by
  apply BitVec.eq_of_getLsbD_eq
  intro j hj
  simp only [opField, aField, bField, makeWord, BitVec.getLsbD_extractLsb', BitVec.getLsbD_append]
  by_cases hb : j < 32
  · simp [hb]
  · by_cases ha : j < 56
    · rw [if_neg hb, if_pos (by omega), decide_eq_true (by omega), Bool.true_and]
      congr 1
      omega
    · rw [if_neg hb, if_neg (by omega), decide_eq_true (by omega), Bool.true_and]
      congr 1
      omega

/-- A word is what its fields are known to be. -/
theorem makeWord_of_fields {w : Word64} {op : BitVec 8} {a : BitVec 24} {b : BitVec 32} (hop : opField w = op)
    (ha : aField w = a) (hb : bField w = b) : makeWord op a b = w := by
  rw [← hop, ← ha, ← hb, makeWord_fields]

/-! ### The waveform field (30_encoding R88) -/

@[simp] theorem bitsOfWave_waveOfBits (b : BitVec 2) : bitsOfWave (waveOfBits b) = b := by
  revert b
  decide

/-- An operand with nothing above its two low bits is those bits. -/
theorem setWidth_lowBits {b : BitVec 32} (h : b.extractLsb' 2 30 = 0) : (b.extractLsb' 0 2).setWidth 32 = b := by
  have hzero : b.toNat / 4 % 2 ^ 30 = 0 := by
    simpa [BitVec.extractLsb'_toNat, Nat.shiftRight_eq_div_pow] using congrArg BitVec.toNat h
  apply BitVec.eq_of_toNat_eq
  simp only [BitVec.toNat_setWidth, BitVec.extractLsb'_toNat, Nat.shiftRight_zero]
  omega

/-! ### The decoder, one opcode at a time (30_encoding R82 to R89) -/

section Decode

variable {w : Word64}

theorem decode_nopRow (h : opField w = 0) :
    decode w = if aField w ≠ 0 then .illegal .operandANotZero
      else if bField w ≠ 0 then .illegal .operandBNotZero else .command .nop := by
  rw [decode, h]; rfl

theorem decode_prepareRow (h : opField w = 1) : decode w = .command (.prepare (aField w).toNat (bField w)) := by
  rw [decode, h]; rfl

theorem decode_setpRows (h : opField w = 2) : decode w = decodeSetp (aField w).toNat (bField w) := by
  rw [decode, h]; rfl

theorem decode_noteonRow (h : opField w = 3) :
    decode w = if (aField w).toNat < 128 then .command (.noteon (aField w).toNat (bField w))
      else .illegal .noSuchPitch := by
  rw [decode, h]; rfl

theorem decode_noteoffRow (h : opField w = 4) :
    decode w = if aField w ≠ 0 then .illegal .operandANotZero
      else if bField w ≠ 0 then .illegal .operandBNotZero else .command .noteoff := by
  rw [decode, h]; rfl

theorem decode_renderRow (h : opField w = 5) :
    decode w = if bField w ≠ 0 then .illegal .operandBNotZero else .command (.render (aField w).toNat) := by
  rw [decode, h]; rfl

theorem decode_reserved (h : 6 ≤ (opField w).toNat) : decode w = .illegal .reservedOpcode := by
  unfold decode
  split
  case h_7 => rfl
  all_goals omega

end Decode

/-- The six opcodes of the table, and the reserved ones (30_encoding R82, R91). -/
theorem opField_cases (w : Word64) :
    opField w = 0 ∨ opField w = 1 ∨ opField w = 2 ∨ opField w = 3 ∨ opField w = 4 ∨ opField w = 5 ∨
      6 ≤ (opField w).toNat := by
  bv_omega

/-! ### The round trip (30_encoding R90, R93) -/

theorem decodeSetp_bitsOfWave (kind : Wave) :
    decodeSetp 1 ((bitsOfWave kind).setWidth 32) = .command (.setpWave kind) := by
  cases kind <;> rfl

/-- A command is read back from its word. -/
theorem decode_encode {i : Instr} (h : i.wellFormed = true) : decode (encode i) = .command i := by
  cases i with
  | nop => rfl
  | noteoff => rfl
  | prepare blockSize sampleRate =>
    have hsize : blockSize < 2 ^ 24 := by simpa [Instr.wellFormed] using h
    simpa [encode, decode_prepareRow] using hsize
  | noteon pitch velocity =>
    have hpitch : pitch < 128 := by simpa [Instr.wellFormed] using h
    have hmod : pitch % 16777216 = pitch := Nat.mod_eq_of_lt (by omega)
    simp [encode, decode_noteonRow, hmod, hpitch]
  | render n =>
    have hn : n < 2 ^ 24 := by simpa [Instr.wellFormed] using h
    simpa [encode, decode_renderRow] using hn
  | setpWave kind =>
    rw [encode, decode_setpRows (opField_makeWord ..), aField_makeWord, bField_makeWord]
    exact decodeSetp_bitsOfWave kind
  | _ => simp [encode, decode_setpRows, decodeSetp]

/-- The rows of SETP: the command they answer is well formed, and its word holds the parameter number and the value. -/
theorem encode_of_decodeSetp {k : Nat} {b : BitVec 32} {i : Instr} (h : decodeSetp k b = .command i) :
    i.wellFormed = true ∧ encode i = makeWord 2 (BitVec.ofNat 24 k) b := by
  match k, h with
  | 0, h | 2, h | 3, h | 4, h | 5, h | 6, h | 7, h | 8, h | 9, h =>
    cases h
    exact ⟨rfl, rfl⟩
  | 1, h =>
    rw [decodeSetp] at h
    split_ifs at h with hhigh
    cases h
    exact ⟨rfl, by rw [encode, bitsOfWave_waveOfBits, setWidth_lowBits hhigh]; rfl⟩
  | _ + 10, h => cases h

/-- Reading the operand `A` as an integer loses nothing. -/
theorem ofNat_toNat_aField (w : Word64) : BitVec.ofNat 24 (aField w).toNat = aField w :=
  BitVec.eq_of_toNat_eq (by simp)

/-- The command a word decodes to is well formed and has that word. -/
theorem encode_of_decode {w : Word64} {i : Instr} (h : decode w = .command i) :
    i.wellFormed = true ∧ encode i = w := by
  obtain hop | hop | hop | hop | hop | hop | hop := opField_cases w
  · rw [decode_nopRow hop] at h
    split_ifs at h with ha hb
    cases h
    exact ⟨rfl, makeWord_of_fields hop (not_not.mp ha) (not_not.mp hb)⟩
  · rw [decode_prepareRow hop] at h
    cases h
    exact ⟨by simpa [Instr.wellFormed] using (aField w).isLt,
      makeWord_of_fields hop (ofNat_toNat_aField w).symm rfl⟩
  · rw [decode_setpRows hop] at h
    obtain ⟨hwf, hword⟩ := encode_of_decodeSetp h
    exact ⟨hwf, hword.trans (makeWord_of_fields hop (ofNat_toNat_aField w).symm rfl)⟩
  · rw [decode_noteonRow hop] at h
    split_ifs at h with hpitch
    cases h
    exact ⟨by simpa [Instr.wellFormed] using hpitch, makeWord_of_fields hop (ofNat_toNat_aField w).symm rfl⟩
  · rw [decode_noteoffRow hop] at h
    split_ifs at h with ha hb
    cases h
    exact ⟨rfl, makeWord_of_fields hop (not_not.mp ha) (not_not.mp hb)⟩
  · rw [decode_renderRow hop] at h
    split_ifs at h with hb
    cases h
    exact ⟨by simpa [Instr.wellFormed] using (aField w).isLt,
      makeWord_of_fields hop (ofNat_toNat_aField w).symm (not_not.mp hb)⟩
  · rw [decode_reserved hop] at h
    cases h

/-! ### The illegal words (30_encoding R91, R92) -/

/-- A check that refuses a word. -/
theorem illegal_ite {c : Prop} [Decidable c] {why : Illegal} {d : Decoded} :
    (∃ why', (if c then .illegal why else d) = .illegal why') ↔ c ∨ ∃ why', d = .illegal why' := by
  by_cases h : c <;> simp [h]

theorem command_not_illegal (i : Instr) : ¬ ∃ why, Decoded.command i = .illegal why := by
  rintro ⟨_, ⟨⟩⟩

/-- The check of a command without operands. -/
theorem noOperands_illegal_iff (w : Word64) (i : Instr) :
    (∃ why, (if aField w ≠ 0 then Decoded.illegal .operandANotZero
      else if bField w ≠ 0 then .illegal .operandBNotZero else .command i) = .illegal why) ↔
        aField w ≠ 0 ∨ bField w ≠ 0 := by
  rw [illegal_ite, illegal_ite, or_iff_left (command_not_illegal _)]

/-- A word is a command or illegal, never both. -/
theorem not_illegal_iff (w : Word64) : (¬ ∃ why, decode w = .illegal why) ↔ ∃ i, decode w = .command i := by
  cases decode w <;> simp

theorem decodeSetp_illegal_iff (k : Nat) (b : BitVec 32) :
    (∃ why, decodeSetp k b = .illegal why) ↔ 10 ≤ k ∨ (k = 1 ∧ b.extractLsb' 2 30 ≠ 0) := by
  match k with
  | 0 | 2 | 3 | 4 | 5 | 6 | 7 | 8 | 9 => exact iff_of_false (command_not_illegal _) (by omega)
  | 1 =>
    rw [decodeSetp, ← ite_not, illegal_ite, or_iff_left (command_not_illegal _)]
    simp
  | _ + 10 => exact iff_of_true ⟨_, rfl⟩ (by omega)

/-- The parameter number is the nibble `A[3:0]` with `A[23:4]` above it. -/
theorem aField_toNat_eq_nibble (w : Word64) :
    (aField w).toNat = 16 * (w.extractLsb' 36 20).toNat + (w.extractLsb' 32 4).toNat := by
  simp only [aField, BitVec.extractLsb'_toNat, Nat.shiftRight_eq_div_pow]
  omega

/-- The pitch is the seven bits `A[6:0]` with `A[23:7]` above them. -/
theorem aField_toNat_eq_pitch (w : Word64) :
    (aField w).toNat = 128 * (w.extractLsb' 39 17).toNat + (w.extractLsb' 32 7).toNat := by
  simp only [aField, BitVec.extractLsb'_toNat, Nat.shiftRight_eq_div_pow]
  omega

section Illegal

variable {w : Word64}

theorem setpRows_illegal_iff (h : opField w = 2) :
    (∃ why, decode w = .illegal why) ↔
      w.extractLsb' 36 20 ≠ 0 ∨ 10 ≤ (w.extractLsb' 32 4).toNat ∨
        (w.extractLsb' 32 4 = 1 ∧ w.extractLsb' 2 30 ≠ 0) := by
  have hb : (bField w).extractLsb' 2 30 = w.extractLsb' 2 30 := by
    apply BitVec.eq_of_getLsbD_eq
    intro j hj
    simp [bField]
  rw [decode_setpRows h, decodeSetp_illegal_iff, hb, aField_toNat_eq_nibble]
  by_cases hw : w.extractLsb' 2 30 = 0
  · simp only [hw, ne_eq, not_true_eq_false, and_false, or_false]
    bv_omega
  · simp only [hw, ne_eq, not_false_eq_true, and_true]
    bv_omega

theorem noteonRow_illegal_iff (h : opField w = 3) :
    (∃ why, decode w = .illegal why) ↔ w.extractLsb' 39 17 ≠ 0 := by
  have hlow := (w.extractLsb' 32 7).isLt
  rw [decode_noteonRow h, ← ite_not, illegal_ite, or_iff_left (command_not_illegal _), aField_toNat_eq_pitch]
  bv_omega

theorem renderRow_illegal_iff (h : opField w = 5) : (∃ why, decode w = .illegal why) ↔ bField w ≠ 0 := by
  rw [decode_renderRow h, illegal_ite, or_iff_left (command_not_illegal _)]

end Illegal

/-! ### The opcode table (30_encoding R93) -/

/-- A mask acts on each field of a word by itself. -/
theorem accepts_iff_fields (r : Row) (w : Word64) :
    r.accepts w = true ↔
      opField w &&& opField r.mask = opField r.pattern ∧ aField w &&& aField r.mask = aField r.pattern ∧
        bField w &&& bField r.mask = bField r.pattern := by
  have hop : opField (w &&& r.mask) = opField w &&& opField r.mask := BitVec.extractLsb'_and
  have ha : aField (w &&& r.mask) = aField w &&& aField r.mask := BitVec.extractLsb'_and
  have hb : bField (w &&& r.mask) = bField w &&& bField r.mask := BitVec.extractLsb'_and
  rw [Row.accepts, beq_iff_eq, ← hop, ← ha, ← hb]
  refine ⟨fun h => by simp [h], fun ⟨h1, h2, h3⟩ => ?_⟩
  rw [← makeWord_fields (w &&& r.mask), h1, h2, h3, makeWord_fields]

theorem fields_of_accepts {r : Row} {w : Word64} {mo po : BitVec 8} {ma pa : BitVec 24} {mb pb : BitVec 32}
    (hmask : r.mask = makeWord mo ma mb) (hpattern : r.pattern = makeWord po pa pb) (h : r.accepts w = true) :
    opField w &&& mo = po ∧ aField w &&& ma = pa ∧ bField w &&& mb = pb := by
  simpa [hmask, hpattern] using (accepts_iff_fields r w).mp h

/-- Every well-formed command's word matches the row of its mnemonic. -/
theorem encode_matches_row (i : Instr) : Laws.EncodesToItsRow.Statement i := by
  cases i with
  | nop => exact Laws.EncodesToItsRow.nop
  | prepare blockSize sampleRate => exact Laws.EncodesToItsRow.prepare blockSize sampleRate
  | setpGain value => exact Laws.EncodesToItsRow.setpGain value
  | setpWave kind => exact Laws.EncodesToItsRow.setpWave kind
  | setpDecay value => exact Laws.EncodesToItsRow.setpDecay value
  | setpBurst value => exact Laws.EncodesToItsRow.setpBurst value
  | setpExcut value => exact Laws.EncodesToItsRow.setpExcut value
  | setpLowcut value => exact Laws.EncodesToItsRow.setpLowcut value
  | setpTremrate value => exact Laws.EncodesToItsRow.setpTremrate value
  | setpTremdepth value => exact Laws.EncodesToItsRow.setpTremdepth value
  | setpRevsize value => exact Laws.EncodesToItsRow.setpRevsize value
  | setpRevmix value => exact Laws.EncodesToItsRow.setpRevmix value
  | noteon pitch velocity => exact Laws.EncodesToItsRow.noteon pitch velocity
  | noteoff => exact Laws.EncodesToItsRow.noteoff
  | render n => exact Laws.EncodesToItsRow.render n

/-- No two rows of the table share a mnemonic. -/
theorem row_eq_of_mnemonic_eq :
    ∀ r ∈ opcodeTable, ∀ r' ∈ opcodeTable, r.mnemonic = r'.mnemonic → r = r' := by decide

/-- The mask of NOTEON leaves the seven bits of a pitch. -/
theorem toNat_lt_of_and_pitchMask {a : BitVec 24} (h : a &&& 0xFFFF80 = 0) : a.toNat < 128 := by
  have hhigh : a.extractLsb' 7 17 = 0 := by
    have hcut := congrArg (BitVec.extractLsb' 7 17) h
    rwa [BitVec.extractLsb'_and, show (0xFFFF80 : BitVec 24).extractLsb' 7 17 = BitVec.allOnes 17 from rfl,
      BitVec.and_allOnes] at hcut
  have hzero : a.toNat / 128 % 2 ^ 17 = 0 := by
    simpa [BitVec.extractLsb'_toNat, Nat.shiftRight_eq_div_pow] using congrArg BitVec.toNat hhigh
  omega

/-- The mask of SETP.WAVE leaves the two bits of a kind. -/
theorem highBits_of_and_waveMask {b : BitVec 32} (h : b &&& 0xFFFFFFFC = 0) : b.extractLsb' 2 30 = 0 := by
  have hcut := congrArg (BitVec.extractLsb' 2 30) h
  rwa [BitVec.extractLsb'_and, show (0xFFFFFFFC : BitVec 32).extractLsb' 2 30 = BitVec.allOnes 30 from rfl,
    BitVec.and_allOnes] at hcut

section Rows

variable {w : Word64} {name : String}

/-- The row of a SETP whose value is free. -/
theorem decode_of_setpRow {pattern : Word64} {k : BitVec 24} (hpattern : pattern = makeWord 2 k 0)
    (h : Row.accepts ⟨name, 0xFFFFFFFF00000000, pattern⟩ w = true) : decode w = decodeSetp k.toNat (bField w) := by
  obtain ⟨hop, ha, _⟩ :=
    fields_of_accepts (mo := BitVec.allOnes 8) (ma := BitVec.allOnes 24) (mb := 0) rfl hpattern h
  rw [BitVec.and_allOnes] at hop ha
  rw [decode_setpRows hop, ha]

theorem decode_of_waveRow (h : Row.accepts ⟨name, 0xFFFFFFFFFFFFFFFC, 0x0200000100000000⟩ w = true) :
    decode w = .command (.setpWave (waveOfBits ((bField w).extractLsb' 0 2))) := by
  obtain ⟨hop, ha, hb⟩ := fields_of_accepts (mo := BitVec.allOnes 8) (ma := BitVec.allOnes 24) (mb := 0xFFFFFFFC)
    (po := 2) (pa := 1) (pb := 0) rfl rfl h
  rw [BitVec.and_allOnes] at hop ha
  rw [decode_setpRows hop, ha]
  exact if_pos (highBits_of_and_waveMask hb)

/-- A row without operands (NOP, NOTEOFF) accepts its pattern only. -/
theorem eq_pattern_of_accepts {pattern : Word64} (h : Row.accepts ⟨name, 0xFFFFFFFFFFFFFFFF, pattern⟩ w = true) :
    w = pattern :=
  BitVec.and_allOnes.symm.trans (beq_iff_eq.mp h)

theorem decode_of_prepareRow (h : Row.accepts ⟨name, 0xFF00000000000000, 0x0100000000000000⟩ w = true) :
    decode w = .command (.prepare (aField w).toNat (bField w)) := by
  obtain ⟨hop, _, _⟩ :=
    fields_of_accepts (mo := BitVec.allOnes 8) (ma := 0) (mb := 0) (po := 1) (pa := 0) (pb := 0) rfl rfl h
  rw [BitVec.and_allOnes] at hop
  exact decode_prepareRow hop

theorem decode_of_noteonRow (h : Row.accepts ⟨name, 0xFFFFFF8000000000, 0x0300000000000000⟩ w = true) :
    decode w = .command (.noteon (aField w).toNat (bField w)) := by
  obtain ⟨hop, ha, _⟩ :=
    fields_of_accepts (mo := BitVec.allOnes 8) (ma := 0xFFFF80) (mb := 0) (po := 3) (pa := 0) (pb := 0) rfl rfl h
  rw [BitVec.and_allOnes] at hop
  rw [decode_noteonRow hop, if_pos (toNat_lt_of_and_pitchMask ha)]

theorem decode_of_renderRow (h : Row.accepts ⟨name, 0xFF000000FFFFFFFF, 0x0500000000000000⟩ w = true) :
    decode w = .command (.render (aField w).toNat) := by
  obtain ⟨hop, _, hb⟩ := fields_of_accepts (mo := BitVec.allOnes 8) (ma := 0) (mb := BitVec.allOnes 32)
    (po := 5) (pa := 0) (pb := 0) rfl rfl h
  rw [BitVec.and_allOnes] at hop hb
  rw [decode_renderRow hop, if_neg (not_not.mpr hb)]

end Rows

/-- A word that matches a row of the table decodes to a command of that row's mnemonic. -/
theorem decode_of_accepts {w : Word64} {r : Row} (hr : r ∈ opcodeTable) (h : r.accepts w = true) :
    ∃ i, decode w = .command i ∧ i.mnemonic = r.mnemonic := by
  simp only [opcodeTable, List.mem_cons, List.not_mem_nil, or_false] at hr
  obtain rfl | rfl | rfl | rfl | rfl | rfl | rfl | rfl | rfl | rfl | rfl | rfl | rfl | rfl | rfl := hr
  · rw [eq_pattern_of_accepts h]
    exact ⟨.nop, decode_encode (i := .nop) rfl, rfl⟩
  · exact ⟨_, decode_of_prepareRow h, rfl⟩
  · exact ⟨_, decode_of_setpRow (k := 0) rfl h, rfl⟩
  · exact ⟨_, decode_of_waveRow h, rfl⟩
  · exact ⟨_, decode_of_setpRow (k := 2) rfl h, rfl⟩
  · exact ⟨_, decode_of_setpRow (k := 3) rfl h, rfl⟩
  · exact ⟨_, decode_of_setpRow (k := 4) rfl h, rfl⟩
  · exact ⟨_, decode_of_setpRow (k := 5) rfl h, rfl⟩
  · exact ⟨_, decode_of_setpRow (k := 6) rfl h, rfl⟩
  · exact ⟨_, decode_of_setpRow (k := 7) rfl h, rfl⟩
  · exact ⟨_, decode_of_setpRow (k := 8) rfl h, rfl⟩
  · exact ⟨_, decode_of_setpRow (k := 9) rfl h, rfl⟩
  · exact ⟨_, decode_of_noteonRow h, rfl⟩
  · rw [eq_pattern_of_accepts h]
    exact ⟨.noteoff, decode_encode (i := .noteoff) rfl, rfl⟩
  · exact ⟨_, decode_of_renderRow h, rfl⟩

/-- A word that decodes to a command matches the row of its mnemonic. -/
theorem accepts_of_decode {w : Word64} {i : Instr} (h : decode w = .command i) :
    ∃ r ∈ opcodeTable, r.mnemonic = i.mnemonic ∧ r.accepts w = true := by
  obtain ⟨hwf, hword⟩ := encode_of_decode h
  rw [← hword]
  exact encode_matches_row i hwf

/-! ### The obligations -/

/-- Settles O1: by cases on the command, whose word has the fields of its row. -/
theorem decodeInvertsEncode : Obligations.DecodeInvertsEncode := fun _ => decode_encode

/-- Settles O2: one opcode at a time, the decoder's answer holds the word's fields. -/
theorem encodeInvertsDecode : Obligations.EncodeInvertsDecode := fun _ _ => encode_of_decode

/-- Settles O3: one opcode at a time. -/
theorem illegalWordsAreThoseListed : Obligations.IllegalWordsAreThoseListed := by
  intro w
  change _ ↔ 6 ≤ (opField w).toNat ∨ (opField w = 0 ∧ (aField w ≠ 0 ∨ bField w ≠ 0)) ∨ (opField w = 2 ∧ _) ∨
    (opField w = 3 ∧ _) ∨ (opField w = 4 ∧ (aField w ≠ 0 ∨ bField w ≠ 0)) ∨ (opField w = 5 ∧ bField w ≠ 0)
  obtain hop | hop | hop | hop | hop | hop | hop := opField_cases w
  · rw [decode_nopRow hop, noOperands_illegal_iff]
    simp [hop]
  · simp [decode_prepareRow hop, hop]
  · simp [setpRows_illegal_iff hop, hop]
  · simp [noteonRow_illegal_iff hop, hop]
  · rw [decode_noteoffRow hop, noOperands_illegal_iff]
    simp [hop]
  · simp [renderRow_illegal_iff hop, hop]
  · simp [decode_reserved hop, hop]

/-- Settles O4: a word and its row have the same mnemonic, and no two rows share one. -/
theorem tableRowsAgreeWithDecoder : Obligations.TableRowsAgreeWithDecoder := by
  intro w
  refine ⟨fun i => accepts_of_decode, ⟨?_, ?_⟩, ?_⟩
  · rintro ⟨why, hw⟩ r hr
    by_contra hacc
    obtain ⟨i, hi, _⟩ := decode_of_accepts hr (by simpa using hacc)
    simp [hw] at hi
  · intro hnone
    by_contra hlegal
    obtain ⟨i, hi⟩ := (not_illegal_iff w).mp hlegal
    obtain ⟨r, hr, _, hacc⟩ := accepts_of_decode hi
    simp [hnone r hr] at hacc
  · intro r hr r' hr' hacc hacc'
    obtain ⟨i, hi, hname⟩ := decode_of_accepts hr hacc
    obtain ⟨i', hi', hname'⟩ := decode_of_accepts hr' hacc'
    cases hi.symm.trans hi'
    exact row_eq_of_mnemonic_eq r hr r' hr' (hname.symm.trans hname')

/-- Settles O5: the eight command words are those of their commands (O1), the other two are illegal by their fields. -/
theorem listedWordsDecode : Obligations.ListedWordsDecode :=
  ⟨decode_encode (i := .nop) rfl,
    decode_encode (i := .prepare 512 0x473B8000) rfl,
    decode_encode (i := .setpGain 0x3F000000) rfl,
    decode_encode (i := .setpWave .square) rfl,
    decode_encode (i := .setpExcut 0x44FA0000) rfl,
    decode_encode (i := .noteon 127 0xFFC00000) rfl,
    decode_encode (i := .noteoff) rfl,
    decode_encode (i := .render 16777215) rfl,
    by decide,
    decode_reserved (by decide)⟩

end Sys2Proof
end

section
/-! PROOFS. The rounding function answers the nearest magnitude, ties to even, and overflows exactly from half a spacing
above the largest finite value on; what that makes of a rounded value with a sign (40_numerics R101). -/

namespace Sys2Proof.Machine

open Sys2Proof.Config

/-! ### The nearest magnitude -/

/-- Rounding to an integer takes the even one of two equally near ones. -/
theorem roundHalfEven_tie {n d : Nat}
    (h : 2 * (roundHalfEven n d * d) = 2 * n + d ∨ 2 * n = 2 * (roundHalfEven n d * d) + d) (hd : 0 < d) :
    roundHalfEven n d % 2 = 0 := by
  have hdm : n / d * d + n % d = n := Nat.div_add_mod' n d
  have hlt : n % d < d := Nat.mod_lt _ hd
  unfold roundHalfEven at h ⊢
  split at h
  · rw [if_pos ‹_›]
    rw [Nat.add_mul, Nat.one_mul] at h
    omega
  · rw [if_neg ‹_›]
    omega

/-- The pattern with shift `s` and significand `k` stands for `k * 2^s` units, whether `k` is subnormal, normal or the
carry out of a normal significand. -/
theorem unitsOf_shift {s k : Nat} (hk : k ≤ 2 ^ 24) (hs : s = 0 ∨ 2 ^ 23 ≤ k) :
    unitsOf (s * 2 ^ 23 + k) = k * 2 ^ s := by
  rcases Nat.lt_or_ge k (2 ^ 23) with hsub | hnorm
  · obtain rfl : s = 0 := by omega
    have hdiv : (0 * 2 ^ 23 + k) / 2 ^ 23 = 0 := by omega
    unfold unitsOf
    rw [if_pos hdiv]
    omega
  rcases Nat.eq_or_lt_of_le hk with rfl | hlt
  · rw [show s * 2 ^ 23 + 2 ^ 24 = (s + 2) * 2 ^ 23 by ring, unitsOf_pow (by omega), ← pow_add]
    congr 1
    omega
  · have hdiv : (s * 2 ^ 23 + k) / 2 ^ 23 = s + 1 := by omega
    have hmod : 2 ^ 23 + (s * 2 ^ 23 + k) % 2 ^ 23 = k := by omega
    unfold unitsOf
    rw [if_neg (by omega), hmod, hdiv, Nat.add_sub_cancel]

/-- The next pattern is at least one step of the shift further. -/
theorem unitsOf_shift_succ {s k : Nat} (hk : k ≤ 2 ^ 24) (hs : s = 0 ∨ 2 ^ 23 ≤ k) :
    (k + 1) * 2 ^ s ≤ unitsOf (s * 2 ^ 23 + k + 1) := by
  rcases Nat.eq_or_lt_of_le hk with rfl | hlt
  · rw [show s * 2 ^ 23 + 2 ^ 24 + 1 = (s + 1) * 2 ^ 23 + (2 ^ 23 + 1) by ring,
      unitsOf_shift (by norm_num) (by omega)]
    calc (2 ^ 24 + 1) * 2 ^ s ≤ (2 ^ 23 + 1) * 2 * 2 ^ s := Nat.mul_le_mul_right _ (by norm_num)
      _ = (2 ^ 23 + 1) * 2 ^ (s + 1) := by rw [pow_succ' 2 s, Nat.mul_assoc]
  · rw [Nat.add_assoc, unitsOf_shift (by omega) (by omega)]

/-- `r` is the pattern of the magnitude nearest to `n / d` units, ties to even: `n / d` lies beyond neither of the
midpoints to the two neighbours of `r`, and on one of them only where `r` is even. -/
structure NearestEven (n d r : Nat) : Prop where
  above : 2 * n < (unitsOf r + unitsOf (r + 1)) * d ∨ (2 * n = (unitsOf r + unitsOf (r + 1)) * d ∧ r % 2 = 0)
  below : ∀ p, p + 1 = r →
    (unitsOf p + unitsOf r) * d < 2 * n ∨ ((unitsOf p + unitsOf r) * d = 2 * n ∧ r % 2 = 0)

/-- The shifted quotient fits the significand: at most 24 bits, and 24 of them where there is a shift. -/
theorem shifted_quotient_bounds (n d : Nat) :
    n / (d * 2 ^ shiftOf (n / d)) < 2 ^ 24 ∧
      (shiftOf (n / d) = 0 ∨ 2 ^ 23 ≤ n / (d * 2 ^ shiftOf (n / d))) := by
  rw [← Nat.div_div_eq_div_mul]
  constructor
  · apply Nat.div_lt_of_lt_mul
    rw [← pow_add]
    exact lt_of_lt_of_le Nat.lt_log2_self (Nat.pow_le_pow_right (by norm_num) (by unfold shiftOf; omega))
  · rcases Nat.eq_zero_or_pos (shiftOf (n / d)) with hz | hpos
    · exact .inl hz
    · have hlog : 23 + shiftOf (n / d) = Nat.log2 (n / d) := by unfold shiftOf at hpos ⊢; omega
      have hne : n / d ≠ 0 := fun h0 => by rw [h0, Nat.log2_zero] at hlog; omega
      refine .inr ((Nat.le_div_iff_mul_le (by positivity)).mpr ?_)
      rw [← pow_add, hlog]
      exact Nat.log2_self_le hne

theorem nearestEven_roundBits (n : Nat) {d : Nat} (hd : 0 < d) : NearestEven n d (roundBits n d) := by
  obtain ⟨hq24, hq23⟩ := shifted_quotient_bounds n d
  unfold roundBits
  generalize shiftOf (n / d) = s at *
  have hD : 0 < d * 2 ^ s := by positivity
  obtain ⟨hnear, hnear'⟩ := roundHalfEven_near n hD
  have htie := roundHalfEven_tie (n := n) (d := d * 2 ^ s) (hd := hD)
  have hle : roundHalfEven n (d * 2 ^ s) ≤ n / (d * 2 ^ s) + 1 := roundHalfEven_le_succ_div _ _
  have hge : n / (d * 2 ^ s) ≤ roundHalfEven n (d * 2 ^ s) := by unfold roundHalfEven; split <;> omega
  have hfloor : n / (d * 2 ^ s) * (d * 2 ^ s) ≤ n := Nat.div_mul_le_self _ _
  generalize roundHalfEven n (d * 2 ^ s) = k at *
  have hparity : (s * 2 ^ 23 + k) % 2 = k % 2 := by omega
  have hu : unitsOf (s * 2 ^ 23 + k) * d = k * (d * 2 ^ s) := by
    rw [unitsOf_shift (by omega) (by omega)]; ring
  refine ⟨?_, fun p hp => ?_⟩
  · have hsucc : k * (d * 2 ^ s) + d * 2 ^ s ≤ unitsOf (s * 2 ^ 23 + k + 1) * d := by
      calc k * (d * 2 ^ s) + d * 2 ^ s = (k + 1) * 2 ^ s * d := by ring
        _ ≤ _ := Nat.mul_le_mul_right d (unitsOf_shift_succ (by omega) (by omega))
    rw [Nat.add_mul, hu, hparity]
    omega
  · rw [Nat.add_mul, hu, hparity]
    by_cases hk : s = 0 ∨ 2 ^ 23 ≤ k - 1
    · have hpred : unitsOf p * d + d * 2 ^ s = k * (d * 2 ^ s) := by
        obtain ⟨j, rfl⟩ : ∃ j, k = j + 1 := ⟨k - 1, by omega⟩
        rw [show p = s * 2 ^ 23 + j by omega, unitsOf_shift (by omega) (by omega)]
        ring
      omega
    · have hlt : unitsOf p * d < k * (d * 2 ^ s) := by
        rw [← hu]
        exact Nat.mul_lt_mul_of_pos_right (unitsOf_lt_iff.mpr (by omega)) hd
      have hkq : k = n / (d * 2 ^ s) := by omega
      rw [← hkq] at hfloor
      omega

/-- No magnitude is nearer, and of two equally near ones the even pattern is taken. -/
theorem NearestEven.nearest {n d r : Nat} (h : NearestEven n d r) (hd : 0 < d) (y : Nat) :
    ((unitsOf r * d : Nat) - n : Int).natAbs ≤ ((unitsOf y * d : Nat) - n : Int).natAbs ∧
      (((unitsOf r * d : Nat) - n : Int).natAbs = ((unitsOf y * d : Nat) - n : Int).natAbs → y ≠ r → r % 2 = 0) := by
  have hmono : ∀ {a b}, a ≤ b → unitsOf a * d ≤ unitsOf b * d := fun hab =>
    Nat.mul_le_mul_right d (unitsOf_le_iff.mpr hab)
  have hstrict : ∀ {a b}, a < b → unitsOf a * d < unitsOf b * d := fun hab =>
    Nat.mul_lt_mul_of_pos_right (unitsOf_lt_iff.mpr hab) hd
  rcases Nat.lt_trichotomy y r with hlt | rfl | hgt
  · obtain ⟨p, rfl⟩ : ∃ p, r = p + 1 := ⟨r - 1, by omega⟩
    have hyp := hmono (Nat.le_of_lt_succ hlt)
    have hpr := hstrict (Nat.lt_add_one p)
    have hb := h.below p rfl
    rw [Nat.add_mul] at hb
    omega
  · exact ⟨le_refl _, fun _ hne => absurd rfl hne⟩
  · have hyr := hmono (a := r + 1) hgt
    have hr := hstrict (Nat.lt_add_one r)
    have ha := h.above
    rw [Nat.add_mul] at ha
    omega

/-- The midpoint between the largest finite magnitude and the first one beyond is half a spacing above the largest. -/
theorem unitsOf_overflow_midpoint : unitsOf (infBits - 1) + unitsOf infBits = 2 * ((2 ^ 25 - 1) * 2 ^ 252) := by
  decide +kernel

/-- The nearest pattern is that of an infinity or beyond exactly from half a spacing above the largest finite value
on. -/
theorem NearestEven.overflow_iff {n d r : Nat} (h : NearestEven n d r) (hd : 0 < d) :
    infBits ≤ r ↔ (2 ^ 25 - 1) * 2 ^ 252 * d ≤ n := by
  have hmid : (unitsOf (infBits - 1) + unitsOf infBits) * d = 2 * ((2 ^ 25 - 1) * 2 ^ 252 * d) := by
    rw [unitsOf_overflow_midpoint, Nat.mul_assoc]
  generalize (2 ^ 25 - 1) * 2 ^ 252 * d = bound at *
  constructor
  · intro hr
    have hpos : 0 < infBits := by decide
    have hle : (unitsOf (infBits - 1) + unitsOf infBits) * d ≤ (unitsOf (r - 1) + unitsOf r) * d :=
      Nat.mul_le_mul_right d (Nat.add_le_add (unitsOf_le_iff.mpr (by omega)) (unitsOf_le_iff.mpr hr))
    have hb := h.below (r - 1) (by omega)
    omega
  · intro hn
    by_contra hr
    have ha := h.above
    rcases Nat.lt_or_ge (r + 1) infBits with hlt | hge
    · have hle : (unitsOf r + unitsOf (r + 1)) * d < (unitsOf (infBits - 1) + unitsOf infBits) * d :=
        Nat.mul_lt_mul_of_pos_right
          (Nat.add_lt_add_of_le_of_lt (unitsOf_le_iff.mpr (by omega)) (unitsOf_lt_iff.mpr hlt)) hd
      omega
    · obtain rfl : r = infBits - 1 := by omega
      have hodd : (infBits - 1) % 2 = 1 := by decide
      rw [Nat.sub_add_cancel (by decide), hmid] at ha
      omega

theorem roundMag_lt_infBits_iff (n : Nat) {d : Nat} (hd : 0 < d) :
    roundMag n d < infBits ↔ n < (2 ^ 25 - 1) * 2 ^ 252 * d := by
  have h := (nearestEven_roundBits n hd).overflow_iff hd
  unfold roundMag
  split <;> omega

theorem nearestEven_roundMag {n d : Nat} (hd : 0 < d) (h : roundMag n d < infBits) :
    NearestEven n d (roundMag n d) := by
  have hr : roundMag n d = roundBits n d := by
    unfold roundMag at h ⊢
    split at h
    · exact absurd h (lt_irrefl _)
    · rw [if_neg ‹_›]
  rw [hr]
  exact nearestEven_roundBits n hd

/-! ### The rounded value with its sign -/

/-- An integer by its sign and its magnitude, as `fixOf` reads a pattern. -/
def signed (neg : Bool) (n : Nat) : Int := if neg then -(n : Int) else (n : Int)

@[simp] theorem signed_true (n : Nat) : signed true n = -(n : Int) := rfl
@[simp] theorem signed_false (n : Nat) : signed false n = (n : Int) := rfl

theorem fixOf_eq_signed (x : F) : fixOf x = signed (signBit x) (unitsOf (magBits x)) := rfl

@[simp] theorem natAbs_signed (neg : Bool) (n : Nat) : (signed neg n).natAbs = n := by cases neg <;> simp

theorem natAbs_fixOf (x : F) : (fixOf x).natAbs = unitsOf (magBits x) := natAbs_signed _ _

theorem cast_unit : (unit : Int) = 2 ^ 149 := by simp [unit]

theorem signed_mul_signed (s t : Bool) (m n : Nat) : signed s m * signed t n = signed (s != t) (m * n) := by
  cases s <;> cases t <;> simp

theorem eq_of_signed_eq {s t : Bool} {n : Nat} (hn : n ≠ 0) (h : signed s n = signed t n) : s = t := by
  cases s <;> cases t <;> simp only [signed_true, signed_false] at h ⊢ <;> omega

theorem signed_natAbs (e : Int) : signed (decide (e < 0)) e.natAbs = e := by
  by_cases h : e < 0
  · simp only [h, decide_true, signed_true]; omega
  · simp only [h, decide_false, signed_false]; omega

theorem natAbs_signed_sub_same (neg : Bool) (m d n : Nat) :
    (signed neg m * d - signed neg n).natAbs = ((m * d : Nat) - n : Int).natAbs := by
  cases neg
  · simp
  · simp only [signed_true, Int.neg_mul]
    push_cast
    omega

theorem natAbs_signed_sub_opposite (neg : Bool) (m d n : Nat) :
    (signed (!neg) m * d - signed neg n).natAbs = m * d + n := by
  zify
  cases neg
  · simp only [Bool.not_false, signed_true, signed_false, Int.neg_mul]
    rw [← neg_add', abs_neg, abs_of_nonneg (by positivity)]
  · simp only [Bool.not_true, signed_true, signed_false, sub_neg_eq_add]
    exact abs_of_nonneg (by positivity)

/-- Values of the other sign are no nearer than the nearest magnitude with the right sign, for they are no nearer than
zero is. -/
theorem NearestEven.nearest_signed {n d r : Nat} (h : NearestEven n d r) (hd : 0 < d) (neg sy : Bool) (y : Nat) :
    (signed neg (unitsOf r) * d - signed neg n).natAbs ≤ (signed sy (unitsOf y) * d - signed neg n).natAbs ∧
      ((signed neg (unitsOf r) * d - signed neg n).natAbs = (signed sy (unitsOf y) * d - signed neg n).natAbs →
        signed sy (unitsOf y) ≠ signed neg (unitsOf r) → r % 2 = 0) := by
  rw [natAbs_signed_sub_same]
  rcases Bool.eq_or_eq_not sy neg with rfl | rfl
  · rw [natAbs_signed_sub_same]
    obtain ⟨hle, htie⟩ := h.nearest hd y
    exact ⟨hle, fun heq hne => htie heq fun hyr => hne (by rw [hyr])⟩
  · rw [natAbs_signed_sub_opposite]
    obtain ⟨hle, htie⟩ := h.nearest hd 0
    rw [unitsOf_zero, Nat.zero_mul] at hle htie
    refine ⟨by omega, fun heq hne => htie (by omega) fun h0 => hne ?_⟩
    have hy : unitsOf y = 0 := by
      have : unitsOf y * d = 0 := by omega
      simpa [Nat.ne_of_gt hd] using this
    cases neg <;> simp [hy, ← h0]

/-- `r` is `n / d` units with a sign, rounded to nearest, ties to even, with the overflow of 40_numerics R101. -/
structure RoundsTo (neg : Bool) (n d : Nat) (r : F) : Prop where
  sign : signBit r = neg
  nearest : isFinite r = true → ∀ y : F, isFinite y = true →
    (fixOf r * d - signed neg n).natAbs ≤ (fixOf y * d - signed neg n).natAbs ∧
      ((fixOf r * d - signed neg n).natAbs = (fixOf y * d - signed neg n).natAbs → fixOf y ≠ fixOf r →
        magBits r % 2 = 0)
  overflow : isFinite r = false ↔ (2 ^ 25 - 1) * 2 ^ 252 * d ≤ n
  infinite : isFinite r = false → r = makeF neg infBits

theorem roundsTo_makeF (neg : Bool) (n : Nat) {d : Nat} (hd : 0 < d) : RoundsTo neg n d (makeF neg (roundMag n d)) := by
  have hlt := roundMag_lt n d
  have hfin : isFinite (makeF neg (roundMag n d)) = true ↔ roundMag n d < infBits := by
    rw [isFinite_iff, magBits_makeF neg hlt]
  refine ⟨signBit_makeF neg hlt, fun h y _ => ?_, ?_, fun h => ?_⟩
  · rw [fixOf_eq_signed (makeF _ _), fixOf_eq_signed y, signBit_makeF neg hlt, magBits_makeF neg hlt]
    exact (nearestEven_roundMag hd (hfin.mp h)).nearest_signed hd neg _ _
  · rw [← Bool.not_eq_true, hfin, roundMag_lt_infBits_iff n hd, Nat.not_lt]
  · rw [← Bool.not_eq_true, hfin] at h
    rw [Nat.le_antisymm (roundMag_le n d) (Nat.not_lt.mp h)]

/-! ### Infinities and zeros -/

theorem makeF_infBits (neg : Bool) : makeF neg infBits = if neg then negInf else posInf := by cases neg <;> rfl

theorem makeF_zero (neg : Bool) : makeF neg 0 = if neg then 0x80000000 else fZero := by cases neg <;> rfl

/-- The infinity with the product of two signs. -/
theorem makeF_bne_infBits (s t : Bool) : makeF (s != t) infBits = if s = t then posInf else negInf := by
  cases s <;> cases t <;> rfl

theorem isInf_iff {x : F} : isInf x = true ↔ magBits x = infBits := by simp [isInf]

theorem isZero_iff {x : F} : isZero x = true ↔ magBits x = 0 := by simp [isZero]

theorem isNaN_eq_false_of_isInf {x : F} (h : isInf x = true) : isNaN x = false := by simp [isNaN, isInf_iff.mp h]

theorem isZero_eq_false_of_isInf {x : F} (h : isInf x = true) : isZero x = false := by
  simp [isZero, isInf_iff.mp h, infBits]

theorem isFinite_of_isZero {x : F} (h : isZero x = true) : isFinite x = true := by
  rw [isFinite_iff, isZero_iff.mp h]
  decide

theorem isZero_iff_fixOf {x : F} : isZero x = true ↔ fixOf x = 0 := by
  rw [isZero_iff, ← unitsOf_eq_zero, ← natAbs_fixOf, Int.natAbs_eq_zero]

/-- The two patterns of the value zero. -/
theorem eq_zeros_of_isZero {x : F} (h : isZero x = true) : x = if signBit x then 0x80000000 else fZero := by
  rw [← makeF_zero, ← isZero_iff.mp h, makeF_eta]

theorem eq_negZero_iff {x : F} : x = 0x80000000 ↔ isZero x = true ∧ signBit x = true := by
  constructor
  · rintro rfl
    decide
  · rintro ⟨hz, hs⟩
    rw [eq_zeros_of_isZero hz, hs]
    rfl

/-- Finite values other than zero have one pattern each. -/
theorem eq_of_fixOf_eq {x y : F} (h : fixOf x = fixOf y) (h0 : fixOf y ≠ 0) : x = y := by
  have hmag : magBits x = magBits y := by
    apply unitsOf_strictMono.injective
    rw [← natAbs_fixOf, ← natAbs_fixOf, h]
  have hne : unitsOf (magBits y) ≠ 0 := by rwa [← natAbs_fixOf, Int.natAbs_ne_zero]
  have hsign : signBit x = signBit y := by
    rw [fixOf_eq_signed x, fixOf_eq_signed y, hmag] at h
    exact eq_of_signed_eq hne h
  rw [← makeF_eta x, ← makeF_eta y, hmag, hsign]

end Sys2Proof.Machine
end

section
/-! PROOFS. The statements about the numerics: each operation's cases, said once, and what they make of the rounding
(40_numerics R101 to R115). -/

namespace Sys2Proof.Machine

open Sys2Proof.Config

/-! ### Sums and differences (40_numerics R101) -/

theorem fadd_eq (a b : F) : fadd a b = addCore (nanOf .add a b) a b := by unfold fadd; rfl

theorem fsub_eq (a b : F) : fsub a b = addCore (nanOf .sub a b) a (fneg b) := by unfold fsub; rfl

theorem addCore_of_isNaN (nan : F) {a b : F} (h : isNaN a = true ∨ isNaN b = true) : addCore nan a b = nan := by
  unfold addCore
  rw [if_pos (by simpa using h)]

theorem addCore_of_isInf_left (nan : F) {a b : F} (ha : isInf a = true) (hb : isNaN b = false)
    (hs : isInf b = true → signBit a = signBit b) : addCore nan a b = a := by
  unfold addCore
  rw [isNaN_eq_false_of_isInf ha, hb, ha]
  by_cases hib : isInf b = true
  · simp [hs hib]
  · simp [hib]

theorem addCore_of_isInf_right (nan : F) {a b : F} (ha : isFinite a = true) (hb : isInf b = true) :
    addCore nan a b = b := by
  unfold addCore
  simp [isNaN_eq_false_of_isFinite ha, isNaN_eq_false_of_isInf hb, isInf_eq_false_of_isFinite ha, hb]

theorem addCore_of_cancelling_infinities (nan : F) {a b : F} (ha : isInf a = true) (hb : isInf b = true)
    (hs : signBit a ≠ signBit b) : addCore nan a b = nan := by
  unfold addCore
  simp [isNaN_eq_false_of_isInf ha, isNaN_eq_false_of_isInf hb, ha, hb, hs]

theorem addCore_of_zero_sum (nan : F) {a b : F} (ha : isFinite a = true) (hb : isFinite b = true)
    (h : fixOf a + fixOf b = 0) :
    addCore nan a b = if a = 0x80000000 ∧ b = 0x80000000 then 0x80000000 else fZero := by
  have hcore : addCore nan a b = if signBit a && signBit b then 0x80000000 else fZero := by
    unfold addCore
    simp [isNaN_eq_false_of_isFinite ha, isNaN_eq_false_of_isFinite hb, isInf_eq_false_of_isFinite ha,
      isInf_eq_false_of_isFinite hb, h, makeF_zero]
  rw [hcore]
  refine if_congr ?_ rfl rfl
  rw [eq_negZero_iff, eq_negZero_iff, Bool.and_eq_true]
  refine ⟨fun ⟨hsa, hsb⟩ => ?_, fun ⟨⟨_, hsa⟩, _, hsb⟩ => ⟨hsa, hsb⟩⟩
  obtain ⟨hza, hzb⟩ : fixOf a = 0 ∧ fixOf b = 0 := by
    rw [fixOf_eq_signed, fixOf_eq_signed, hsa, hsb, signed_true, signed_true] at h ⊢
    omega
  exact ⟨⟨isZero_iff_fixOf.mpr hza, hsa⟩, isZero_iff_fixOf.mpr hzb, hsb⟩

/-- A sum of finite values is the exact sum, rounded, with the sign of the exact sum where that is not zero. -/
theorem addCore_roundsTo (nan : F) {a b : F} (ha : isFinite a = true) (hb : isFinite b = true) :
    ∃ s, RoundsTo s (fixOf a + fixOf b).natAbs 1 (addCore nan a b) ∧
      signed s (fixOf a + fixOf b).natAbs = fixOf a + fixOf b ∧
      (fixOf a + fixOf b ≠ 0 → s = decide (fixOf a + fixOf b < 0)) := by
  obtain ⟨s, heq, hs⟩ := addCore_of_isFinite nan ha hb
  refine ⟨s, heq ▸ roundsTo_makeF s _ Nat.one_pos, ?_, hs⟩
  by_cases hz : fixOf a + fixOf b = 0
  · rw [hz]; cases s <;> rfl
  · rw [hs hz, signed_natAbs]

/-- The rounding of a sum in the words of 40_numerics R101, counted in units of `2^-149`. -/
theorem addCore_nearestEven (nan : F) {a b : F} (ha : isFinite a = true) (hb : isFinite b = true) {exact : Int}
    (hexact : fixOf a + fixOf b = exact) {r : F} (hr : r = addCore nan a b) :
    (isFinite r = true → ∀ y : F, isFinite y = true →
      (fixOf r - exact).natAbs ≤ (fixOf y - exact).natAbs ∧
      ((fixOf r - exact).natAbs = (fixOf y - exact).natAbs → fixOf y ≠ fixOf r → magBits r % 2 = 0)) ∧
    (isFinite r = false ↔ (2 ^ 25 - 1) * 2 ^ 252 ≤ exact.natAbs) ∧
    (isFinite r = false → r = if 0 < exact then posInf else negInf) := by
  obtain ⟨s, hround, hsigned, hs⟩ := addCore_roundsTo nan ha hb
  rw [← hr, hexact] at hround
  rw [hexact] at hsigned hs
  have hoverflow : isFinite r = false ↔ (2 ^ 25 - 1) * 2 ^ 252 ≤ exact.natAbs := by
    simpa only [Nat.mul_one] using hround.overflow
  refine ⟨?_, hoverflow, fun hinf => ?_⟩
  · simpa only [hsigned, Nat.cast_one, Int.mul_one] using hround.nearest
  · have hne : exact ≠ 0 := by
      have := hoverflow.mp hinf
      rintro rfl
      norm_num at this
    rw [hround.infinite hinf, hs hne, makeF_infBits]
    by_cases hneg : exact < 0
    · rw [if_pos (by simpa using hneg), if_neg (by omega)]
    · rw [if_neg (by simpa using hneg), if_pos (by omega)]

theorem fneg_fneg (x : F) : fneg (fneg x) = x := by
  rw [← makeF_eta (fneg (fneg x)), signBit_fneg, signBit_fneg, magBits_fneg, magBits_fneg, Bool.not_not, makeF_eta]

theorem fneg_eq_negZero_iff {x : F} : fneg x = 0x80000000 ↔ x = fZero := by
  constructor
  · intro h
    rw [← fneg_fneg x, h]
    decide
  · rintro rfl
    decide

/-- Settles O44: a difference is the sum with the negated subtrahend, and a sum is one rounding of the exact sum. -/
theorem sumsAndDifferencesRoundToNearestEven : Obligations.SumsAndDifferencesRoundToNearestEven := by
  refine ⟨fun a b ha hb => ⟨?_, ?_, fun h => ?_, fun h => ?_⟩, fun a b ha hb => ⟨?_, ?_, ?_, ?_⟩,
    fun a b ha hb => ⟨fun hs => ?_, fun hs => ?_⟩⟩
  · exact addCore_nearestEven _ ha hb rfl (fadd_eq a b)
  · exact addCore_nearestEven _ ha ((isFinite_fneg b).trans hb) (by rw [fixOf_fneg, Int.sub_eq_add_neg]) (fsub_eq a b)
  · rw [fadd_eq, addCore_of_zero_sum _ ha hb h]
  · rw [fsub_eq, addCore_of_zero_sum _ ha ((isFinite_fneg b).trans hb) (by rw [fixOf_fneg]; omega)]
    exact if_congr (and_congr_right' fneg_eq_negZero_iff) rfl rfl
  · rw [fadd_eq, addCore_of_isInf_left _ ha (isNaN_eq_false_of_isFinite hb)]
    simp [isInf_eq_false_of_isFinite hb]
  · rw [fadd_eq, addCore_of_isInf_right _ hb ha]
  · rw [fsub_eq, addCore_of_isInf_left _ ha (by rw [isNaN_fneg, isNaN_eq_false_of_isFinite hb])]
    simp [isInf_fneg, isInf_eq_false_of_isFinite hb]
  · rw [fsub_eq, addCore_of_isInf_right _ hb (by rw [isInf_fneg, ha])]
  · rw [fadd_eq, addCore_of_isInf_left _ ha (isNaN_eq_false_of_isInf hb) fun _ => hs]
  · rw [fsub_eq, addCore_of_isInf_left _ ha (by rw [isNaN_fneg, isNaN_eq_false_of_isInf hb])]
    intro _
    rwa [signBit_fneg, Bool.eq_not]

/-! ### Products (40_numerics R101) -/

theorem fmul_of_isFinite {a b : F} (ha : isFinite a = true) (hb : isFinite b = true) :
    fmul a b = makeF (signBit a != signBit b) (roundMag (unitsOf (magBits a) * unitsOf (magBits b)) unit) := by
  unfold fmul
  simp [isNaN_eq_false_of_isFinite ha, isNaN_eq_false_of_isFinite hb, isInf_eq_false_of_isFinite ha,
    isInf_eq_false_of_isFinite hb]

theorem fmul_of_isInf {a b : F} (ha : isNaN a = false) (hb : isNaN b = false) (hza : isZero a = false)
    (hzb : isZero b = false) (h : isInf a = true ∨ isInf b = true) :
    fmul a b = if signBit a = signBit b then posInf else negInf := by
  unfold fmul
  rw [if_neg (by simp [ha, hb, hza, hzb]), if_pos (by simpa using h), makeF_bne_infBits]

theorem fmul_of_invalid {a b : F} (h : isNaN a = true ∨ isNaN b = true ∨ (isInf a = true ∧ isZero b = true) ∨
    (isZero a = true ∧ isInf b = true)) : fmul a b = nanOf .mul a b := by
  unfold fmul
  rw [if_pos (by simpa [or_assoc] using h)]

/-- Settles O45: a product of finite values is one rounding of the product of the magnitudes. -/
theorem multiplicationRoundsToNearestEven : Obligations.MultiplicationRoundsToNearestEven := by
  refine ⟨fun a b ha hb => ?_, fun a b ha hnan hzero => ?_⟩
  · have hround := roundsTo_makeF (signBit a != signBit b) (unitsOf (magBits a) * unitsOf (magBits b)) unit_pos
    have hexact : signed (signBit a != signBit b) (unitsOf (magBits a) * unitsOf (magBits b)) = fixOf a * fixOf b :=
      (signed_mul_signed _ _ _ _).symm
    have habs : unitsOf (magBits a) * unitsOf (magBits b) = (fixOf a * fixOf b).natAbs := by
      rw [← hexact, natAbs_signed]
    rw [← fmul_of_isFinite ha hb] at hround
    refine ⟨hround.sign, ?_, ?_, fun h => ?_⟩
    · simpa only [hexact, cast_unit] using hround.nearest
    · rw [hround.overflow, habs, unit]
    · rw [hround.infinite h, makeF_bne_infBits]
  · have hnan' := isNaN_eq_false_of_isInf ha
    have hzero' := isZero_eq_false_of_isInf ha
    refine ⟨fmul_of_isInf hnan' hnan hzero' hzero (.inl ha), ?_⟩
    rw [fmul_of_isInf hnan hnan' hzero hzero' (.inr ha)]
    exact if_congr eq_comm rfl rfl

/-! ### Quotients (40_numerics R101) -/

theorem fdiv_of_isFinite {a b : F} (ha : isFinite a = true) (hb : isFinite b = true) (hz : isZero b = false) :
    fdiv a b = makeF (signBit a != signBit b) (roundMag (unitsOf (magBits a) * unit) (unitsOf (magBits b))) := by
  unfold fdiv
  simp [isNaN_eq_false_of_isFinite ha, isNaN_eq_false_of_isFinite hb, isInf_eq_false_of_isFinite ha,
    isInf_eq_false_of_isFinite hb, hz]

theorem fdiv_of_invalid {a b : F} (h : isNaN a = true ∨ isNaN b = true ∨ (isInf a = true ∧ isInf b = true) ∨
    (isZero a = true ∧ isZero b = true)) : fdiv a b = nanOf .div a b := by
  unfold fdiv
  rw [if_pos (by simpa [or_assoc] using h)]

theorem fdiv_of_infinite_quotient {a b : F} (ha : isNaN a = false) (hb : isFinite b = true)
    (h : isInf a = true ∨ (isZero a = false ∧ isZero b = true)) :
    fdiv a b = if signBit a = signBit b then posInf else negInf := by
  have hvalid : isInf a = true ∨ isZero b = true := h.imp_right And.right
  have hzz : isZero a = true → isZero b = false := by
    rcases h with hi | ⟨hz, _⟩
    · simp [isZero_eq_false_of_isInf hi]
    · simp [hz]
  unfold fdiv
  rw [if_neg (by simpa [ha, isNaN_eq_false_of_isFinite hb, isInf_eq_false_of_isFinite hb] using hzz),
    if_pos (by simpa using hvalid), makeF_bne_infBits]

theorem fdiv_by_isInf {a b : F} (ha : isFinite a = true) (hb : isInf b = true) :
    fdiv a b = if signBit a = signBit b then fZero else 0x80000000 := by
  have hcore : fdiv a b = makeF (signBit a != signBit b) 0 := by
    unfold fdiv
    simp [isNaN_eq_false_of_isFinite ha, isNaN_eq_false_of_isInf hb, isInf_eq_false_of_isFinite ha, hb,
      isZero_eq_false_of_isInf hb]
  rw [hcore]
  cases signBit a <;> cases signBit b <;> rfl

/-- The error of a quotient does not change when both sides take the divisor's sign. -/
theorem natAbs_mul_signed_sub (z : Int) (s t : Bool) (m n d : Nat) :
    (z * signed t d - signed s m * n).natAbs = (z * d - signed (s != t) (m * n)).natAbs := by
  cases t
  · cases s <;> simp
  · rw [← Int.natAbs_neg]
    cases s <;> simp <;> ring_nf

/-- Settles O46: a quotient of finite values is one rounding of the quotient of the magnitudes. -/
theorem divisionRoundsToNearestEven : Obligations.DivisionRoundsToNearestEven := by
  refine ⟨fun a b ha hb hz => ?_, fun a b ha hza hzb => ?_, fun a b ha hb => ?_,
    fun a b ha hb => fdiv_by_isInf ha hb⟩
  · have hd : 0 < unitsOf (magBits b) := by
      rw [Nat.pos_iff_ne_zero, ne_eq, unitsOf_eq_zero, ← isZero_iff, hz]
      exact Bool.false_ne_true
    have hround := roundsTo_makeF (signBit a != signBit b) (unitsOf (magBits a) * unit) hd
    rw [← fdiv_of_isFinite ha hb hz] at hround
    have herr : ∀ z : F, (fixOf z * fixOf b - fixOf a * (2 ^ 149 : Int)).natAbs =
        (fixOf z * unitsOf (magBits b) - signed (signBit a != signBit b) (unitsOf (magBits a) * unit)).natAbs :=
      fun z => natAbs_mul_signed_sub (fixOf z) (signBit a) (signBit b) _ (2 ^ 149) _
    refine ⟨hround.sign, ?_, ?_, fun h => ?_⟩
    · simpa only [herr] using hround.nearest
    · rw [hround.overflow, natAbs_fixOf, natAbs_fixOf, unit]
    · rw [hround.infinite h, makeF_bne_infBits]
  · exact fdiv_of_infinite_quotient (isNaN_eq_false_of_isFinite ha) (isFinite_of_isZero hzb) (.inr ⟨hza, hzb⟩)
  · exact fdiv_of_infinite_quotient (isNaN_eq_false_of_isInf ha) hb (.inl ha)

end Sys2Proof.Machine
end

section
/-! PROOFS. The statements about the numerics that need no nearest value: the exact identities, the comparisons, the
invalid operations, the conversions and remainders, and the open functions (40_numerics R102 to R117, 42_exciter
R146). -/

namespace Sys2Proof.Machine

open Sys2Proof.Config

/-! ### Exact identities (40_numerics R117) -/

/-- Adding a zero of either sign to a finite value that is no zero leaves its pattern alone. -/
theorem addCore_of_isZero_right (nan : F) {x z : F} (hx : isFinite x = true) (h0 : fixOf x ≠ 0)
    (hz : isZero z = true) : addCore nan x z = x := by
  have hsum : fixOf x + fixOf z = fixOf x := by rw [isZero_iff_fixOf.mp hz, Int.add_zero]
  obtain ⟨_, hval⟩ := addCore_exact nan hx (isFinite_of_isZero hz) (by rw [hsum]; exact representable_fixOf hx)
  exact eq_of_fixOf_eq (hval.trans hsum) h0

theorem fadd_fZero {x : F} (hx : isFinite x = true) (hneg : x ≠ 0x80000000) : fadd x fZero = x := by
  rw [fadd_eq]
  by_cases h0 : fixOf x = 0
  · have hzero := isZero_iff_fixOf.mpr h0
    have hsign : signBit x = false := by simpa [hzero] using mt eq_negZero_iff.mpr hneg
    have hpos : x = fZero := by rw [eq_zeros_of_isZero hzero, hsign]; rfl
    rw [addCore_of_zero_sum _ hx isFinite_fZero (by rw [h0, fixOf_fZero]; rfl), if_neg fun h => hneg h.1, hpos]
  · exact addCore_of_isZero_right _ hx h0 (by decide)

/-- Subtracting a zero of either sign from 1.0 leaves 1.0. -/
theorem fsub_fOne_of_isZero {z : F} (hz : isZero z = true) : fsub fOne z = fOne := by
  have h1 : fixOf fOne ≠ 0 := by
    rw [fixOf_fOne]
    exact_mod_cast Nat.ne_of_gt unit_pos
  rw [fsub_eq]
  exact addCore_of_isZero_right _ isFinite_fOne h1 (by rw [isZero_iff, magBits_fneg, isZero_iff.mp hz])

theorem isZero_fmul_fZero {x : F} (hx : isFinite x = true) : isZero (fmul x fZero) = true := by
  have hmag : magBits fZero = 0 := by decide
  have hround : roundMag 0 unit = 0 := by simpa using roundMag_exact (mag := 0) unit_pos (by decide)
  rw [fmul_of_isFinite hx isFinite_fZero, hmag, unitsOf_zero, Nat.mul_zero, hround, isZero_iff,
    magBits_makeF _ (by norm_num)]

theorem fadd_fneg_self {x : F} (hx : isFinite x = true) : fadd x (fneg x) = fZero := by
  rw [fadd_eq, addCore_of_zero_sum _ hx ((isFinite_fneg x).trans hx) (by rw [fixOf_fneg]; omega), if_neg]
  rintro ⟨rfl, hneg⟩
  exact absurd hneg (by decide)

/-- Settles O47: an exact result is left alone by the rounding, and has one pattern where it is not zero. -/
theorem exactIdentitiesHold : Obligations.ExactIdentitiesHold := by
  refine ⟨fun x hx => ⟨fmul_fOne_of_isFinite hx, fadd_fZero hx, isZero_fmul_fZero hx, fadd_fneg_self hx⟩,
    fun x => ⟨signBit_fneg x, magBits_fneg x⟩, ?_, fsub_fOne_of_isZero (by decide), fsub_fOne_of_isZero (by decide),
    fadd_fZero isFinite_fZero (by decide)⟩
  rw [fadd_eq, addCore_of_zero_sum _ (by decide) isFinite_fZero (by decide), if_neg (by decide)]

/-! ### Comparisons (40_numerics R103) -/

theorem flt_iff_orderKey {a b : F} :
    flt a b = true ↔ isNaN a = false ∧ isNaN b = false ∧ orderKey a < orderKey b := by
  unfold flt
  simp [and_assoc]

theorem fge_iff_orderKey {a b : F} :
    fge a b = true ↔ isNaN a = false ∧ isNaN b = false ∧ orderKey b ≤ orderKey a := by
  unfold fge
  simp [and_assoc]

theorem fgt_eq (a b : F) : fgt a b = flt b a := by unfold fgt; rfl

/-- What the three comparisons say where the first operand lies below the second. -/
theorem comparisons_of_orderKey_lt {a b : F} (ha : isNaN a = false) (hb : isNaN b = false)
    (h : orderKey a < orderKey b) :
    flt a b = true ∧ fgt b a = true ∧ fge b a = true ∧ flt b a = false ∧ fgt a b = false ∧ fge a b = false := by
  have hlt : flt a b = true := flt_iff_orderKey.mpr ⟨ha, hb, h⟩
  have hnot : flt b a = false := by rw [Bool.eq_false_iff, ne_eq, flt_iff_orderKey]; omega
  have hnge : fge a b = false := by rw [Bool.eq_false_iff, ne_eq, fge_iff_orderKey]; omega
  exact ⟨hlt, (fgt_eq b a).trans hlt, fge_iff_orderKey.mpr ⟨hb, ha, le_of_lt h⟩, hnot, (fgt_eq a b).trans hnot, hnge⟩

theorem natAbs_orderKey (x : F) : (orderKey x).natAbs = magBits x := by unfold orderKey; split <;> simp

theorem orderKey_posInf : orderKey posInf = infBits := by decide

theorem orderKey_negInf : orderKey negInf = -(infBits : Int) := by decide

theorem comparisons_of_isNaN {a b : F} (h : isNaN a = true ∨ isNaN b = true) :
    flt a b = false ∧ fgt a b = false ∧ fge a b = false := by
  simp only [Bool.eq_false_iff, ne_eq, fgt_eq, flt_iff_orderKey, fge_iff_orderKey]
  rcases h with h | h <;> simp [h]

/-- Settles O48: the comparisons are those of the order keys, which order the finite values and put the infinities at
the ends. -/
theorem comparisonsAreThoseOfTheValues : Obligations.ComparisonsAreThoseOfTheValues := by
  have hposNaN : isNaN posInf = false := by decide
  have hnegNaN : isNaN negInf = false := by decide
  refine ⟨fun a b ha hb => ⟨flt_iff ha hb, ?_, fge_iff ha hb⟩, ?_, ?_, fun a ha => ?_, fun a b => comparisons_of_isNaN⟩
  · rw [fgt_eq]
    exact flt_iff hb ha
  · rintro a (ha | rfl)
    · refine comparisons_of_orderKey_lt (isNaN_eq_false_of_isFinite ha) hposNaN ?_
      have := natAbs_orderKey a
      have := isFinite_iff.mp ha
      rw [orderKey_posInf]
      omega
    · exact comparisons_of_orderKey_lt hnegNaN hposNaN (by decide)
  · rintro a (ha | rfl)
    · refine comparisons_of_orderKey_lt hnegNaN (isNaN_eq_false_of_isFinite ha) ?_
      have := natAbs_orderKey a
      have := isFinite_iff.mp ha
      rw [orderKey_negInf]
      omega
    · exact comparisons_of_orderKey_lt hnegNaN hposNaN (by decide)
  · have hirrefl : flt a a = false := by
      rw [Bool.eq_false_iff, ne_eq, flt_iff_orderKey]
      omega
    exact ⟨hirrefl, (fgt_eq a a).trans hirrefl, by simp [fge_iff_orderKey, isNaN_eq_false_of_isInf ha]⟩

/-! ### Invalid operations (40_numerics R101, R104, R106, R115) -/

theorem isNaN_ffloor {x : F} (h : isNaN x = true) : isNaN (ffloor x) = true := by
  unfold ffloor
  rw [if_pos h, isNaN_nanOf]

theorem isNaN_fmod2 {x : F} (h : isFinite x = false) : isNaN (fmod2 x) = true := by
  unfold fmod2
  rw [h, if_neg Bool.false_ne_true, isNaN_nanOf]

theorem isFinite_eq_false_of_isNaN {x : F} (h : isNaN x = true) : isFinite x = false := by
  by_contra hf
  simp [isNaN_eq_false_of_isFinite (by simpa using hf)] at h

theorem isFinite_eq_false_of_isInf {x : F} (h : isInf x = true) : isFinite x = false := by
  by_contra hf
  simp [isInf_eq_false_of_isFinite (by simpa using hf)] at h

/-- Settles O49: each invalid operation answers its free NaN. -/
theorem invalidOperationsGiveANaN : Obligations.InvalidOperationsGiveANaN := by
  refine ⟨fun a b h => ⟨?_, ?_, ?_, ?_⟩, fun a => ⟨isNaN_ffloor, fun h => ?_⟩, fun a b ha hb => ⟨?_, ?_⟩,
    fun a b ha hb => ?_, fun a b ha hb => ⟨?_, fun hs => ?_, fun hs => ?_⟩⟩
  · rw [fadd_eq, addCore_of_isNaN _ h, isNaN_nanOf]
  · rw [fsub_eq, addCore_of_isNaN _ (by rwa [isNaN_fneg]), isNaN_nanOf]
  · rw [fmul_of_invalid (by tauto), isNaN_nanOf]
  · rw [fdiv_of_invalid (by tauto), isNaN_nanOf]
  · exact isNaN_fmod2 (h.elim isFinite_eq_false_of_isNaN isFinite_eq_false_of_isInf)
  · rw [fmul_of_invalid (by tauto), isNaN_nanOf]
  · rw [fmul_of_invalid (by tauto), isNaN_nanOf]
  · rw [fdiv_of_invalid (by tauto), isNaN_nanOf]
  · rw [fdiv_of_invalid (by tauto), isNaN_nanOf]
  · rw [fsub_eq, addCore_of_cancelling_infinities _ ha ((isInf_fneg b).trans hb) (by simp [signBit_fneg, hs]),
      isNaN_nanOf]
  · rw [fadd_eq, addCore_of_cancelling_infinities _ ha hb hs, isNaN_nanOf]

/-! ### Conversions and remainders (40_numerics R106 to R108, R115) -/

theorem ffloor_of_isInf_or_isZero {x : F} (hn : isNaN x = false) (h : isInf x = true ∨ isZero x = true) :
    ffloor x = x := by
  unfold ffloor
  rw [hn, if_neg Bool.false_ne_true, if_pos (by simpa using h)]

theorem truncToInt_of_isFinite {x : F} (hx : isFinite x = true) :
    truncToInt x = signed (signBit x) (unitsOf (magBits x) / unit) := by
  unfold truncToInt
  rw [if_pos hx, fixOf_eq_signed]
  cases signBit x <;> simp [Int.neg_tdiv]

theorem truncToInt_bounds {x : F} (hx : isFinite x = true) :
    0 ≤ truncToInt x * fixOf x ∧ (truncToInt x).natAbs * unit ≤ (fixOf x).natAbs ∧
      (fixOf x).natAbs < ((truncToInt x).natAbs + 1) * unit := by
  rw [truncToInt_of_isFinite hx, fixOf_eq_signed, signed_mul_signed, natAbs_signed, natAbs_signed, bne_self_eq_false,
    signed_false]
  exact ⟨Int.natCast_nonneg _, Nat.div_mul_le_self _ _, Nat.mul_comm unit _ ▸ Nat.lt_mul_div_succ _ unit_pos⟩

theorem roundHalfAway_of_isFinite {x : F} (hx : isFinite x = true) :
    roundHalfAway x = signed (signBit x) ((2 * unitsOf (magBits x) + unit) / (2 * unit)) := by
  unfold roundHalfAway
  rw [if_pos hx]
  rfl

theorem roundHalfAway_near {x : F} (hx : isFinite x = true) :
    2 * (roundHalfAway x * (unit : Int) - fixOf x).natAbs ≤ unit ∧
      (2 * (roundHalfAway x * (unit : Int) - fixOf x).natAbs = unit →
        (fixOf x).natAbs < (roundHalfAway x).natAbs * unit) := by
  rw [roundHalfAway_of_isFinite hx, fixOf_eq_signed, natAbs_signed_sub_same, natAbs_signed, natAbs_signed]
  generalize unitsOf (magBits x) = n
  have hpos := unit_pos
  have hdm := Nat.div_add_mod' (2 * n + unit) (2 * unit)
  have hlt := Nat.mod_lt (2 * n + unit) (y := 2 * unit) (by omega)
  rw [Nat.mul_left_comm] at hdm
  omega

theorem fmod2_of_isFinite {x : F} (hx : isFinite x = true) :
    isFinite (fmod2 x) = true ∧ signBit (fmod2 x) = signBit x ∧
      fixOf (fmod2 x) = (fixOf x).tmod (2 * (unit : Int)) := by
  have htwo : 2 * unit = 2 ^ 150 := by decide
  have hrep : Representable (unitsOf (magBits x) % (2 * unit)) := by
    rw [htwo, ← natAbs_fixOf]
    exact representable_mod (representable_fixOf hx) (by norm_num)
  obtain ⟨hfin, hval⟩ := unitsOf_roundMag_of_representable hrep
  have hlt := roundMag_lt (unitsOf (magBits x) % (2 * unit)) 1
  unfold fmod2
  rw [if_pos hx]
  refine ⟨isFinite_makeF _ hfin, signBit_makeF _ hlt, ?_⟩
  rw [fixOf_makeF _ hlt, hval, fixOf_eq_signed]
  cases signBit x <;> simp [Int.neg_tmod, Int.tmod_eq_emod_of_nonneg]

/-- Settles O50: the four operations on the magnitude, and the Euclidean remainder on the integers. -/
theorem floorConversionsAndRemaindersAreExact : Obligations.FloorConversionsAndRemaindersAreExact := by
  unfold Obligations.FloorConversionsAndRemaindersAreExact
  rw [← cast_unit]
  refine ⟨fun x hx => ⟨?_, truncToInt_bounds hx, roundHalfAway_near hx, fmod2_of_isFinite hx⟩, fun x hx => ?_,
    fun a n hn => ?_⟩
  · obtain ⟨hfin, hval⟩ := ffloor_of_isFinite hx
    exact ⟨hfin, hval, fun hz => ffloor_of_isInf_or_isZero (isNaN_eq_false_of_isFinite hx) (.inr hz)⟩
  · exact ffloor_of_isInf_or_isZero (isNaN_eq_false_of_isInf hx) (.inl hx)
  · unfold emod
    exact ⟨Int.emod_nonneg a (by omega), Int.emod_lt_of_pos a (by omega), Int.dvd_self_sub_emod⟩

/-- Settles O51: below `+0` the fraction may round up to 1, elsewhere it is exact. -/
theorem wrapOneIsTheFractionalPart : Obligations.WrapOneIsTheFractionalPart := by
  refine fun x => ⟨fun hx hge => ?_, fun hx _ => (wrap1_bounds hx).2, isNaN_wrap1⟩
  have h0 : 0 ≤ fixOf x := by simpa only [fixOf_fZero] using (fge_iff hx isFinite_fZero).mp hge
  obtain ⟨hfin, hval⟩ := wrap1_exact hx h0
  exact ⟨hfin, cast_unit ▸ hval, inUnit_wrap1 hx h0⟩

/-! ### The open functions (40_numerics R110, R111, 42_exciter R146) -/

theorem inRange_iff {lo hi x : F} :
    inRange lo hi x = true ↔ isFinite x = true ∧ fge x lo = true ∧ fge hi x = true := by
  simp [inRange, and_assoc]

/-- A free value that is limited to a range lies in it. -/
theorem inRange_limited {lo hi d : F} (hd : inRange lo hi d = true) (raw : F) :
    inRange lo hi (if inRange lo hi raw then raw else d) = true := by
  split <;> assumption

theorem inRange_signed_fZero : inRange (fneg fOne) fOne fZero = true := by decide +kernel

theorem inRange_numSin {x : F} (hx : isFinite x = true) : inRange (fneg fOne) fOne (numSin x) = true := by
  unfold numSin
  rw [if_pos hx]
  split
  · exact inRange_signed_fZero
  · exact inRange_limited inRange_signed_fZero _

theorem inRange_noise (j : Nat) : inRange (fneg fOne) fOne (noise j) = true := by
  unfold noise
  exact inRange_limited inRange_signed_fZero _

theorem isNaN_numSin {x : F} (hx : isFinite x = false) : isNaN (numSin x) = true := by
  unfold numSin
  rw [hx, if_neg Bool.false_ne_true, isNaN_nanOf]

theorem numExp_of_isZero {x : F} (hx : isZero x = true) : numExp x = fOne := by
  unfold numExp
  rw [isNaN_eq_false_of_isFinite (isFinite_of_isZero hx), if_neg Bool.false_ne_true, if_pos hx]

theorem isNaN_numExp {x : F} (hx : isNaN x = true) : isNaN (numExp x) = true := by
  unfold numExp
  rw [if_pos hx, isNaN_nanOf]

/-- Below zero the exponential is the free value limited to `[0, 1]`, at zero it is 1. -/
theorem inRange_numExp {x : F} (hx : isFinite x = true) (hle : fixOf x ≤ 0) :
    inRange fZero fOne (numExp x) = true := by
  by_cases hz : isZero x = true
  · rw [numExp_of_isZero hz]
    decide +kernel
  · have hsign : signBit x = true := by
      by_contra hpos
      rw [isZero_iff_fixOf] at hz
      rw [fixOf_eq_signed, Bool.eq_false_of_not_eq_true hpos, signed_false] at hz hle
      omega
    have hninf : x ≠ negInf := fun h => absurd (h ▸ hx) (by decide)
    have hpinf : x ≠ posInf := fun h => absurd (h ▸ hx) (by decide)
    unfold numExp
    rw [isNaN_eq_false_of_isFinite hx, if_neg Bool.false_ne_true, if_neg hz, if_neg hninf, if_neg hpinf, if_pos hsign]
    exact inRange_limited (by decide +kernel) _

/-- Settles O52: a free value is used only where it lies in the named range. -/
theorem openFunctionsHaveTheirNamedProperties : Obligations.OpenFunctionsHaveTheirNamedProperties := by
  refine ⟨?_, fun x hx => inRange_iff.mp (inRange_numSin hx), fun x => isNaN_numSin, numExp_of_isZero (by decide),
    numExp_of_isZero (by decide), fun x hx hle => ?_, fun x => isNaN_numExp, ?_, ?_,
    fun j => inRange_iff.mp (inRange_noise j)⟩
  · unfold numSin
    rw [if_pos isFinite_fZero, if_pos rfl]
  · have hle' : fixOf x ≤ 0 := by simpa only [fixOf_fZero] using (fge_iff isFinite_fZero hx).mp hle
    exact (inRange_iff.mp (inRange_numExp hx hle')).2
  · unfold numExp
    decide +kernel
  · unfold numExp
    decide +kernel

end Sys2Proof.Machine
end

section
/-! PROOFS. The delay line over consecutive calls of `V.RENDER` (41_ring_delay_line R135, R136): where call `k` writes
and reads, and which words the calls before it have left alone. -/

namespace Sys2Proof.Machine

open Sys2Proof.Config

variable {nv cw : Nat}

/-! ### One call -/

/-- The word a `V.RENDER` reads is the one at the cursor it seeks. -/
theorem seekReadCursor_rc (cfg : Engine) (v : Fin nv) (s : State nv cw) :
    ((seekReadCursor cfg v s).voice v).rc = soughtCursor cfg v s := by
  rw [seekReadCursor_voice_same]
  rfl

/-- The delay is made of the note's period and the rate, which no sample writes. -/
theorem delaySamples_vRender (cfg : Engine) {v : Fin nv} {s : State nv cw} (h : (s.voice v).active = true) :
    delaySamples cfg v (vRender cfg v s).2 = delaySamples cfg v s := by
  unfold delaySamples
  rw [vRender_voice_same cfg h, vRender_sr]
  rfl

/-- A call writes the one word under the write cursor (41_ring_delay_line R132). -/
theorem dlRead_vRender_ne (cfg : Engine) {v : Fin nv} {s : State nv cw} {a : Nat} (h : (s.voice v).active = true)
    (ha : a ≠ (s.voice v).wc.toNat) : dlRead v a (vRender cfg v s).2 = dlRead v a s := by
  unfold dlRead
  rw [vRender_voice_same cfg h]
  exact memRead_memWrite_ne _ _ ha

theorem toNat_stepCursor (c : BitVec cw) {len : BitVec cw} (hlen : 1 ≤ len.toNat) :
    (stepCursor c len).toNat = (c.toNat + 1) % len.toNat := by
  have h : ((stepCursor c len).toNat : Int) = ((c.toNat : Int) + 1) % (len.toNat : Int) := toNat_cursorOf_emod _ hlen
  exact_mod_cast h

/-! ### Consecutive calls -/

section Calls

variable (cfg : Engine) (v : Fin nv) {s : State nv cw}

theorem afterRenders_succ (k : Nat) : afterRenders cfg v (k + 1) s = (vRender cfg v (afterRenders cfg v k s)).2 := rfl

@[simp] theorem afterRenders_len (k : Nat) : (afterRenders cfg v k s).len = s.len := by
  induction k with
  | zero => rfl
  | succ k ih => exact (vRender_len cfg v _).trans ih

theorem afterRenders_active (hactive : (s.voice v).active = true) (k : Nat) :
    ((afterRenders cfg v k s).voice v).active = true := by
  induction k with
  | zero => exact hactive
  | succ k ih =>
    rw [afterRenders_succ, vRender_voice_same cfg ih]
    exact ih

theorem afterRenders_delaySamples (hactive : (s.voice v).active = true) (k : Nat) :
    delaySamples cfg v (afterRenders cfg v k s) = delaySamples cfg v s := by
  induction k with
  | zero => rfl
  | succ k ih => exact (delaySamples_vRender cfg (afterRenders_active cfg v hactive k)).trans ih

/-- Call `k` of a note writes word `emod(k, LEN)` (41_ring_delay_line R136). -/
theorem afterRenders_wc (hactive : (s.voice v).active = true) (hwc : (s.voice v).wc = 0) (hlen : 1 ≤ s.len.toNat)
    (k : Nat) : ((afterRenders cfg v k s).voice v).wc.toNat = k % s.len.toNat := by
  induction k with
  | zero => simp [afterRenders, hwc]
  | succ k ih =>
    have hstep : ((afterRenders cfg v (k + 1) s).voice v).wc =
        stepCursor ((afterRenders cfg v k s).voice v).wc s.len := by
      rw [afterRenders_succ, vRender_voice_same cfg (afterRenders_active cfg v hactive k)]
      exact congrArg (stepCursor _) (afterRenders_len cfg v k)
    rw [hstep, toNat_stepCursor _ hlen, ih, Nat.mod_add_mod]

/-- Call `k` of a note reads word `emod(k - d, LEN)` (41_ring_delay_line R136). -/
theorem afterRenders_soughtCursor (hactive : (s.voice v).active = true) (hwc : (s.voice v).wc = 0)
    (hlen : 1 ≤ s.len.toNat) (k : Nat) :
    ((soughtCursor cfg v (afterRenders cfg v k s)).toNat : Int) =
      emod ((k : Int) - delaySamples cfg v s) s.len.toNat := by
  unfold soughtCursor
  rw [afterRenders_wc cfg v hactive hwc hlen, afterRenders_delaySamples cfg v hactive, afterRenders_len,
    toNat_cursorOf_emod _ hlen]
  push_cast
  exact Int.emod_sub_emod _ _ _

/-- A word that none of the calls from `m` on, before call `n`, writes holds before call `n` what it held before
call `m`. -/
theorem dlRead_afterRenders_of_unwritten (hactive : (s.voice v).active = true) (hwc : (s.voice v).wc = 0)
    (hlen : 1 ≤ s.len.toNat) {a m n : Nat} (hmn : m ≤ n)
    (ha : ∀ i, m ≤ i → i < n → a ≠ i % s.len.toNat) :
    dlRead v a (afterRenders cfg v n s) = dlRead v a (afterRenders cfg v m s) := by
  induction n, hmn using Nat.le_induction with
  | base => rfl
  | succ n hmn ih =>
    have hother : a ≠ ((afterRenders cfg v n s).voice v).wc.toNat := by
      rw [afterRenders_wc cfg v hactive hwc hlen]
      exact ha n hmn (Nat.lt_succ_self n)
    calc dlRead v a (afterRenders cfg v (n + 1) s)
        = dlRead v a (afterRenders cfg v n s) := dlRead_vRender_ne cfg (afterRenders_active cfg v hactive n) hother
      _ = dlRead v a (afterRenders cfg v m s) := ih fun i hmi hin => ha i hmi (Nat.lt_succ_of_lt hin)

end Calls

/-! ### The delay brought into 1 to `LEN` -/

/-- The delay the line realises: `d` modulo the buffer length, a multiple of the length being one whole length. -/
def realisedDelay (len d : Nat) : Nat := if d % len = 0 then len else d % len

theorem realisedDelay_pos {len : Nat} (hlen : 1 ≤ len) (d : Nat) : 1 ≤ realisedDelay len d := by
  unfold realisedDelay
  split <;> omega

theorem realisedDelay_le {len : Nat} (hlen : 1 ≤ len) (d : Nat) : realisedDelay len d ≤ len := by
  have hlt := Nat.mod_lt d hlen
  unfold realisedDelay
  split <;> omega

/-- Counted around the ring, going back `d` words and going back the realised delay come to the same word. -/
theorem emod_sub_realisedDelay (len d : Nat) (k : Int) :
    emod (k - d) len = (k - realisedDelay len d) % (len : Int) := by
  have hmod : ((realisedDelay len d : Nat) : Int) % len = (d : Int) % len := by
    unfold realisedDelay
    split
    next h => rw [Int.emod_self, ← Int.natCast_mod, h, Nat.cast_zero]
    next => rw [Int.natCast_mod, Int.emod_emod]
  exact Int.emod_eq_emod_iff_emod_sub_eq_zero.mpr (by
    rw [sub_sub_sub_cancel_left]
    exact Int.emod_eq_emod_iff_emod_sub_eq_zero.mp hmod)

/-- The ring is not shorter than the delay, so no call strictly between call `k - D` and call `k` writes the word that
call `k` reads. -/
theorem read_word_ne_write_word {len D k i pos : Nat} (hD : D ≤ len) (hpos : (pos : Int) = ((k : Int) - D) % len)
    (hik : i < k) (hki : k < i + D) : pos ≠ i % len := by
  intro heq
  have hsame : (i : Int) % len = ((k : Int) - D) % len := by rw [← hpos, heq, Int.natCast_mod]
  have hdvd : (len : Int) ∣ (i : Int) - ((k : Int) - D) := Int.ModEq.dvd (Eq.symm hsame)
  have hle := Int.le_of_dvd (by omega) hdvd
  omega

/-- Settles O34: between the write of call `k - D` and the read of call `k` the write cursor does not come round to the
word again. -/
theorem delayLineRealisesTheDelay : Obligations.DelayLineRealisesTheDelay := by
  intro nv cw cfg v s d k hactive hwc hd hlen D before pos
  have hread : (pos : Int) = emod ((k : Int) - d) s.len.toNat := by
    rw [← hd, ← afterRenders_soughtCursor cfg v hactive hwc hlen k, ← seekReadCursor_rc]
  have hback : (pos : Int) = ((k : Int) - D) % (s.len.toNat : Int) := hread.trans (emod_sub_realisedDelay _ d k)
  have hD1 : 1 ≤ D := realisedDelay_pos hlen d
  have hunwritten : ∀ i, i < k → k < i + D → pos ≠ i % s.len.toNat := fun i =>
    read_word_ne_write_word (realisedDelay_le hlen d) hback
  refine ⟨afterRenders_wc cfg v hactive hwc hlen k, hread, fun hk => ?_, fun hk => ?_⟩
  · exact dlRead_afterRenders_of_unwritten cfg v hactive hwc hlen (Nat.zero_le k) fun i _ hi =>
      hunwritten i hi (by omega)
  · have hsame : pos = ((afterRenders cfg v (k - D) s).voice v).wc.toNat := by
      rw [afterRenders_wc cfg v hactive hwc hlen]
      zify [hk]
      exact hback
    rw [← hsame]
    exact dlRead_afterRenders_of_unwritten cfg v hactive hwc hlen (by omega) fun i hi hik =>
      hunwritten i hik (by omega)

end Sys2Proof.Machine
end

section
/-! PROOFS. The statements about the exciter (42_exciter R141 to R149): the range of the waveforms for a phase in
`[0, 1)`, the gain that never rises, and the positive step that leaves it where it is. -/

namespace Sys2Proof.Machine

open Sys2Proof.Config

variable {nv cw : Nat}

/-! ### What keeps a result finite (40_numerics R101) -/

/-- The finite magnitudes stay below the overflow threshold of 40_numerics R101. -/
theorem unitsOf_lt_overflow {mag : Nat} (h : mag < infBits) : unitsOf mag < (2 ^ 25 - 1) * 2 ^ 252 := by
  have hmid := unitsOf_overflow_midpoint
  have hle : unitsOf mag ≤ unitsOf (infBits - 1) := unitsOf_le_iff.mpr (Nat.le_sub_one_of_lt h)
  have hlt : unitsOf (infBits - 1) < unitsOf infBits := unitsOf_lt_iff.mpr (by decide)
  omega

/-- A sum no larger in magnitude than some finite value does not overflow. -/
theorem isFinite_addCore (nan : F) {a b c : F} (ha : isFinite a = true) (hb : isFinite b = true)
    (hc : isFinite c = true) (h : (fixOf a + fixOf b).natAbs ≤ (fixOf c).natAbs) :
    isFinite (addCore nan a b) = true := by
  obtain ⟨_, hoverflow, _⟩ := addCore_nearestEven nan ha hb rfl rfl
  have hlt := unitsOf_lt_overflow (isFinite_iff.mp hc)
  rw [← natAbs_fixOf] at hlt
  rw [← Bool.not_eq_false, hoverflow]
  omega

/-- A factor in `[0, 1)` does not make a finite product overflow. -/
theorem isFinite_fmul_of_inUnit {a p : F} (ha : isFinite a = true) (hp : inUnit p = true) :
    isFinite (fmul a p) = true := by
  obtain ⟨hfin, h0, h1⟩ := inUnit_iff.mp hp
  have hle : unitsOf (magBits p) ≤ unit := by
    rw [← natAbs_fixOf]
    omega
  rw [fmul_of_isFinite ha hfin]
  refine isFinite_makeF _ ((roundMag_lt_infBits_iff _ unit_pos).mpr ?_)
  exact Nat.mul_lt_mul_of_lt_of_le (unitsOf_lt_overflow (isFinite_iff.mp ha)) hle unit_pos

/-! ### Rounding does not pass a finite value (40_numerics R101) -/

theorem addCore_le (nan : F) {a b c : F} (ha : isFinite a = true) (hb : isFinite b = true) (hc : isFinite c = true)
    (hfin : isFinite (addCore nan a b) = true) (h : fixOf a + fixOf b ≤ fixOf c) :
    fixOf (addCore nan a b) ≤ fixOf c := by
  obtain ⟨hnearest, _⟩ := addCore_nearestEven nan ha hb rfl rfl
  obtain ⟨hle, _⟩ := hnearest hfin c hc
  omega

theorem le_addCore (nan : F) {a b c : F} (ha : isFinite a = true) (hb : isFinite b = true) (hc : isFinite c = true)
    (hfin : isFinite (addCore nan a b) = true) (h : fixOf c ≤ fixOf a + fixOf b) :
    fixOf c ≤ fixOf (addCore nan a b) := by
  obtain ⟨hnearest, _⟩ := addCore_nearestEven nan ha hb rfl rfl
  obtain ⟨hle, _⟩ := hnearest hfin c hc
  omega

/-! ### The waveforms (42_exciter R142 to R145) -/

/-- Doubling a value that does not overflow is exact. -/
theorem fmul_fTwo_exact {x : F} (hx : isFinite x = true) (h : unitsOf (magBits x) < 2 ^ 276) :
    isFinite (fmul fTwo x) = true ∧ fixOf (fmul fTwo x) = 2 * fixOf x := by
  obtain ⟨mag, hmag⟩ := exists_unitsOf_double (magBits x)
  have hlt : mag < infBits := by
    rw [← unitsOf_lt_iff, hmag, unitsOf_infBits]
    omega
  have htwo : unitsOf (magBits fTwo) = 2 * unit := by decide +kernel
  have hsign : signBit fTwo = false := by decide
  have hround : roundMag (unitsOf (magBits fTwo) * unitsOf (magBits x)) unit = mag := by
    rw [htwo, Nat.mul_right_comm, ← hmag]
    exact roundMag_exact unit_pos hlt
  rw [fmul_of_isFinite (by decide) hx, hround, hsign, Bool.false_bne, fixOf_makeF _ (lt_trans hlt infBits_lt), hmag]
  refine ⟨isFinite_makeF _ hlt, ?_⟩
  rw [fixOf_eq_signed]
  cases signBit x <;> simp

/-- A value below 2 in magnitude is its own remainder by 2. -/
theorem fmod2_of_lt_two {x : F} (hx : isFinite x = true) (h : (fixOf x).natAbs < 2 * unit) : fmod2 x = x := by
  rw [natAbs_fixOf] at h
  have hround : roundMag (unitsOf (magBits x)) 1 = magBits x := by
    simpa using roundMag_exact (d := 1) Nat.one_pos (isFinite_iff.mp hx)
  unfold fmod2
  rw [if_pos hx, Nat.mod_eq_of_lt h, hround, makeF_eta]

/-- Twice a phase in `[0, 1)` is exact and in `[0, 2)`. -/
theorem doubled_phase {p : F} (hp : inUnit p = true) :
    isFinite (fmul fTwo p) = true ∧ 0 ≤ fixOf (fmul fTwo p) ∧ fixOf (fmul fTwo p) < 2 * (unit : Int) := by
  obtain ⟨hfin, h0, h1⟩ := inUnit_iff.mp hp
  have hlt : unitsOf (magBits p) < 2 ^ 276 := by
    rw [← natAbs_fixOf]
    rw [cast_unit] at h1
    omega
  obtain ⟨hfin2, hval⟩ := fmul_fTwo_exact hfin hlt
  exact ⟨hfin2, by omega, by omega⟩

/-- The wrapping of the sawtooth does nothing to a phase in `[0, 1)`. -/
theorem waveSawtooth_eq {p : F} (hp : inUnit p = true) : waveSawtooth p = fsub (fmul fTwo p) fOne := by
  obtain ⟨hfin, h0, h2⟩ := doubled_phase hp
  rw [waveSawtooth, fmod2_of_lt_two hfin (by omega)]

theorem inRange_waveSine {p : F} (hp : inUnit p = true) : inRange (fneg fOne) fOne (waveSine p) = true :=
  inRange_numSin (isFinite_fmul_of_inUnit (by decide) hp)

/-- The exact `2·phase - 1` lies in `[-1, 1)`, and its rounding passes neither end. -/
theorem inRange_waveSawtooth {p : F} (hp : inUnit p = true) :
    inRange (fneg fOne) fOne (waveSawtooth p) = true := by
  obtain ⟨hfin, h0, h2⟩ := doubled_phase hp
  have hone := isFinite_fOne
  have hneg : isFinite (fneg fOne) = true := (isFinite_fneg fOne).trans hone
  have hval : fixOf (fneg fOne) = -(unit : Int) := by rw [fixOf_fneg, fixOf_fOne]
  rw [waveSawtooth_eq hp, fsub_eq]
  have hsum : isFinite (addCore (nanOf .sub (fmul fTwo p) fOne) (fmul fTwo p) (fneg fOne)) = true :=
    isFinite_addCore _ hfin hneg hone (by rw [hval, fixOf_fOne]; omega)
  refine inRange_iff.mpr ⟨hsum, (fge_iff hsum hneg).mpr ?_, (fge_iff hone hsum).mpr ?_⟩
  · exact le_addCore _ hfin hneg hneg hsum (by omega)
  · exact addCore_le _ hfin hneg hone hsum (by rw [hval, fixOf_fOne]; omega)

theorem inRange_waveSquare (p : F) : inRange (fneg fOne) fOne (waveSquare p) = true := by
  unfold waveSquare
  split <;> decide +kernel

/-- Every waveform value for a phase in `[0, 1)` is finite and in `[-1, 1]`. -/
theorem inRange_waveValue (k : Wave) {p : F} (s : State nv cw) (hp : inUnit p = true) :
    inRange (fneg fOne) fOne (waveValue k p s).1 = true := by
  cases k with
  | sine => exact inRange_waveSine hp
  | sawtooth => exact inRange_waveSawtooth hp
  | square => exact inRange_waveSquare p
  | noise => exact inRange_noise s.noiseState

/-! ### The gain (42_exciter R148, R149) -/

theorem orderKey_fneg (x : F) : orderKey (fneg x) = -orderKey x := by
  unfold orderKey
  rw [signBit_fneg, magBits_fneg]
  cases signBit x <;> simp

theorem fge_self {x : F} (h : isNaN x = false) : fge x x = true := fge_iff_orderKey.mpr ⟨h, h, le_refl _⟩

theorem isInf_of_not_isFinite {x : F} (hn : isNaN x = false) (hf : isFinite x = false) : isInf x = true := by
  simp only [isNaN, isFinite, decide_eq_false_iff_not] at hn hf
  exact isInf_iff.mpr (by omega)

/-- An infinite minuend absorbs the subtrahend, or the difference is a NaN. -/
theorem fsub_of_isInf_left {g d : F} (hg : isInf g = true) (h : isNaN (fsub g d) = false) : fsub g d = g := by
  rw [fsub_eq] at h ⊢
  have hd : isNaN (fneg d) = false := by
    by_contra hd
    simp [addCore_of_isNaN _ (.inr (by simpa using hd))] at h
  refine addCore_of_isInf_left _ hg hd fun hi => ?_
  by_contra hs
  simp [addCore_of_cancelling_infinities _ hg hi hs] at h

/-- A difference above 0, with a subtrahend that is not negative, does not overflow. -/
theorem isFinite_fsub_of_pos {g d : F} (hg : isFinite g = true) (hd : isFinite d = true) (hd0 : 0 ≤ fixOf d)
    (hpos : 0 < orderKey (fsub g d)) : isFinite (fsub g d) = true := by
  have hneg : isFinite (fneg d) = true := (isFinite_fneg d).trans hd
  by_cases hexact : 0 < fixOf g + fixOf (fneg d)
  · rw [fixOf_fneg] at hexact
    rw [fsub_eq]
    exact isFinite_addCore _ hg hneg hg (by rw [fixOf_fneg]; omega)
  · by_contra hinf
    obtain ⟨_, _, hsign⟩ := addCore_nearestEven (nanOf .sub g d) hg hneg rfl (fsub_eq g d)
    rw [hsign (Bool.eq_false_of_not_eq_true hinf), if_neg hexact, orderKey_negInf] at hpos
    omega

/-- Subtracting a finite value that is not negative from a finite value, with a difference above 0. -/
theorem fge_fsub_of_isFinite {g d : F} (hg : isFinite g = true) (hd : isFinite d = true)
    (hd0 : fge d fZero = true) (hpos : 0 < orderKey (fsub g d)) : fge g (fsub g d) = true := by
  rw [fge_iff hd isFinite_fZero, fixOf_fZero] at hd0
  have hfin := isFinite_fsub_of_pos hg hd hd0 hpos
  rw [fge_iff hg hfin]
  rw [fsub_eq] at hfin ⊢
  exact addCore_le _ hg ((isFinite_fneg d).trans hd) hg hfin (by rw [fixOf_fneg]; omega)

/-- Subtracting what is not negative does not increase, where the difference is still above 0. -/
theorem fge_fsub {g d : F} (hd : fge d fZero = true) (h : fgt (fsub g d) fZero = true) :
    fge g (fsub g d) = true := by
  rw [fgt_eq, flt_iff_orderKey] at h
  obtain ⟨_, hnan, hpos⟩ := h
  obtain ⟨hdn, _, hd0⟩ := fge_iff_orderKey.mp hd
  have hzero : orderKey fZero = 0 := by decide
  rw [hzero] at hpos hd0
  by_cases hgn : isNaN g = true
  · rw [fsub_eq, addCore_of_isNaN _ (.inl hgn), isNaN_nanOf] at hnan
    exact Bool.noConfusion hnan
  · rw [Bool.not_eq_true] at hgn
    by_cases hg : isFinite g = true
    · by_cases hdf : isFinite d = true
      · exact fge_fsub_of_isFinite hg hdf hd hpos
      · have hinf : isInf (fneg d) = true := by
          rw [isInf_fneg]
          exact isInf_of_not_isFinite hdn (Bool.eq_false_of_not_eq_true hdf)
        rw [fsub_eq, addCore_of_isInf_right _ hg hinf, orderKey_fneg] at hpos
        omega
    · have hinf := isInf_of_not_isFinite hgn (Bool.eq_false_of_not_eq_true hg)
      rw [fsub_of_isInf_left hinf hnan]
      exact fge_self hgn

/-- One decay step of the gain does not increase it (10_state R31 (I3)). -/
theorem nextGain_le {r : Voice cw} {sr : F} (hg : fge r.exGain fZero = true)
    (hstep : fge (gainStep r.burst sr) fZero = true) : fge r.exGain (nextGain r sr) = true := by
  unfold nextGain clamp0
  split
  next hpos =>
    split
    next hdiff => exact fge_fsub hstep hdiff
    next => exact fge_of_fgt hpos
  next =>
    obtain ⟨hn, _, _⟩ := fge_iff_orderKey.mp hg
    exact fge_self hn

/-- A gain that one decay step leaves alone stays for ever. -/
theorem gainAfter_of_nextGain_eq {v : Fin nv} (k : Nat) {s : State nv cw}
    (h : nextGain (s.voice v) s.sr = (s.voice v).exGain) : gainAfter v k s = (s.voice v).exGain := by
  induction k generalizing s with
  | zero => rfl
  | succ k ih =>
    have hvoice : (excSample v s).2.voice v = s.voice v := by rw [excSample_voice_same, h]
    rw [gainAfter, ih (by rw [hvoice, excSample_sr, h]), hvoice]

/-- A voice with a burst of `2^30` seconds: at 64 Hz the decay step is `2^-36`, far below half the spacing of 1.0. -/
def endless : Voice := { plucked with burst := 0x4E800000 }

/-- The decay step of that voice is positive and does not move its gain. -/
theorem endless_step :
    gainStep endless.burst 0x42800000 = 0x2D800000 ∧ fgt (gainStep endless.burst 0x42800000) fZero = true ∧
      nextGain endless 0x42800000 = endless.exGain := by decide +kernel

/-! ### The obligations -/

/-- Settles O30: each kind's formula, its range, and its one draw or none. -/
theorem waveformsAreThoseOfTheirKinds : Obligations.WaveformsAreThoseOfTheirKinds := by
  intro k p s hp
  obtain ⟨hfin, hlow, hhigh⟩ := inRange_iff.mp (inRange_waveValue k s hp)
  refine ⟨rfl, waveSawtooth_eq hp, rfl, rfl, hfin, hlow, hhigh, ?_⟩
  rw [waveValue_state]
  split <;> rfl

/-- Settles O36: the gain after a sample is the decay step's, clamped at `+0` and not above the gain before. -/
theorem exciterGainNeverIncreases : Obligations.ExciterGainNeverIncreases := by
  intro v s hg hstep
  rw [excSample_voice_same]
  exact ⟨fge_nextGain hg, nextGain_le hg hstep⟩

/-- Refutes O37: with a burst of `2^30` seconds at 64 Hz the decay step is positive, yet every rounded difference is 1.0
again. -/
theorem not_everyPositiveStepEndsTheBurst : ¬ Obligations.EveryPositiveStepEndsTheBurst := by
  intro h
  obtain ⟨_, hpos, hfixed⟩ := endless_step
  have hvoice := small_voice endless 0
  obtain ⟨k, hk⟩ := h 0 (small endless) (by rw [hvoice]; rfl) (by rw [hvoice]; exact hpos)
  rw [gainAfter_of_nextGain_eq k (by rw [hvoice]; exact hfixed), hvoice] at hk
  exact absurd hk (by decide)

end Sys2Proof.Machine
end

section
/-! PROOFS. The statements about the voice (44_voice R171 to R189): what NOTEON writes, what one `V.RENDER` of an Idle
and of a Sounding voice answers and leaves, and how long a struck string stays silent. -/

namespace Sys2Proof.Machine

open Sys2Proof.Config

variable {nv cw : Nat}

/-! ### The start of a note (44_voice R173, 45_voice_pool R190) -/

theorem setVoice_setVoice (s : State nv cw) (v : Fin nv) (r q : Voice cw) :
    (s.setVoice v r).setVoice v q = s.setVoice v q := by
  unfold State.setVoice
  simp only [Vector.set_set]

/-- A start is one write of one register file. -/
theorem vStart_eq_setVoice (cfg : Engine) (v : Fin nv) (p : Nat) (vel d b : F) (k : Wave) (c : F) (s : State nv cw) :
    vStart cfg v p vel d b k c s = s.setVoice v ((vStart cfg v p vel d b k c s).voice v) := by
  rw [vStart_voice_same]
  unfold vStart lpRetune
  rw [setVoice_setVoice, voice_setVoice_same, State_setVoice_sr]

/-- The scan starts the Idle voice below which every voice is Sounding. -/
theorem poolNoteon_starts (cfg : Engine) (p : Nat) (vel d b : F) (k : Wave) (c : F) {s : State nv cw} {v : Fin nv}
    (hbelow : ∀ u, u < v → (s.voice u).active = true) (hidle : (s.voice v).active = false) :
    poolNoteon cfg p vel d b k c s = vStart cfg v p vel d b k c s := by
  have hv : v ∈ voiceOrder nv := mem_voiceOrder v
  rcases scanNoteon_cases cfg p vel d b k c (voiceOrder nv) s with
    ⟨_, hall⟩ | ⟨w, before, rest, hl, hbefore, hw, hscan⟩
  · exact absurd (hall v hv) (by simp [hidle])
  · have hsorted : (before ++ w :: rest).Pairwise (· < ·) := hl ▸ List.pairwise_lt_finRange nv
    obtain ⟨_, hrest, _⟩ := List.pairwise_append.mp hsorted
    rw [hl, List.mem_append, List.mem_cons] at hv
    have hvw : v = w := by
      rcases hv with hmem | heq | hmem
      · exact absurd (hbefore v hmem) (by simp [hidle])
      · exact heq
      · exact absurd (hbelow w (List.rel_of_pairwise_cons hrest hmem)) (by simp [hw])
    rw [hvw]
    exact hscan

/-- A NOTEON whose checks pass answers the pool's scan (47_host_commands R236). -/
theorem noteon_ready {s : State} (h : NoteonReady s) (p : Nat) (vel : F) :
    exec (.noteon p vel) s =
      .next (poolNoteon ksv p vel s.params.decay s.params.burst s.params.wave s.params.excut s) := by
  obtain ⟨hp, h1, h2, h3, h4⟩ := h
  change noteonOn ksv p vel s = _
  simp only [noteonOn, noteParamsValid, validBit, hp, h1, h2, h3, h4, Bool.and_self, Bool.not_true,
    Bool.false_eq_true, if_false]

/-- Settles O19: the scan finds the first Idle voice, and a start is one write of its register file. -/
theorem noteonStartsTheFirstIdleVoice : Obligations.NoteonStartsTheFirstIdleVoice := by
  intro p vel s v hready hbelow hidle
  rw [noteon_ready hready, poolNoteon_starts ksv p vel _ _ _ _ hbelow hidle, vStart_eq_setVoice, vStart_voice_same]
  rfl

/-! ### One call of `V.RENDER` (44_voice R171, R185) -/

/-- Settles O28: the state bit is looked at before anything else. -/
theorem anIdleVoiceRendersZeroWithoutEffect : Obligations.AnIdleVoiceRendersZeroWithoutEffect :=
  fun _ _ cfg _ _ hidle => vRender_idle cfg hidle

/-- The exciter's sample (42_exciter R141). -/
theorem excSample_fst (v : Fin nv) (s : State nv cw) :
    (excSample v s).1 =
      if fgt (s.voice v).exGain fZero then
        fmul (waveValue (s.voice v).wave (s.voice v).phase s).1 (s.voice v).exGain
      else fZero := by
  rcases excSample_cases v s with ⟨hg, h⟩ | ⟨hg, h⟩
  · rw [h, if_pos hg]
  · rw [h, hg, if_neg Bool.false_ne_true]

/-- The exciter draws once for a burning voice of the noise kind and never otherwise (42_exciter R147). -/
theorem excSample_noiseState (v : Fin nv) (s : State nv cw) :
    (excSample v s).2.noiseState =
      s.noiseState + if fgt (s.voice v).exGain fZero = true ∧ (s.voice v).wave = .noise then 1 else 0 := by
  rcases excSample_cases v s with ⟨hg, h⟩ | ⟨hg, h⟩
  · simp [h, hg, waveValue_state]
  · simp [h, hg]

/-- Of the state a waveform value reads the number of draws alone. -/
theorem waveValue_fst_of_noiseState_eq (k : Wave) (p : F) {s t : State nv cw} (h : s.noiseState = t.noiseState) :
    (waveValue k p s).1 = (waveValue k p t).1 := by
  cases k with
  | noise => exact congrArg noise h
  | sine | sawtooth | square => rfl

/-- The read cursor is nothing to the exciter. -/
theorem excSample_seekReadCursor_fst (cfg : Engine) (v : Fin nv) (s : State nv cw) :
    (excSample v (seekReadCursor cfg v s)).1 = (excSample v s).1 := by
  rw [excSample_fst, excSample_fst, seekReadCursor_voice_same]
  dsimp only
  rw [waveValue_fst_of_noiseState_eq _ _ (seekReadCursor_noiseState cfg v s)]

/-- The result of a Sounding voice is its filtered delayed sample times the note gain (44_voice R182). -/
theorem vRender_fst (cfg : Engine) {v : Fin nv} {s : State nv cw} (h : (s.voice v).active = true) :
    (vRender cfg v s).1 = fmul (iir1Out (s.voice v).lp (delayedSample cfg v s)) (s.voice v).noteGain := by
  simp [vRender, vIsActive, h, delayedSample, soughtCursor, dlRead, iir1Step]

/-- The exciter is the one part of a call that draws. -/
theorem vRender_noiseState (cfg : Engine) {v : Fin nv} {s : State nv cw} (h : (s.voice v).active = true) :
    (vRender cfg v s).2.noiseState =
      s.noiseState + if fgt (s.voice v).exGain fZero = true ∧ (s.voice v).wave = .noise then 1 else 0 := by
  simp [vRender, vIsActive, h, excSample_noiseState]

/-- Settles O29: the result, the register file, the other voices and the noise counter of one call. -/
theorem aSoundingVoiceRendersAsSpecified : Obligations.ASoundingVoiceRendersAsSpecified := by
  intro v s hactive r burning e g rc x y
  have hframe : VoiceChange s (vRender ksv v s).2 := vRender_frame ksv v s
  unfold VoiceChange at hframe
  rw [vRender_noiseState ksv hactive] at hframe
  refine ⟨vRender_fst ksv hactive, ?_, fun u hu => vRender_voice_ne ksv s hu, hframe⟩
  rw [vRender_voice_same ksv hactive, renderedVoice, excSample_seekReadCursor_fst, excSample_fst]
  rfl

end Sys2Proof.Machine
end

section
/-! PROOFS. The onset of a note (44_voice R189): zeros for one delay, and then the sample of call 0. -/

namespace Sys2Proof.Machine

open Sys2Proof.Config

variable {nv cw : Nat}

/-! ### Zeros through the arithmetic, of either sign (40_numerics R101) -/

theorem isZero_fmul {a b : F} (ha : isFinite a = true) (hb : isFinite b = true)
    (h : isZero a = true ∨ isZero b = true) : isZero (fmul a b) = true := by
  have hprod : unitsOf (magBits a) * unitsOf (magBits b) = 0 := by
    rcases h with hz | hz <;> simp [isZero_iff.mp hz]
  have hround : roundMag 0 unit = 0 := by simpa using roundMag_exact (mag := 0) unit_pos (by decide)
  rw [fmul_of_isFinite ha hb, hprod, hround, isZero_iff, magBits_makeF _ (by norm_num)]

theorem isZero_fmul_right {a z : F} (ha : isFinite a = true) (hz : isZero z = true) : isZero (fmul a z) = true :=
  isZero_fmul ha (isFinite_of_isZero hz) (.inr hz)

theorem isZero_fmul_left {z b : F} (hz : isZero z = true) (hb : isFinite b = true) : isZero (fmul z b) = true :=
  isZero_fmul (isFinite_of_isZero hz) hb (.inl hz)

theorem isZero_fneg (x : F) : isZero (fneg x) = isZero x := by simp [isZero, magBits_fneg]

theorem isZero_addCore (nan : F) {a b : F} (ha : isZero a = true) (hb : isZero b = true) :
    isZero (addCore nan a b) = true := by
  have hsum : fixOf a + fixOf b = 0 := by rw [isZero_iff_fixOf.mp ha, isZero_iff_fixOf.mp hb, Int.add_zero]
  rw [addCore_of_zero_sum nan (isFinite_of_isZero ha) (isFinite_of_isZero hb) hsum]
  split <;> decide

/-- Adding a zero of either sign gives the value back, up to the sign of a zero. -/
theorem fadd_of_isZero_right {x z : F} (hx : isFinite x = true) (hz : isZero z = true) :
    fadd x z = x ∨ (isZero (fadd x z) = true ∧ isZero x = true) := by
  rw [fadd_eq]
  by_cases h0 : fixOf x = 0
  · have hxz := isZero_iff_fixOf.mpr h0
    exact .inr ⟨isZero_addCore _ hxz hz, hxz⟩
  · exact .inl (addCore_of_isZero_right _ hx h0 hz)

/-! ### A filter at rest (43_feedback_filter R156) -/

/-- The coefficients of a section are finite. -/
def FiniteCoefs (S : Section1) : Prop := isFinite S.b0 = true ∧ isFinite S.b1 = true ∧ isFinite S.a1 = true

/-- The internal state of a section is zeros, of either sign. -/
def AtRest (S : Section1) : Prop := isZero S.x1 = true ∧ isZero S.y1 = true

/-- A section at rest with finite coefficients answers a zero to a zero. -/
theorem isZero_iir1Out {S : Section1} (hc : FiniteCoefs S) (hr : AtRest S) {x : F} (hx : isZero x = true) :
    isZero (iir1Out S x) = true := by
  obtain ⟨hb0, hb1, ha1⟩ := hc
  obtain ⟨hx1, hy1⟩ := hr
  have hfeedback : isZero (fneg (fmul S.a1 S.y1)) = true := (isZero_fneg _).trans (isZero_fmul_right ha1 hy1)
  rw [iir1Out, fsub_eq, fadd_eq]
  exact isZero_addCore _ (isZero_addCore _ (isZero_fmul_right hb0 hx) (isZero_fmul_right hb1 hx1)) hfeedback

/-! ### The calls of the onset (44_voice R189) -/

/-- A voice through which zeros pass as zeros: its filter is at rest, and its coefficients and note gain are finite. -/
def Silent (r : Voice cw) : Prop := AtRest r.lp ∧ FiniteCoefs r.lp ∧ isFinite r.noteGain = true

section Onset

variable (cfg : Engine) {v : Fin nv} {s : State nv cw}

/-- A silent voice that reads a zero answers a zero. -/
theorem Silent.isZero_vRender (hs : Silent (s.voice v)) (hactive : (s.voice v).active = true)
    (hread : isZero (delayedSample cfg v s) = true) : isZero (vRender cfg v s).1 = true := by
  obtain ⟨hrest, hcoefs, hgain⟩ := hs
  rw [vRender_fst cfg hactive]
  exact isZero_fmul_left (isZero_iir1Out hcoefs hrest hread) hgain

/-- A silent voice that reads a zero stays silent, whatever its exciter puts into the line. -/
theorem Silent.after_vRender (hs : Silent (s.voice v)) (hactive : (s.voice v).active = true)
    (hread : isZero (delayedSample cfg v s) = true) : Silent ((vRender cfg v s).2.voice v) := by
  obtain ⟨hrest, hcoefs, hgain⟩ := hs
  rw [vRender_voice_same cfg hactive]
  exact ⟨⟨hread, isZero_iir1Out hcoefs hrest hread⟩, hcoefs, hgain⟩

/-- While every call reads a zero the voice stays silent. -/
theorem Silent.after_calls (hs : Silent (s.voice v)) (hactive : (s.voice v).active = true) {k : Nat}
    (hread : ∀ i, i < k → isZero (delayedSample cfg v (afterRenders cfg v i s)) = true) :
    Silent ((afterRenders cfg v k s).voice v) := by
  induction k with
  | zero => exact hs
  | succ k ih =>
    exact (ih fun i hi => hread i (Nat.lt_succ_of_lt hi)).after_vRender cfg (afterRenders_active cfg v hactive k)
      (hread k (Nat.lt_succ_self k))

/-- A call reads the word at the cursor it seeks. -/
theorem dlRead_seekReadCursor (v : Fin nv) (s : State nv cw) :
    dlRead v ((seekReadCursor cfg v s).voice v).rc.toNat s = delayedSample cfg v s := by
  rw [seekReadCursor_rc]
  rfl

/-- A call leaves the exciter's sample plus the feedback in the word under the write cursor (44_voice R171). -/
theorem dlRead_vRender_written (hactive : (s.voice v).active = true) :
    dlRead v (s.voice v).wc.toNat (vRender cfg v s).2 =
      fadd (excSample v s).1 (fmul (iir1Out (s.voice v).lp (delayedSample cfg v s)) (s.voice v).decay) := by
  unfold dlRead
  rw [vRender_voice_same cfg hactive, ← excSample_seekReadCursor_fst cfg]
  exact memRead_memWrite_same _ _ _

end Onset

/-- A delay of up to the buffer length is realised as it is, one of 0 as the whole length. -/
theorem realisedDelay_of_le {len d : Nat} (hd : d ≤ len) : realisedDelay len d = if d = 0 then len else d := by
  unfold realisedDelay
  rcases Nat.eq_or_lt_of_le hd with rfl | hlt
  · simp
  · rw [Nat.mod_eq_of_lt hlt]

/-- Settles O35: up to the delay the line holds nothing but the zeros from before the note, so that the filter stays at
rest; the word read then is the one call 0 wrote, whose feedback part is a zero. -/
theorem onsetLatencyIsOneDelay : Obligations.OnsetLatencyIsOneDelay := by
  intro nv cw cfg v s d hactive hwc hbuf hx1 hy1 hb0 hb1 ha1 hgain hd hle hlen D last x e
  have hzero : isZero fZero = true := by decide
  have hD : D = realisedDelay s.len.toNat d := (realisedDelay_of_le hle).symm
  have hDpos : 1 ≤ D := hD ▸ realisedDelay_pos hlen d
  have hrest : AtRest (s.voice v).lp := ⟨hx1 ▸ hzero, hy1 ▸ hzero⟩
  have hcoefs : FiniteCoefs (s.voice v).lp := ⟨hb0, hb1, ha1⟩
  have hsilent : Silent (s.voice v) := ⟨hrest, hcoefs, hgain⟩
  have hline := fun k => delayLineRealisesTheDelay nv cw cfg v s d k hactive hwc hd hlen
  have hread : ∀ k, k < D → isZero (delayedSample cfg v (afterRenders cfg v k s)) = true := fun k hk => by
    obtain ⟨_, _, hbefore, _⟩ := hline k
    have hword := hbefore (hk.trans_eq hD)
    rw [dlRead_seekReadCursor] at hword
    rw [hword, dlRead, hbuf, hzero]
  refine ⟨fun k hk => ?_, fun hdecay he => ?_⟩
  · exact (hsilent.after_calls cfg hactive fun i hi => hread i (hi.trans hk)).isZero_vRender cfg
      (afterRenders_active cfg v hactive k) (hread k hk)
  · obtain ⟨_, _, _, hafter⟩ := hline D
    have hx : x = fadd e (fmul (iir1Out (s.voice v).lp (delayedSample cfg v s)) (s.voice v).decay) := by
      have hword := hafter hD.ge
      change x = dlRead v ((afterRenders cfg v (D - realisedDelay s.len.toNat d) s).voice v).wc.toNat
        (afterRenders cfg v (D - realisedDelay s.len.toNat d + 1) s) at hword
      rw [← hD, Nat.sub_self] at hword
      exact hword.trans (dlRead_vRender_written cfg hactive)
    have hfeedback : isZero (fmul (iir1Out (s.voice v).lp (delayedSample cfg v s)) (s.voice v).decay) = true :=
      isZero_fmul_left (isZero_iir1Out hcoefs hrest (hread 0 hDpos)) hdecay
    rw [hx]
    exact fadd_of_isZero_right he hfeedback

end Sys2Proof.Machine
end

section
/-! PROOFS. The statements about this hardware's pitch table (44_voice R172) and about the delay it gives at every
acceptable rate (R175). -/

namespace Sys2Proof.Machine

open Sys2Proof.Config

/-! ### The pitch table (44_voice R172) -/

/-- A magnitude pattern whose value lies within half a spacing of `440·2^((p-69)/12)`, by twelfth powers: strictly
between the midpoints to the neighbouring patterns. -/
def NearestTempered (p m : Nat) : Prop :=
  (unitsOf (m - 1) + unitsOf m) ^ 12 * 2 ^ 69 < (2 * 440 * 2 ^ 149) ^ 12 * 2 ^ p ∧
    (2 * 440 * 2 ^ 149) ^ 12 * 2 ^ p < (unitsOf m + unitsOf (m + 1)) ^ 12 * 2 ^ 69

/-- The lowest octave of the table, by evaluation. -/
theorem nearestTempered_lowest_octave : ∀ p, p < 12 → NearestTempered p (magBits (pitchRom p)) := by
  unfold NearestTempered
  decide

/-- One more in the exponent field doubles a normal value. -/
theorem unitsOf_add_octave {m : Nat} (h : 2 ^ 23 ≤ m) : unitsOf (m + 2 ^ 23) = 2 * unitsOf m := by
  obtain ⟨e, he⟩ : ∃ e, m / 2 ^ 23 = e + 1 := ⟨m / 2 ^ 23 - 1, by omega⟩
  unfold unitsOf
  rw [Nat.add_div_right _ (by norm_num), Nat.add_mod_right, he, if_neg (by omega), if_neg (by omega),
    Nat.succ_sub_one, Nat.succ_sub_one, pow_succ]
  ring

/-- Twelve pitches double the frequency, which is one more in the exponent field. -/
theorem NearestTempered.octave {p m : Nat} (hm : 2 ^ 23 < m) (h : NearestTempered p m) :
    NearestTempered (p + 12) (m + 2 ^ 23) := by
  obtain ⟨hlow, hhigh⟩ := h
  have hpred : m + 2 ^ 23 - 1 = m - 1 + 2 ^ 23 := by omega
  have hsucc : m + 2 ^ 23 + 1 = m + 1 + 2 ^ 23 := by omega
  have hgrow : ∀ a b, (2 * a + 2 * b) ^ 12 * 2 ^ 69 = 2 ^ 12 * ((a + b) ^ 12 * 2 ^ 69) := fun a b => by ring
  have hpitch : ∀ c : Nat, c * 2 ^ (p + 12) = 2 ^ 12 * (c * 2 ^ p) := fun c => by ring
  unfold NearestTempered
  rw [hpred, hsucc, unitsOf_add_octave (by omega), unitsOf_add_octave hm.le, unitsOf_add_octave (by omega), hgrow,
    hgrow, hpitch]
  exact ⟨Nat.mul_lt_mul_of_pos_left hlow (by norm_num), Nat.mul_lt_mul_of_pos_left hhigh (by norm_num)⟩

/-- Entries twelve apart differ by one in the exponent field. -/
theorem pitchRom_octave : ∀ p, p < 116 → pitchRom (p + 12) = pitchRom p + 0x00800000 := by
  decide

/-- Every entry is positive, at least that of pitch 0 and below `2^14` Hz. -/
theorem pitchRom_range : ∀ p, p < 128 →
    signBit (pitchRom p) = false ∧ 0x4102D013 ≤ magBits (pitchRom p) ∧ magBits (pitchRom p) < 141 * 2 ^ 23 := by
  decide

/-- On a positive value with room below the largest exponent, one more in the exponent field is that and no more. -/
theorem magBits_add_octave {x : F} (hs : signBit x = false) (hx : magBits x < 141 * 2 ^ 23) :
    magBits (x + 0x00800000) = magBits x + 2 ^ 23 := by
  have hpos : x.toNat < 2 ^ 31 := by simpa [signBit_eq] using hs
  have hadd : (x + 0x00800000).toNat = x.toNat + 2 ^ 23 := by
    rw [BitVec.toNat_add]
    exact Nat.mod_eq_of_lt (Nat.add_lt_add_of_lt_of_le hpos (by decide : 2 ^ 23 ≤ 2 ^ 31))
  unfold magBits at hx ⊢
  rw [hadd]
  omega

/-- Every entry is the correctly rounded frequency: the lowest octave is, and each octave is twice the one below. -/
theorem nearestTempered_pitchRom (p : Nat) (hp : p < 128) : NearestTempered p (magBits (pitchRom p)) := by
  induction p using Nat.strong_induction_on with
  | _ p ih =>
    rcases Nat.lt_or_ge p 12 with hlow | hge
    · exact nearestTempered_lowest_octave p hlow
    · obtain ⟨q, rfl⟩ : ∃ q, p = q + 12 := ⟨p - 12, by omega⟩
      obtain ⟨hsign, hmin, hmax⟩ := pitchRom_range q (by omega)
      rw [pitchRom_octave q (by omega), magBits_add_octave hsign hmax]
      exact (ih q (by omega) (by omega)).octave (by omega)

theorem isFinite_pitchRom {p : Nat} (hp : p < 128) : isFinite (pitchRom p) = true := by
  obtain ⟨_, _, hmax⟩ := pitchRom_range p hp
  exact isFinite_iff.mpr (lt_trans hmax (by decide))

/-- No entry is below that of pitch 0. -/
theorem fge_pitchRom {p : Nat} (hp : p < 128) : fge (pitchRom p) 0x4102D013 = true := by
  obtain ⟨hsign, hmin, _⟩ := pitchRom_range p hp
  have hkey : orderKey 0x4102D013 = 0x4102D013 := by decide
  have hkey' : orderKey (pitchRom p) = magBits (pitchRom p) := by rw [orderKey, hsign, if_neg Bool.false_ne_true]
  refine fge_iff_orderKey.mpr ⟨isNaN_eq_false_of_isFinite (isFinite_pitchRom hp), by decide, ?_⟩
  rw [hkey, hkey']
  exact_mod_cast hmin

/-- Settles O53: the lowest octave by evaluation, the others by doubling. -/
theorem pitchTableIsEqualTempered : Obligations.PitchTableIsEqualTempered := by
  refine ⟨by decide, fun p hp => ?_, pitchRom_octave⟩
  obtain ⟨hsign, _⟩ := pitchRom_range p hp
  exact ⟨hsign, isFinite_pitchRom hp, fge_pitchRom hp, nearestTempered_pitchRom p hp⟩

/-! ### The delay (44_voice R175) -/

/-- The period of every pitch is positive and at most a quarter of a second. -/
theorem period_bounds {p : Nat} (hp : p < 128) :
    isFinite (fdiv fOne (pitchRom p)) = true ∧ signBit (fdiv fOne (pitchRom p)) = false ∧
      4 * unitsOf (magBits (fdiv fOne (pitchRom p))) ≤ unit := by
  obtain ⟨hsign, hmin, _⟩ := pitchRom_range p hp
  have hfin := isFinite_pitchRom hp
  have hzero : isZero (pitchRom p) = false := by simp only [isZero, beq_eq_false_iff_ne]; omega
  have hsone : signBit fOne = false := by decide
  have hone : unitsOf (magBits fOne) = unit := by rw [← natAbs_fixOf, fixOf_fOne, Int.natAbs_natCast]
  have height : 2 ^ 152 ≤ unitsOf (magBits (pitchRom p)) :=
    (unitsOf_pow (k := 130) (by norm_num)).symm.trans_le (unitsOf_le_iff.mpr (by omega))
  have hquot : unitsOf (magBits fOne) * unit / unitsOf (magBits (pitchRom p)) < 2 ^ 147 := by
    refine (Nat.div_lt_iff_lt_mul (by omega)).mpr (lt_of_lt_of_le ?_ (Nat.mul_le_mul_left _ height))
    rw [hone, unit]
    norm_num
  obtain ⟨hdiv, _, hle⟩ := fdiv_bounds isFinite_fOne hfin hsone hsign hzero (by norm_num) (by norm_num) hquot
  have hdsign : signBit (fdiv fOne (pitchRom p)) = false := by
    rw [fdiv_of_isFinite isFinite_fOne hfin hzero, signBit_makeF _ (roundMag_lt _ _), hsone, hsign]
    rfl
  refine ⟨hdiv, hdsign, ?_⟩
  rw [fixOf_eq_signed, hdsign, signed_false] at hle
  unfold unit
  omega

/-- A factor of at most a quarter, rounding included, brings a value of at least one half to its half or below. -/
theorem fmul_by_quarter {a x : F} (ha : isFinite a = true) (hx : isFinite x = true)
    (hquarter : 4 * unitsOf (magBits a) ≤ unit) (hhalf : unit ≤ 2 * unitsOf (magBits x)) :
    isFinite (fmul a x) = true ∧ 2 * unitsOf (magBits (fmul a x)) ≤ unitsOf (magBits x) := by
  have hpos := unit_pos
  have hne : unitsOf (magBits x) ≠ 0 := by omega
  have hlow : 148 ≤ Nat.log2 (unitsOf (magBits x)) :=
    (Nat.le_log2 hne).mpr (by unfold unit at hhalf; omega)
  have hself : 2 ^ Nat.log2 (unitsOf (magBits x)) ≤ unitsOf (magBits x) := Nat.log2_self_le hne
  have hhigh : Nat.log2 (unitsOf (magBits x)) < 277 :=
    (pow_lt_pow_iff_right₀ one_lt_two).mp
      (hself.trans_lt ((unitsOf_lt_iff.mpr (isFinite_iff.mp hx)).trans_eq unitsOf_infBits))
  have hlt : unitsOf (magBits x) < 2 ^ (Nat.log2 (unitsOf (magBits x)) + 1) := Nat.lt_log2_self
  obtain ⟨K, hK⟩ : ∃ K, Nat.log2 (unitsOf (magBits x)) = K + 1 := ⟨_, (Nat.sub_add_cancel (by omega)).symm⟩
  rw [hK] at hlow hhigh hself hlt
  have hprod : unitsOf (magBits a) * unitsOf (magBits x) / unit < 2 ^ K := by
    rw [Nat.div_lt_iff_lt_mul hpos]
    have h4 : 4 * unitsOf (magBits a) * unitsOf (magBits x) < unit * 2 ^ (K + 1 + 1) :=
      lt_of_le_of_lt (Nat.mul_le_mul_right _ hquarter) (Nat.mul_lt_mul_of_pos_left hlt hpos)
    have hpow : unit * 2 ^ (K + 1 + 1) = 4 * (2 ^ K * unit) := by ring
    rw [hpow, Nat.mul_assoc] at h4
    omega
  obtain ⟨hfin, hle⟩ := unitsOf_roundMag_le (by omega) (by omega) hprod
  rw [fmul_of_isFinite ha hx, magBits_makeF _ (roundMag_lt _ _)]
  rw [pow_succ] at hself
  exact ⟨isFinite_makeF _ hfin, by omega⟩

/-- Half a value, with its fraction discarded, is below the value rounded, where that is no zero. -/
theorem trunc_half_lt_round {half whole : Nat} (h : 2 * half ≤ whole) (h1 : unit ≤ 2 * whole) :
    half / unit < (2 * whole + unit) / (2 * unit) := by
  have hpos := unit_pos
  have htrunc : half / unit * unit ≤ half := Nat.div_mul_le_self _ _
  have hstep : (half / unit + 1) * (2 * unit) = 2 * (half / unit * unit) + 2 * unit := by ring
  refine (Nat.le_div_iff_mul_le (by omega)).mpr (hstep.trans_le ?_)
  rcases Nat.eq_zero_or_pos (half / unit) with h0 | hone
  · rw [h0]
    omega
  · have hunit : unit ≤ half / unit * unit := Nat.le_mul_of_pos_left _ hone
    omega

/-- Settles O33: a quarter of a second is at most half the buffer. -/
theorem delayStaysBelowTheBufferLength : Obligations.DelayStaysBelowTheBufferLength := by
  intro sr p hrate hp
  obtain ⟨hfin, hsign, hhalf⟩ := rate_bounds hrate
  obtain ⟨hpfin, hpsign, hquarter⟩ := period_bounds hp
  obtain ⟨hdfin, hle⟩ := fmul_by_quarter hpfin hfin hquarter hhalf
  have hdsign : signBit (fmul (fdiv fOne (pitchRom p)) sr) = false := by
    rw [fmul_of_isFinite hpfin hfin, signBit_makeF _ (roundMag_lt _ _), hpsign, hsign]
    rfl
  rw [truncToInt_of_isFinite hdfin, roundHalfAway_of_isFinite hfin, hdsign, hsign, signed_false, signed_false]
  exact ⟨Int.natCast_nonneg _, by exact_mod_cast trunc_half_lt_round hle hhalf⟩

end Sys2Proof.Machine
end

section
/-! PROOFS. The statements about the voice pool (45_voice_pool R192, R195, R196): a NOTEON with every voice Sounding,
and the pool sum. -/

namespace Sys2Proof.Machine

open Sys2Proof.Config

variable {nv cw : Nat}

/-! ### A full pool (45_voice_pool R192) -/

/-- With no Idle voice to find the scan leaves the state as it is. -/
theorem poolNoteon_full (cfg : Engine) (p : Nat) (vel d b : F) (k : Wave) (c : F) {s : State nv cw}
    (hfull : ∀ v, (s.voice v).active = true) : poolNoteon cfg p vel d b k c s = s := by
  rcases scanNoteon_cases cfg p vel d b k c (voiceOrder nv) s with ⟨hsame, _⟩ | ⟨v, _, _, _, _, hidle, _⟩
  · exact hsame
  · exact absurd (hfull v) (by simp [hidle])

/-- Settles O20: the checks pass and the scan finds no Idle voice. -/
theorem noteonOnAFullPoolChangesNothing : Obligations.NoteonOnAFullPoolChangesNothing := by
  intro p vel s hready hfull
  rw [noteon_ready hready, poolNoteon_full ksv p vel _ _ _ _ hfull]

/-! ### The pool sum (45_voice_pool R195, R196) -/

/-- An Idle voice adds `+0` to a sum that stands at `+0`, and leaves the state as it is. -/
theorem sumStep_idle (cfg : Engine) {s : State nv cw} {v : Fin nv} (hidle : (s.voice v).active = false) :
    sumStep cfg (fZero, s) v = (fZero, s) := by
  have hzero : fadd fZero fZero = fZero := fadd_fZero isFinite_fZero (by decide)
  simp only [sumStep, vRender_idle cfg hidle, hzero]

/-- Idle voices keep a sum of `+0` and the state, whichever of them are added and in whatever order. -/
theorem foldl_sumStep_idle (cfg : Engine) {s : State nv cw} (hidle : ∀ v, (s.voice v).active = false)
    (l : List (Fin nv)) : l.foldl (sumStep cfg) (fZero, s) = (fZero, s) := by
  induction l with
  | nil => rfl
  | cons v rest ih => rw [List.foldl_cons, sumStep_idle cfg (hidle v), ih]

/-- Settles O41: the order is the pool's own, and the idle pool goes by induction on the voices added. -/
theorem poolSumAddsEveryVoiceInOrder : Obligations.PoolSumAddsEveryVoiceInOrder :=
  fun nv _ cfg _ => ⟨rfl, fun hidle => foldl_sumStep_idle cfg hidle (voiceOrder nv)⟩

end Sys2Proof.Machine
end

section
/-! PROOFS. The statements about the global effects (46_global_effects R201 to R215): the dry samples one by one, the
reverb on a copy of the dry block, the frames of a RENDER, a block rendered in two parts, and the two settings that leave
the signal as it is. -/

namespace Sys2Proof.Machine

open Sys2Proof.Config

variable {nv cw : Nat}

/-! ### One dry sample (46_global_effects R201, R204, R206, R209) -/

/-- The dry sample that the state `s` gives: the filtered pool sum times the tremolo factor. -/
def dryWord (cfg : Engine) (depth : F) (s : State nv cw) : F :=
  fmul (iir1Out s.hp (poolSum cfg s).1) (tremFactor depth s.tph)

/-- The pool sum touches neither the high-pass section nor the tremolo nor `DRY`, so that a dry sample is four writes
side by side. -/
theorem drySample_eq (cfg : Engine) (rate depth : F) (i : Nat) (s : State nv cw) :
    drySample cfg rate depth i s = { (poolSum cfg s).2 with
      hp := (iir1Step s.hp (poolSum cfg s).1).2
      tph := nextTph rate s.tph s.sr
      dry := memWrite s.dry i (dryWord cfg depth s) } := by
  have h := poolSum_frame cfg s
  unfold VoiceChange at h
  unfold drySample dryWord
  generalize poolSum cfg s = p at h ⊢
  obtain ⟨x, u⟩ := p
  dsimp only at h ⊢
  rw [h]
  rfl

theorem drySample_hp (cfg : Engine) (rate depth : F) (i : Nat) (s : State nv cw) :
    (drySample cfg rate depth i s).hp = (iir1Step s.hp (poolSum cfg s).1).2 := by rw [drySample_eq]

/-! ### The dry pass (46_global_effects R201) -/

theorem dryPass_succ (cfg : Engine) (n : Nat) (rate depth : F) (s : State nv cw) :
    dryPass cfg (n + 1) rate depth s = drySample cfg rate depth n (dryPass cfg n rate depth s) := rfl

/-- Word `i` of the dry block is the sample formed after `i` samples; the later ones leave it alone. -/
theorem memRead_dryPass (cfg : Engine) (rate depth : F) (s : State nv cw) {n i : Nat} (hi : i < n) :
    memRead (dryPass cfg n rate depth s).dry i = dryWord cfg depth (dryPass cfg i rate depth s) := by
  induction n with
  | zero => exact absurd hi (Nat.not_lt_zero i)
  | succ n ih =>
    rw [dryPass_succ, drySample_eq, memRead_memWrite]
    split
    next heq => rw [heq]
    next hne => exact ih (by omega)

/-- One more sample, with the section step, the tremolo factor and the phase advance written out, at the rate `sr`. -/
theorem dryPass_writes (cfg : Engine) (i : Nat) (rate depth : F) {s : State nv cw} {sr : F} (hsr : s.sr = sr) :
    let u := dryPass cfg i rate depth s
    let x := (poolSum cfg u).1
    let h := fsub (fadd (fmul u.hp.b0 x) (fmul u.hp.b1 u.hp.x1)) (fmul u.hp.a1 u.hp.y1)
    let factor := fsub fOne (fmul (fmul depth fHalf) (fadd fOne (numSin (fmul twoPi u.tph))))
    dryPass cfg (i + 1) rate depth s = { (poolSum cfg u).2 with
      hp := { u.hp with x1 := x, y1 := h }
      tph := wrap1 (fadd u.tph (fdiv rate sr))
      dry := memWrite u.dry i (fmul h factor) } := by
  obtain ⟨hu, _⟩ := (dryPass_frame cfg i rate depth s).keeps_rate
  intro u x h factor
  rw [← hsr, ← hu]
  exact drySample_eq cfg rate depth i (dryPass cfg i rate depth s)

/-- A section step keeps the coefficients (43_feedback_filter R156). -/
theorem withCoefs_iir1Step {S : Section1} {c : F × F × F} (h : withCoefs S c = S) (x : F) :
    withCoefs (iir1Step S x).2 c = (iir1Step S x).2 := by
  have hstep : withCoefs (iir1Step S x).2 c = { withCoefs S c with x1 := x, y1 := iir1Out S x } := rfl
  rw [hstep, h]
  rfl

theorem hpRetune_of_withCoefs {cfg : Engine} {lowCut : F} {s : State nv cw}
    (h : withCoefs s.hp (cfg.coefHp s.sr lowCut) = s.hp) : hpRetune cfg lowCut s = s := by
  unfold hpRetune
  rw [h]

/-- Setting the coefficients again after a dry pass changes nothing (46_global_effects R202). -/
theorem hpRetune_dryPass (cfg : Engine) (n : Nat) (lowCut rate depth : F) (s : State nv cw) :
    hpRetune cfg lowCut (dryPass cfg n rate depth (hpRetune cfg lowCut s)) =
      dryPass cfg n rate depth (hpRetune cfg lowCut s) := by
  refine hpRetune_of_withCoefs ?_
  obtain ⟨hsr, _⟩ := (dryPass_frame cfg n rate depth (hpRetune cfg lowCut s)).keeps_rate
  rw [hsr]
  refine forIndex_keeps (P := fun t : State nv cw => withCoefs t.hp (cfg.coefHp s.sr lowCut) = t.hp) rfl
    fun i _ t ht => ?_
  rw [drySample_hp]
  exact withCoefs_iir1Step ht _

/-! ### Two engines that sound alike (46_global_effects R215) -/

/-- Two engines have the same rate, buffer length, voices and noise counter. -/
def SameVoices (s s' : State nv cw) : Prop :=
  s.sr = s'.sr ∧ s.len = s'.len ∧ s.voices = s'.voices ∧ s.noiseState = s'.noiseState

/-- Two engines also have the same high-pass section and tremolo phase: all that a dry sample reads. -/
def SameSignal (s s' : State nv cw) : Prop := SameVoices s s' ∧ s.hp = s'.hp ∧ s.tph = s'.tph

namespace SameVoices

variable {s s' : State nv cw}

theorem sr (h : SameVoices s s') : s.sr = s'.sr := by
  obtain ⟨hsr, _⟩ := h
  exact hsr

theorem len (h : SameVoices s s') : s.len = s'.len := by
  obtain ⟨_, hlen, _⟩ := h
  exact hlen

theorem noiseState (h : SameVoices s s') : s.noiseState = s'.noiseState := by
  obtain ⟨_, _, _, hnoise⟩ := h
  exact hnoise

theorem voice (h : SameVoices s s') (v : Fin nv) : s.voice v = s'.voice v := by
  obtain ⟨_, _, hvoices, _⟩ := h
  unfold State.voice
  rw [hvoices]

theorem soughtCursor_eq (h : SameVoices s s') (cfg : Engine) (v : Fin nv) :
    soughtCursor cfg v s = soughtCursor cfg v s' := by
  unfold soughtCursor delaySamples
  rw [h.voice v, h.sr, h.len]

theorem delayedSample_eq (h : SameVoices s s') (cfg : Engine) (v : Fin nv) :
    delayedSample cfg v s = delayedSample cfg v s' := by
  unfold delayedSample
  rw [h.soughtCursor_eq cfg v, h.voice v]

theorem excSample_eq (h : SameVoices s s') (v : Fin nv) : (excSample v s).1 = (excSample v s').1 := by
  rw [excSample_fst, excSample_fst, h.voice v, waveValue_fst_of_noiseState_eq _ _ h.noiseState]

theorem renderedVoice_eq (h : SameVoices s s') (cfg : Engine) (v : Fin nv) :
    renderedVoice cfg v s = renderedVoice cfg v s' := by
  unfold renderedVoice
  rw [excSample_seekReadCursor_fst, excSample_seekReadCursor_fst, h.excSample_eq v, h.delayedSample_eq cfg v,
    h.soughtCursor_eq cfg v, h.voice v, h.sr, h.len]

theorem after_vRender (h : SameVoices s s') (cfg : Engine) (v : Fin nv) :
    (vRender cfg v s).1 = (vRender cfg v s').1 ∧ SameVoices (vRender cfg v s).2 (vRender cfg v s').2 := by
  cases ha : (s.voice v).active with
  | false =>
    have ha' : (s'.voice v).active = false := by rw [← h.voice v, ha]
    rw [vRender_idle cfg ha, vRender_idle cfg ha']
    exact ⟨rfl, h⟩
  | true =>
    have ha' : (s'.voice v).active = true := by rw [← h.voice v, ha]
    refine ⟨?_, ?_, ?_, voices_ext fun u => ?_, ?_⟩
    · rw [vRender_fst cfg ha, vRender_fst cfg ha', h.voice v, h.delayedSample_eq cfg v]
    · rw [vRender_sr, vRender_sr, h.sr]
    · rw [vRender_len, vRender_len, h.len]
    · by_cases hu : u = v
      · subst hu
        rw [vRender_voice_same cfg ha, vRender_voice_same cfg ha', h.renderedVoice_eq cfg u]
      · rw [vRender_voice_ne cfg s hu, vRender_voice_ne cfg s' hu, h.voice u]
    · rw [vRender_noiseState cfg ha, vRender_noiseState cfg ha', h.voice v, h.noiseState]

theorem after_foldl_sumStep (cfg : Engine) (l : List (Fin nv)) {a a' : F × State nv cw} (hsum : a.1 = a'.1)
    (h : SameVoices a.2 a'.2) :
    (l.foldl (sumStep cfg) a).1 = (l.foldl (sumStep cfg) a').1 ∧
      SameVoices (l.foldl (sumStep cfg) a).2 (l.foldl (sumStep cfg) a').2 := by
  induction l generalizing a a' with
  | nil => exact ⟨hsum, h⟩
  | cons v rest ih =>
    obtain ⟨hsample, hafter⟩ := h.after_vRender cfg v
    exact ih (by rw [sumStep, sumStep, hsum, hsample]) hafter

theorem after_poolSum (h : SameVoices s s') (cfg : Engine) :
    (poolSum cfg s).1 = (poolSum cfg s').1 ∧ SameVoices (poolSum cfg s).2 (poolSum cfg s').2 :=
  after_foldl_sumStep cfg (voiceOrder nv) rfl h

end SameVoices

namespace SameSignal

variable {s s' u : State nv cw}

theorem symm (h : SameSignal s s') : SameSignal s' s := by
  obtain ⟨⟨hsr, hlen, hvoices, hnoise⟩, hhp, htph⟩ := h
  exact ⟨⟨hsr.symm, hlen.symm, hvoices.symm, hnoise.symm⟩, hhp.symm, htph.symm⟩

theorem trans (h : SameSignal s s') (h' : SameSignal s' u) : SameSignal s u := by
  obtain ⟨⟨hsr, hlen, hvoices, hnoise⟩, hhp, htph⟩ := h
  obtain ⟨⟨hsr', hlen', hvoices', hnoise'⟩, hhp', htph'⟩ := h'
  exact ⟨⟨hsr.trans hsr', hlen.trans hlen', hvoices.trans hvoices', hnoise.trans hnoise'⟩, hhp.trans hhp',
    htph.trans htph'⟩

theorem after_hpRetune (h : SameSignal s s') (cfg : Engine) (lowCut : F) :
    SameSignal (hpRetune cfg lowCut s) (hpRetune cfg lowCut s') := by
  obtain ⟨hvoices, hhp, htph⟩ := h
  refine ⟨hvoices, ?_, htph⟩
  rw [hpRetune, hpRetune, hhp, hvoices.sr]

theorem dryWord_eq (h : SameSignal s s') (cfg : Engine) (depth : F) : dryWord cfg depth s = dryWord cfg depth s' := by
  obtain ⟨hvoices, hhp, htph⟩ := h
  obtain ⟨hsum, _⟩ := hvoices.after_poolSum cfg
  rw [dryWord, dryWord, hsum, hhp, htph]

/-- The index of a sample is nothing to the signal. -/
theorem after_drySample (h : SameSignal s s') (cfg : Engine) (rate depth : F) (i j : Nat) :
    SameSignal (drySample cfg rate depth i s) (drySample cfg rate depth j s') := by
  obtain ⟨hvoices, hhp, htph⟩ := h
  obtain ⟨hsum, hafter⟩ := hvoices.after_poolSum cfg
  rw [drySample_eq, drySample_eq, hsum, hhp, htph, hvoices.sr]
  exact ⟨hafter, rfl, rfl⟩

/-- A dry pass taken up where another one of `m` samples left off goes on as the longer one does. -/
theorem after_dryPass {m : Nat} {cfg : Engine} {rate depth : F} (h : SameSignal s (dryPass cfg m rate depth s'))
    (n : Nat) : SameSignal (dryPass cfg n rate depth s) (dryPass cfg (m + n) rate depth s') := by
  induction n with
  | zero => exact h
  | succ n ih => exact ih.after_drySample cfg rate depth n (m + n)

end SameSignal

/-! ### The block (46_global_effects R201, R210) -/

/-- After the dry pass a block writes nothing that a dry sample reads. -/
theorem fxBlock_sameSignal (cfg : Engine) (n : Nat) (gain lowCut rate depth size mix : F) (s : State nv cw) :
    SameSignal (fxBlock cfg n gain lowCut rate depth size mix s)
      (dryPass cfg n rate depth (hpRetune cfg lowCut s)) := by
  unfold fxBlock renderedBlock
  rw [copyPass_frame]
  exact ⟨⟨rfl, rfl, rfl, rfl⟩, rfl, rfl⟩

theorem fxBlock_params (cfg : Engine) (n : Nat) (gain lowCut rate depth size mix : F) (s : State nv cw) :
    (fxBlock cfg n gain lowCut rate depth size mix s).params = s.params := by
  have h := fxBlock_frame cfg n gain lowCut rate depth size mix s
  dsimp only at h
  rw [h]

/-- Every word the copy has reached is the dry word, in both channels; `DRY` itself is kept. -/
theorem memRead_copyPass (s : State nv cw) {n i : Nat} (hi : i < n) :
    memRead (copyPass n s).wetL i = memRead s.dry i ∧ memRead (copyPass n s).wetR i = memRead s.dry i := by
  induction n with
  | zero => exact absurd hi (Nat.not_lt_zero i)
  | succ n ih =>
    have hdry : (copyPass n s).dry = s.dry := by rw [copyPass_frame]
    have hL : (copyPass (n + 1) s).wetL = memWrite (copyPass n s).wetL n (memRead (copyPass n s).dry n) := rfl
    have hR : (copyPass (n + 1) s).wetR = memWrite (copyPass n s).wetR n (memRead (copyPass n s).dry n) := rfl
    rw [hL, hR, hdry, memRead_memWrite, memRead_memWrite]
    split
    next heq => rw [heq]; exact ⟨rfl, rfl⟩
    next hne => exact ih (by omega)

/-- The reverb processor is handed two copies of the dry block. -/
theorem wordsOf_copyPass (n : Nat) (s : State nv cw) :
    wordsOf n (copyPass n s).wetL = wordsOf n s.dry ∧ wordsOf n (copyPass n s).wetR = wordsOf n s.dry := by
  have hread : ∀ i ∈ List.range n, i < n := fun i => List.mem_range.mp
  exact ⟨List.map_congr_left fun i hi => (memRead_copyPass s (hread i hi)).1,
    List.map_congr_left fun i hi => (memRead_copyPass s (hread i hi)).2⟩

theorem DryChange.keeps_rvState {s t : State nv cw} (h : DryChange s t) : t.rvState = s.rvState := by
  unfold DryChange at h
  rw [h]

/-- The reverb's pass over two copies of the dry block: one run of the processor, whose answer replaces the copies. -/
theorem reverbPass_copyPass (n : Nat) (size : F) (d : State nv cw) :
    let b := reverbPass n size (copyPass n d)
    b.rvState = rvNext d.rvState size n (wordsOf n d.dry) (wordsOf n d.dry) ∧ b.dry = d.dry ∧
      ∀ i, i < n → memRead b.wetL i = rvLeft d.rvState size n (wordsOf n d.dry) (wordsOf n d.dry) i ∧
        memRead b.wetR i = rvRight d.rvState size n (wordsOf n d.dry) (wordsOf n d.dry) i := by
  obtain ⟨hL, hR⟩ := wordsOf_copyPass n d
  have hrv : (copyPass n d).rvState = d.rvState := by rw [copyPass_frame]
  have hdry : (copyPass n d).dry = d.dry := by rw [copyPass_frame]
  unfold reverbPass
  rw [hL, hR, hrv]
  refine ⟨rfl, hdry, fun i hi => ⟨?_, ?_⟩⟩
  · exact (memRead_writeWords n _ _ i).trans (if_pos hi)
  · exact (memRead_writeWords n _ _ i).trans (if_pos hi)

/-- The forming of a block runs the processor once, from the state the block before it left. -/
theorem renderedBlock_reverb (cfg : Engine) (n : Nat) (lowCut rate depth size : F) (s : State nv cw) :
    let d := dryPass cfg n rate depth (hpRetune cfg lowCut s)
    let b := renderedBlock cfg n lowCut rate depth size s
    b.rvState = rvNext s.rvState size n (wordsOf n d.dry) (wordsOf n d.dry) ∧ b.dry = d.dry ∧
      ∀ i, i < n → memRead b.wetL i = rvLeft s.rvState size n (wordsOf n d.dry) (wordsOf n d.dry) i ∧
        memRead b.wetR i = rvRight s.rvState size n (wordsOf n d.dry) (wordsOf n d.dry) i := by
  have hrv : (dryPass cfg n rate depth (hpRetune cfg lowCut s)).rvState = s.rvState :=
    (dryPass_frame cfg n rate depth (hpRetune cfg lowCut s)).keeps_rvState
  rw [← hrv]
  exact reverbPass_copyPass n size (dryPass cfg n rate depth (hpRetune cfg lowCut s))

/-! ### RENDER in two parts (46_global_effects R215, 47_host_commands R239) -/

/-- A RENDER that is ready is ready for any other count within the block size. -/
theorem RenderReady.of_count {n m : Nat} {s : State nv cw} (h : RenderReady n s) (h1 : 1 ≤ m)
    (hm : m ≤ s.blockSize.toNat) : RenderReady m s := by
  obtain ⟨hprepared, _, _, hvalid⟩ := h
  exact ⟨hprepared, h1, hm, hvalid⟩

/-- A block leaves the engine ready for what it was ready for. -/
theorem RenderReady.after_fxBlock {m : Nat} {s : State nv cw} (h : RenderReady m s) (cfg : Engine) (n : Nat)
    (gain lowCut rate depth size mix : F) : RenderReady m (fxBlock cfg n gain lowCut rate depth size mix s) := by
  obtain ⟨hprepared, hblock, hvalid⟩ := fxBlock_keeps cfg n gain lowCut rate depth size mix s
  unfold RenderReady
  rw [hprepared, hblock, hvalid]
  exact h

/-- The dry pass of a second block goes on where the dry pass of the first one left off. -/
theorem dryPass_after_fxBlock (cfg : Engine) (n m : Nat) (gain lowCut rate depth size mix : F) (s : State nv cw) :
    SameSignal (dryPass cfg m rate depth (hpRetune cfg lowCut (fxBlock cfg n gain lowCut rate depth size mix s)))
      (dryPass cfg (n + m) rate depth (hpRetune cfg lowCut s)) := by
  have h := (fxBlock_sameSignal cfg n gain lowCut rate depth size mix s).after_hpRetune cfg lowCut
  rw [hpRetune_dryPass] at h
  exact h.after_dryPass m

/-- Two blocks leave of the signal what one block of both lengths leaves. -/
theorem fxBlock_split (cfg : Engine) (n m : Nat) (gain lowCut rate depth size mix : F) (s : State nv cw) :
    SameSignal (fxBlock cfg m gain lowCut rate depth size mix (fxBlock cfg n gain lowCut rate depth size mix s))
      (fxBlock cfg (n + m) gain lowCut rate depth size mix s) :=
  ((fxBlock_sameSignal cfg m gain lowCut rate depth size mix _).trans
    (dryPass_after_fxBlock cfg n m gain lowCut rate depth size mix s)).trans
      (fxBlock_sameSignal cfg (n + m) gain lowCut rate depth size mix s).symm

/-! ### Settings that leave the signal as it is (46_global_effects R207, R212) -/

/-- A value in `[0, 1]` is finite; it is 1.0 or a phase in `[0, 1)`. -/
theorem inUnit_or_eq_fOne {x : F} (h0 : fge x fZero = true) (h1 : fge fOne x = true) : inUnit x = true ∨ x = fOne := by
  have hfin : isFinite x = true := by
    obtain ⟨_, _, hle⟩ := fge_iff_orderKey.mp h1
    obtain ⟨_, _, hge⟩ := fge_iff_orderKey.mp h0
    have hzero : orderKey fZero = 0 := by decide
    have hone : orderKey fOne < infBits := by decide
    have habs := natAbs_orderKey x
    rw [isFinite_iff]
    omega
  have hge := (fge_iff hfin isFinite_fZero).mp h0
  have hle := (fge_iff isFinite_fOne hfin).mp h1
  rw [fixOf_fZero] at hge
  rw [fixOf_fOne] at hle
  rcases lt_or_eq_of_le hle with hlt | heq
  · exact .inl (inUnit_iff.mpr ⟨hfin, hge, hlt⟩)
  · have hpos : fixOf fOne ≠ 0 := by
      rw [fixOf_fOne]
      exact_mod_cast Nat.ne_of_gt unit_pos
    exact .inr (eq_of_fixOf_eq (heq.trans fixOf_fOne.symm) hpos)

/-- The angle of a tremolo phase in `[0, 1]` is finite. -/
theorem isFinite_angle {tph : F} (h0 : fge tph fZero = true) (h1 : fge fOne tph = true) :
    isFinite (fmul twoPi tph) = true := by
  have hpi : isFinite twoPi = true := by decide
  rcases inUnit_or_eq_fOne h0 h1 with hin | rfl
  · exact isFinite_fmul_of_inUnit hpi hin
  · rw [fmul_fOne_of_isFinite hpi]
    exact hpi

/-- The sum `1 + sin` lies in `[0, 2]` before rounding. -/
theorem isFinite_fadd_fOne {sn : F} (h : inRange (fneg fOne) fOne sn = true) : isFinite (fadd fOne sn) = true := by
  obtain ⟨hfin, hlow, hhigh⟩ := inRange_iff.mp h
  rw [fge_iff hfin ((isFinite_fneg fOne).trans isFinite_fOne), fixOf_fneg, fixOf_fOne] at hlow
  rw [fge_iff isFinite_fOne hfin, fixOf_fOne] at hhigh
  rw [fadd_eq]
  refine (addCore_bounds (K := 151) _ isFinite_fOne hfin ?_ (by norm_num) (by norm_num) ?_).1
  · rw [fixOf_fOne]
    omega
  · rw [fixOf_fOne]
    rw [cast_unit] at hhigh ⊢
    norm_num at hhigh ⊢
    omega

/-- With a depth of zero and a phase in `[0, 1]` the factor is 1.0 (46_global_effects R207). -/
theorem tremFactor_of_isZero {depth tph : F} (hdepth : isZero depth = true) (h0 : fge tph fZero = true)
    (h1 : fge fOne tph = true) : tremFactor depth tph = fOne := by
  have hhalf : isZero (fmul depth fHalf) = true := isZero_fmul_left hdepth (by decide)
  have hswing : isFinite (fadd fOne (numSin (fmul twoPi tph))) = true :=
    isFinite_fadd_fOne (inRange_numSin (isFinite_angle h0 h1))
  exact fsub_fOne_of_isZero (isZero_fmul_left hhalf hswing)

/-! ### The obligations -/

/-- Settles O25: the block's frames come after all frames before them, each formed by the mixer. -/
theorem renderEmitsTheMixedFrames : Obligations.RenderEmitsTheMixedFrames :=
  fun n s hready => ⟨_, render_ready hready, fxBlock_frames ksv n _ _ _ _ _ _ s⟩

/-- Settles O38: a dry sample is four writes side by side, and no later sample writes its word again. -/
theorem drySampleIsFilteredSumTimesTremolo : Obligations.DrySampleIsFilteredSumTimesTremolo := by
  intro n s hready
  obtain ⟨⟨_, _, hvoices, hnoise⟩, hhp, htph⟩ := fxBlock_sameSignal ksv n s.params.gain s.params.lowcut
    s.params.tremrate s.params.tremdepth s.params.revsize s.params.revmix s
  refine ⟨_, render_ready hready, ?_⟩
  dsimp only
  exact ⟨rfl, fun i hi => ⟨memRead_dryPass ksv _ _ _ hi, dryPass_writes ksv i _ _ rfl⟩, hhp, htph, hvoices,
    hnoise⟩

/-- Settles O39: the processor reads the two copies once, and its answer is not written again. -/
theorem reverbRunsOnceOnTheDryBlock : Obligations.ReverbRunsOnceOnTheDryBlock := by
  refine ⟨fun _ _ cfg n lowCut rate depth size s => renderedBlock_reverb cfg n lowCut rate depth size s,
    fun n s hready => ⟨_, render_ready hready, ?_⟩⟩
  exact (renderedBlock_reverb ksv n s.params.lowcut s.params.tremrate s.params.tremdepth s.params.revsize s).1

/-- Settles O40: of the engine a dry sample reads what the first of two blocks leaves as the one long block has it. -/
theorem splittingABlockKeepsTheDrySignal : Obligations.SplittingABlockKeepsTheDrySignal := by
  intro n1 n2 s t u w hready h2 hsum ht hu hw dryOf
  rw [render_ready hready] at ht
  rw [render_ready (hready.of_count (by omega) hsum)] at hw
  cases ht
  cases hw
  have hready2 := (hready.of_count h2 (by omega)).after_fxBlock ksv n1 s.params.gain s.params.lowcut
    s.params.tremrate s.params.tremdepth s.params.revsize s.params.revmix
  rw [render_ready hready2, fxBlock_params] at hu
  cases hu
  obtain ⟨⟨_, _, hvoices, hnoise⟩, hhp, htph⟩ := fxBlock_split ksv n1 n2 s.params.gain s.params.lowcut
    s.params.tremrate s.params.tremdepth s.params.revsize s.params.revmix s
  refine ⟨fun i hi => ?_, fun j hj => ?_, hvoices, hhp, htph, hnoise⟩
  · exact (memRead_dryPass ksv _ _ _ hi).trans (memRead_dryPass ksv _ _ _ (by omega)).symm
  · have hsignal := dryPass_after_fxBlock ksv n1 j s.params.gain s.params.lowcut s.params.tremrate s.params.tremdepth
      s.params.revsize s.params.revmix s
    exact ((memRead_dryPass ksv _ _ _ hj).trans (hsignal.dryWord_eq ksv _)).trans
      (memRead_dryPass ksv _ _ _ (by omega)).symm

/-- Settles O42: a zero depth makes the product that is subtracted from 1.0 a zero, its other factor being finite. -/
theorem tremoloDepthZeroLeavesTheSignal : Obligations.TremoloDepthZeroLeavesTheSignal := by
  intro rate depth h s hdepth h0 h1
  have hfactor : (tremStep rate depth s).1 = fOne := tremFactor_of_isZero hdepth h0 h1
  refine ⟨hfactor, fun hfin => ?_⟩
  rw [hfactor, fmul_fOne_of_isFinite hfin]

/-- Settles O43: the dry sample times 1.0 is itself, and a zero is added to it. -/
theorem reverbMixZeroGivesTheDrySignal : Obligations.ReverbMixZeroGivesTheDrySignal := by
  intro d w gain hd hw
  have hdry : fmul d (fsub fOne fZero) = d := by rw [fsub_fOne_of_isZero (by decide), fmul_fOne_of_isFinite hd]
  have hcases := fadd_of_isZero_right hd (isZero_fmul_fZero hw)
  refine ⟨fadd d (fmul w fZero), hcases.imp_right And.symm, ?_⟩
  rw [mixFrame, hdry]

end Sys2Proof.Machine
end

section
/-! PROOFS. The statements about the sequencer and the ports (47_host_commands R230, R241): what happens to the word at
the port, where the frames go, and what a step without a command leaves alone. -/

namespace Sys2Proof.Machine

open Sys2Proof.Config

variable {nv cw : Nat}

/-! ### Acceptance of a word (47_host_commands R230) -/

/-- With no frame waiting the word at the port is accepted and leaves the list. -/
theorem step_word {s : State} {w : Word64} {rest : List HostEvent} (hin : s.hostIn = .word w :: rest)
    (hport : s.emitting = []) : step s = acceptWord exec w { s with hostIn := rest } := by
  unfold step sequence
  rw [hin]
  dsimp only
  rw [hport]
  rfl

theorem acceptWord_command {run : Instr → State nv cw → Answer nv cw} {w : Word64} {i : Instr} {s : State nv cw}
    (hf : s.fault = false) (hd : decode w = .command i) : acceptWord run w s = run i s := by
  unfold acceptWord
  rw [hf, hd]
  rfl

/-- Settles O6: the word is accepted, and outside the fault state what it decodes to is run. -/
theorem stepRunsTheDecodedCommand : Obligations.StepRunsTheDecodedCommand := by
  intro s w rest i hin hport hfault hdecode
  rw [step_word hin hport]
  exact acceptWord_command hfault hdecode

/-! ### Frames moving into the queue (47_host_commands R241) -/

/-- With no frame waiting, or no room for one, nothing moves. -/
theorem drain_eq_self {cfg : Engine} {s : State nv cw}
    (h : s.emitting = [] ∨ queueCapacity cfg ≤ s.outQueue.length) : drain cfg s = s := by
  unfold drain
  rcases h with hnone | hfull
  · rw [hnone, List.take_nil, List.drop_nil, List.append_nil, ← hnone]
  · rw [Nat.sub_eq_zero_of_le hfull, List.take_zero, List.drop_zero, List.append_nil]

/-- The queue is within its capacity, and frames wait only while it is full. -/
def QueueFilledFirst (cfg : Engine) (s : State nv cw) : Prop :=
  s.outQueue.length ≤ queueCapacity cfg ∧ (s.emitting ≠ [] → s.outQueue.length = queueCapacity cfg)

/-- Moving as many frames as there is room for fills the queue before any frame waits. -/
theorem queueFilledFirst_drain {cfg : Engine} {s : State nv cw} (h : s.outQueue.length ≤ queueCapacity cfg) :
    QueueFilledFirst cfg (drain cfg s) := by
  unfold QueueFilledFirst
  rw [drain_outQueue, drain_emitting, List.length_append, List.length_take, ne_eq, List.drop_eq_nil_iff]
  omega

theorem portOrdered_iff (s : State) : PortOrdered s ↔ QueueFilledFirst ksv s ∧ (s.fault = true → s.emitting = []) := by
  unfold PortOrdered QueueFilledFirst
  rw [and_assoc]

/-- A move of frames orders the port, though frames may wait before it with room in the queue. -/
theorem portOrdered_drain {s : State} (hroom : s.outQueue.length ≤ queueCapacity ksv)
    (hfault : s.fault = true → s.emitting = []) : PortOrdered (drain ksv s) := by
  refine (portOrdered_iff _).mpr ⟨queueFilledFirst_drain hroom, fun hf => ?_⟩
  rw [drain_emitting, hfault hf, List.drop_nil]

/-- With no frame waiting only the length of the queue is bounded. -/
theorem portOrdered_of_none_waiting {s : State} (hroom : s.outQueue.length ≤ queueCapacity ksv)
    (hnone : s.emitting = []) : PortOrdered s :=
  ⟨hroom, fun h => absurd hnone h, fun _ => hnone⟩

/-! ### The port through a command (47_host_commands R239, R241) -/

/-- A command leaves the frames that were there, in their order; only a RENDER puts any behind them, as many as it was
asked for. -/
theorem runs_frames {i : Instr} {s t : State} (h : Runs i s t) :
    ∃ new : List Word64, t.outQueue ++ t.emitting = s.outQueue ++ s.emitting ++ new ∧
      (new ≠ [] → ∃ n, i = .render n ∧ new.length = n) := by
  by_cases hi : ∀ n, i ≠ .render n
  · obtain ⟨_, hqueue, hwaiting, _⟩ := runs_keeps_port h hi
    exact ⟨[], by rw [hqueue, hwaiting, List.append_nil], fun hne => absurd rfl hne⟩
  · push Not at hi
    obtain ⟨n, rfl⟩ := hi
    cases h with
    | setp _ _ _ hset => exact absurd hset Bool.false_ne_true
    | fault => exact ⟨[], (List.append_nil _).symm, fun hne => absurd rfl hne⟩
    | render => exact ⟨_, fxBlock_frames ksv n _ _ _ _ _ _ s, fun _ => ⟨n, rfl, length_blockFrames n _ _ _⟩⟩

/-- A block's frames go into the queue as far as there is room. -/
theorem portOrdered_fxBlock {s : State} (n : Nat) (gain lowCut rate depth size mix : F)
    (hroom : s.outQueue.length ≤ queueCapacity ksv) (hfault : s.fault = false) :
    PortOrdered (fxBlock ksv n gain lowCut rate depth size mix s) := by
  have hblock := renderedBlock_frame ksv n lowCut rate depth size s
  have hqueue := congrArg State.outQueue hblock
  have hf : (renderedBlock ksv n lowCut rate depth size s).fault = false := (congrArg State.fault hblock).trans hfault
  exact portOrdered_drain (le_of_eq_of_le (congrArg List.length hqueue) hroom)
    fun h => absurd (h.symm.trans hf) (by decide)

/-- A command that starts with no frame waiting leaves the port ordered. -/
theorem runs_portOrdered {i : Instr} {s t : State} (h : Runs i s t) (hroom : s.outQueue.length ≤ queueCapacity ksv)
    (hnone : s.emitting = []) (hfault : s.fault = false) : PortOrdered t := by
  cases h with
  | render => exact portOrdered_fxBlock _ _ _ _ _ _ _ hroom hfault
  | noteoff => rw [poolNoteoff_frame]; exact portOrdered_of_none_waiting hroom hnone
  | nop | setp | fault | prepare | full | start => exact portOrdered_of_none_waiting hroom hnone

/-! ### The obligations -/

/-- Settles O60: frames move as far as there is room, and a word is accepted only with none waiting. -/
theorem everyStepKeepsThePortOrdered : Obligations.EveryStepKeepsThePortOrdered := by
  intro s t hs h
  obtain ⟨hroom, _, hfault⟩ := hs
  rcases step_cases h with ⟨_, rfl⟩ | ⟨rest, _, rfl⟩ | ⟨rest, _, rfl⟩ | ⟨_, _, _, _, rfl⟩ | ⟨w, rest, _, hnone, ha⟩
  · exact portOrdered_drain hroom hfault
  · exact portOrdered_of_none_waiting (Nat.zero_le _) rfl
  · have hdrop : (s.outQueue.drop 1).length ≤ queueCapacity ksv :=
      le_trans (List.drop_sublist 1 s.outQueue).length_le hroom
    exact portOrdered_drain hdrop hfault
  · exact portOrdered_drain hroom hfault
  · rcases acceptWord_cases ha with ⟨_, rfl⟩ | ⟨_, _, rfl⟩ | ⟨hf, i, _, he⟩
    · exact portOrdered_of_none_waiting hroom hnone
    · exact portOrdered_of_none_waiting hroom hnone
    · exact runs_portOrdered (exec_runs he) hroom hnone hf

/-- Where the frames are after a step that is no reset: a take removes the oldest one, and a RENDER alone adds any. -/
theorem step_frames {s t : State} (h : step s = .next t) (hreset : ∀ rest, s.hostIn ≠ .reset :: rest) :
    ∃ new : List Word64,
      t.outQueue ++ t.emitting =
        (if s.hostIn.head? = some .take then s.outQueue.drop 1 else s.outQueue) ++ s.emitting ++ new ∧
      (new ≠ [] → ∃ w n rest, s.hostIn = .word w :: rest ∧ decode w = .command (.render n) ∧ new.length = n) := by
  rcases step_cases h with ⟨hin, rfl⟩ | ⟨rest, hin, _⟩ | ⟨rest, hin, rfl⟩ | ⟨w, rest, hin, _, rfl⟩ |
    ⟨w, rest, hin, _, ha⟩
  · exact ⟨[], (drain_frames ksv s).trans (by simp [hin]), fun hne => absurd rfl hne⟩
  · exact absurd hin (hreset rest)
  · exact ⟨[], (takeFrame_frames ksv _).trans (by simp [hin]), fun hne => absurd rfl hne⟩
  · exact ⟨[], (drain_frames ksv s).trans (by simp [hin]), fun hne => absurd rfl hne⟩
  · have hhead : ¬ s.hostIn.head? = some .take := by simp [hin]
    rw [if_neg hhead]
    rcases acceptWord_cases ha with ⟨_, rfl⟩ | ⟨_, _, rfl⟩ | ⟨_, i, hd, he⟩
    · exact ⟨[], (List.append_nil _).symm, fun hne => absurd rfl hne⟩
    · exact ⟨[], (List.append_nil _).symm, fun hne => absurd rfl hne⟩
    · obtain ⟨new, hnew, hadds⟩ := runs_frames (exec_runs he)
      refine ⟨new, hnew, fun hne => ?_⟩
      obtain ⟨n, rfl, hlen⟩ := hadds hne
      exact ⟨w, n, rest, hin, hd, hlen⟩

/-- With nothing to do, or with a word that must wait, the one thing that moves is frames. -/
theorem step_waiting {s : State} (h : s.hostIn = [] ∨ ∃ w rest, s.hostIn = .word w :: rest ∧ s.emitting ≠ []) :
    step s = .next (drain ksv s) := by
  unfold step sequence
  rcases h with hin | ⟨w, rest, hin, hwaiting⟩
  · rw [hin]
  · rw [hin]
    exact if_neg (by simpa using hwaiting)

theorem step_take {s : State} {rest : List HostEvent} (hin : s.hostIn = .take :: rest) :
    step s = .next (takeFrame ksv { s with hostIn := rest }) := by
  unfold step sequence
  rw [hin]

/-- Settles O12: the frames by the host's action, and the two kinds of step that move frames only. -/
theorem framesStayInOrderAndOnlyCommandsChangeTheEngine :
    Obligations.FramesStayInOrderAndOnlyCommandsChangeTheEngine := by
  intro s t h hreset
  refine ⟨step_frames h hreset, fun hidle => ?_, fun rest hin => ?_⟩
  · rw [step_waiting hidle] at h
    cases h
    exact ⟨rfl, drain_eq_self⟩
  · rw [step_take hin] at h
    cases h
    rfl

end Sys2Proof.Machine
end

section
/-! PROOFS. The statements about the commands NOP, SETP, PREPARE, NOTEON, NOTEOFF and RENDER one by one
(47_host_commands R231 to R239): what each writes, and in what order its checks fault. -/

namespace Sys2Proof.Machine

open Sys2Proof.Config

variable {nv cw : Nat}

/-! ### NOP and SETP (47_host_commands R231, R234, R235) -/

/-- Settles O14: the meaning of `NOP` is its own argument. -/
theorem nopLeavesAllStateUnchanged : Obligations.NopLeavesAllStateUnchanged := fun _ => rfl

/-- Settles O15: each is one `writeParam`, with the bit of its own register. -/
theorem setpWritesOneRegisterAndItsValidBit : Obligations.SetpWritesOneRegisterAndItsValidBit :=
  fun _ _ => ⟨rfl, rfl, rfl, rfl, rfl, rfl, rfl, rfl, rfl⟩

/-- Settles O16: the kind goes by the same `writeParam` as the float parameters. -/
theorem setpWaveWritesTheKindAndItsValidBit : Obligations.SetpWaveWritesTheKindAndItsValidBit := fun _ _ => rfl

/-! ### The acceptable rates (47_host_commands R232) -/

/-- A value rounds to 1 or more from one half on. -/
theorem one_le_roundHalfAway_iff {x : F} (hx : isFinite x = true) :
    1 ≤ roundHalfAway x ↔ (unit : Int) ≤ 2 * fixOf x := by
  have hpos := unit_pos
  have hdiv : 1 ≤ (2 * unitsOf (magBits x) + unit) / (2 * unit) ↔ 1 * (2 * unit) ≤ 2 * unitsOf (magBits x) + unit :=
    Nat.le_div_iff_mul_le (by omega)
  rw [roundHalfAway_of_isFinite hx, fixOf_eq_signed]
  generalize (2 * unitsOf (magBits x) + unit) / (2 * unit) = rounded at hdiv ⊢
  cases signBit x with
  | true => rw [signed_true, signed_true]; omega
  | false => rw [signed_false, signed_false]; omega

/-- A value rounds to `N` or less below `N` and a half. -/
theorem roundHalfAway_le_iff {x : F} (hx : isFinite x = true) (N : Nat) :
    roundHalfAway x ≤ (N : Int) ↔ 2 * fixOf x < ((2 * N + 1) * unit : Nat) := by
  have hpos := unit_pos
  have hdiv : (2 * unitsOf (magBits x) + unit) / (2 * unit) < N + 1 ↔
      2 * unitsOf (magBits x) + unit < (N + 1) * (2 * unit) := Nat.div_lt_iff_lt_mul (by omega)
  have hlimit : (N + 1) * (2 * unit) = (2 * N + 1) * unit + unit := by ring
  have hlimit_pos : 0 < (2 * N + 1) * unit := Nat.mul_pos (by omega) hpos
  rw [roundHalfAway_of_isFinite hx, fixOf_eq_signed]
  generalize (2 * unitsOf (magBits x) + unit) / (2 * unit) = rounded at hdiv ⊢
  generalize (2 * N + 1) * unit = limit at hlimit hlimit_pos ⊢
  cases signBit x with
  | true => rw [signed_true, signed_true]; omega
  | false => rw [signed_false, signed_false]; omega

/-- What lies between two finite values is finite. -/
theorem isFinite_of_between {lo hi x : F} (hlo : isFinite lo = true) (hhi : isFinite hi = true)
    (hge : fge x lo = true) (hlt : flt x hi = true) : isFinite x = true := by
  obtain ⟨_, _, h1⟩ := fge_iff_orderKey.mp hge
  obtain ⟨_, _, h2⟩ := flt_iff_orderKey.mp hlt
  have hl := isFinite_iff.mp hlo
  have hh := isFinite_iff.mp hhi
  rw [← natAbs_orderKey] at hl hh
  rw [isFinite_iff, ← natAbs_orderKey]
  omega

/-- `0x3F000000` is one half. -/
theorem fixOf_half : 2 * fixOf 0x3F000000 = (unit : Int) := by decide

/-- `0x48800010` is 262144.5. -/
theorem fixOf_rateLimit : 2 * fixOf 0x48800010 = ((2 * 262144 + 1) * unit : Nat) := by decide

/-- Settles O18: both forms bound twice the value by the same two counts of units. -/
theorem acceptableRatesAreAnInterval : Obligations.AcceptableRatesAreAnInterval := by
  intro sr
  have hhalf : isFinite 0x3F000000 = true := by decide
  have hlimit : isFinite 0x48800010 = true := by decide
  have hlow := fixOf_half
  have hhigh := fixOf_rateLimit
  have hbounds (hfin : isFinite sr = true) : (1 ≤ roundHalfAway sr ∧ roundHalfAway sr ≤ 262144) ↔
      (fge sr 0x3F000000 = true ∧ flt sr 0x48800010 = true) := by
    have hle : roundHalfAway sr ≤ 262144 ↔ 2 * fixOf sr < ((2 * 262144 + 1) * unit : Nat) :=
      roundHalfAway_le_iff hfin 262144
    rw [one_le_roundHalfAway_iff hfin, hle, fge_iff hfin hhalf, flt_iff hfin hlimit]
    omega
  exact ⟨fun ⟨hfin, h⟩ => (hbounds hfin).mp h, fun ⟨hge, hlt⟩ =>
    have hfin := isFinite_of_between hhalf hlimit hge hlt
    ⟨hfin, (hbounds hfin).mpr ⟨hge, hlt⟩⟩⟩

/-! ### PREPARE (47_host_commands R232, R233) -/

theorem prepareAcceptable_ksv (bs : Nat) (sr : F) :
    prepareAcceptable ksv bs sr = true ↔
      isFinite sr = true ∧ 1 ≤ roundHalfAway sr ∧ roundHalfAway sr ≤ 262144 ∧ 1 ≤ bs ∧ bs ≤ 8192 := by
  have hrate : rateAcceptable ksv sr = true ↔
      isFinite sr = true ∧ 1 ≤ roundHalfAway sr ∧ roundHalfAway sr ≤ 262144 := rateAcceptable_ksv sr
  have hblock : blockSizeAcceptable ksv bs = true ↔ 1 ≤ bs ∧ bs ≤ 8192 := by
    rw [blockSizeAcceptable, Bool.and_eq_true, decide_eq_true_eq, decide_eq_true_eq, ksv_maxBlock]
  rw [prepareAcceptable, Bool.and_eq_true, hblock, hrate, and_comm, and_assoc, and_assoc]

theorem prepareOn_acceptable {cfg : Engine} {bs : Nat} {sr : F} (h : prepareAcceptable cfg bs sr = true)
    (s : State nv cw) : prepareOn cfg bs sr s = .next (prepareState cfg bs sr s) := if_pos h

theorem prepareOn_refused {cfg : Engine} {bs : Nat} {sr : F} (h : ¬ prepareAcceptable cfg bs sr = true)
    (s : State nv cw) : prepareOn cfg bs sr s = .next (raiseFault .badPrepare s) := if_neg h

/-- Settles O17: the check is R232's, and the buffer length is the rounded rate. -/
theorem prepareRebuildsTheEngineOrFaults : Obligations.PrepareRebuildsTheEngineOrFaults := by
  intro bs sr s
  refine ⟨fun h => ?_, fun h => ?_⟩
  · have hlen : bufLength ksv sr = roundHalfAway sr := bufLength_ksv h.1
    rw [← hlen]
    exact prepareOn_acceptable ((prepareAcceptable_ksv bs sr).mpr h) s
  · exact prepareOn_refused (fun hacc => h ((prepareAcceptable_ksv bs sr).mp hacc)) s

/-! ### The order of the checks (60_exceptions R252, R254, R259) -/

theorem noteonReady_iff (s : State nv cw) : NoteonReady s ↔ s.prepared = true ∧ noteParamsValid s = true := by
  simp only [NoteonReady, noteParamsValid, validBit, Bool.and_eq_true, and_assoc]

theorem renderReady_iff (n : Nat) (s : State nv cw) :
    RenderReady n s ↔ s.prepared = true ∧ countAcceptable n s = true ∧ blockParamsValid s = true := by
  simp only [RenderReady, countAcceptable, blockParamsValid, validBit, Bool.and_eq_true, decide_eq_true_eq, and_assoc]

theorem countAcceptable_iff (n : Nat) (s : State nv cw) :
    countAcceptable n s = true ↔ 1 ≤ n ∧ n ≤ s.blockSize.toNat := by
  simp only [countAcceptable, Bool.and_eq_true, decide_eq_true_eq]

theorem noteonOn_unprepared (cfg : Engine) (p : Nat) (vel : F) {s : State nv cw} (hp : s.prepared = false) :
    noteonOn cfg p vel s = .next (raiseFault .notPrepared s) := by
  unfold noteonOn
  rw [hp]
  rfl

theorem noteonOn_paramUnset (cfg : Engine) (p : Nat) (vel : F) {s : State nv cw} (hp : s.prepared = true)
    (hready : ¬ NoteonReady s) : noteonOn cfg p vel s = .next (raiseFault .paramUnset s) := by
  have hunset : noteParamsValid s = false :=
    Bool.eq_false_iff.mpr fun hvalid => hready ((noteonReady_iff s).mpr ⟨hp, hvalid⟩)
  unfold noteonOn
  rw [hp, hunset]
  rfl

/-- Settles O21: `PREPARED` is looked at first and the validity bits next. -/
theorem noteonFaultsInOrder : Obligations.NoteonFaultsInOrder :=
  fun p vel _ => ⟨noteonOn_unprepared ksv p vel, noteonOn_paramUnset ksv p vel⟩

theorem renderOn_unprepared (cfg : Engine) (n : Nat) {s : State nv cw} (hp : s.prepared = false) :
    renderOn cfg n s = .next (raiseFault .notPrepared s) := by
  unfold renderOn
  rw [hp]
  rfl

theorem renderOn_badBlock (cfg : Engine) {n : Nat} {s : State nv cw} (hp : s.prepared = true)
    (hbad : n = 0 ∨ s.blockSize.toNat < n) : renderOn cfg n s = .next (raiseFault .badBlock s) := by
  have hcount : countAcceptable n s = false := by
    rw [Bool.eq_false_iff, ne_eq, countAcceptable_iff]
    omega
  unfold renderOn
  rw [hp, hcount]
  rfl

theorem renderOn_paramUnset (cfg : Engine) {n : Nat} {s : State nv cw} (hp : s.prepared = true) (h1 : 1 ≤ n)
    (hn : n ≤ s.blockSize.toNat) (hready : ¬ RenderReady n s) :
    renderOn cfg n s = .next (raiseFault .paramUnset s) := by
  have hcount : countAcceptable n s = true := (countAcceptable_iff n s).mpr ⟨h1, hn⟩
  have hunset : blockParamsValid s = false :=
    Bool.eq_false_iff.mpr fun hvalid => hready ((renderReady_iff n s).mpr ⟨hp, hcount, hvalid⟩)
  unfold renderOn
  rw [hp, hcount, hunset]
  rfl

/-- Settles O23: `PREPARED` is looked at first, then the count, then the validity bits. -/
theorem renderFaultsInOrder : Obligations.RenderFaultsInOrder :=
  fun n _ => ⟨renderOn_unprepared ksv n, renderOn_badBlock ksv, renderOn_paramUnset ksv⟩

/-! ### NOTEOFF (47_host_commands R238) -/

theorem execNoteoff_prepared {s : State nv cw} (hp : s.prepared = true) : execNoteoff s = .next (poolNoteoff s) := by
  unfold execNoteoff
  rw [hp]
  rfl

theorem execNoteoff_unprepared {s : State nv cw} (hp : s.prepared = false) :
    execNoteoff s = .next (raiseFault .notPrepared s) := by
  unfold execNoteoff
  rw [hp]
  rfl

/-- Settles O22: in a prepared engine NOTEOFF is the pool's stop of every voice, which writes the voices only. -/
theorem noteoffStopsEveryVoice : Obligations.NoteoffStopsEveryVoice :=
  fun s => ⟨fun hp => ⟨poolNoteoff s, execNoteoff_prepared hp, poolNoteoff_voice s, poolNoteoff_frame s⟩,
    execNoteoff_unprepared⟩

end Sys2Proof.Machine
end

section
/-! PROOFS. The statement that a RENDER completes and what it keeps (47_host_commands R239): every block renders each
voice once a sample, so that its write cursor steps through one word a sample, and the scratch memories are written
below the count only. -/

namespace Sys2Proof.Machine

open Sys2Proof.Config

variable {nv cw : Nat}

/-! ### One voice in a pool sum (45_voice_pool R195) -/

theorem foldl_sumStep_voice_of_not_mem (cfg : Engine) {v : Fin nv} {l : List (Fin nv)} (hv : v ∉ l)
    (a : F × State nv cw) : (l.foldl (sumStep cfg) a).2.voice v = a.2.voice v := by
  induction l generalizing a with
  | nil => rfl
  | cons u rest ih =>
    rw [List.mem_cons, not_or] at hv
    obtain ⟨hne, hrest⟩ := hv
    rw [List.foldl_cons, ih hrest]
    exact vRender_voice_ne cfg a.2 hne

/-- A pool sum renders each voice once, in a state that has its register file as it was before the sum. -/
theorem poolSum_voice (cfg : Engine) (s : State nv cw) (v : Fin nv) :
    ∃ u, VoiceChange s u ∧ u.voice v = s.voice v ∧ (poolSum cfg s).2.voice v = (vRender cfg v u).2.voice v := by
  obtain ⟨before, after, hl⟩ := List.append_of_mem (mem_voiceOrder v)
  have hnodup : (before ++ v :: after).Nodup := hl ▸ List.nodup_finRange nv
  obtain ⟨hbefore, hafter⟩ : v ∉ before ∧ v ∉ after := by
    rw [List.nodup_middle, List.nodup_cons, List.mem_append, not_or] at hnodup
    exact hnodup.1
  refine ⟨(before.foldl (sumStep cfg) (fZero, s)).2, foldl_sumStep_frame cfg before (fZero, s),
    foldl_sumStep_voice_of_not_mem cfg hbefore _, ?_⟩
  unfold poolSum
  rw [hl, List.foldl_append, List.foldl_cons, foldl_sumStep_voice_of_not_mem cfg hafter]
  rfl

/-! ### The write cursor through a block (44_voice R171, R181) -/

/-- The voice `q` is what `k` samples can make of the voice `r`: an Idle one is as it was; the write cursor of a
Sounding one has made `k` steps, and no word was written but those it left. -/
def LineAfter (len : BitVec cw) (r : Voice cw) (k : Nat) (q : Voice cw) : Prop :=
  (r.active = false → q = r) ∧
    (r.active = true → q.active = true ∧ q.wc = (fun c => stepCursor c len)^[k] r.wc) ∧
    ∀ a, (∀ j, j < k → a ≠ ((fun c => stepCursor c len)^[j] r.wc).toNat) → memRead q.buf a = memRead r.buf a

theorem LineAfter.start (len : BitVec cw) (r : Voice cw) : LineAfter len r 0 r :=
  ⟨fun _ => rfl, fun h => ⟨h, rfl⟩, fun _ _ => rfl⟩

/-- One more sample leaves an Idle voice alone, and takes a Sounding one a step and a written word further. -/
theorem LineAfter.after_vRender {r : Voice cw} {k : Nat} {v : Fin nv} {s : State nv cw}
    (h : LineAfter s.len r k (s.voice v)) (cfg : Engine) : LineAfter s.len r (k + 1) ((vRender cfg v s).2.voice v) := by
  obtain ⟨hidle, hsounding, hbuffer⟩ := h
  cases hr : r.active with
  | false =>
    have hsame : s.voice v = r := hidle hr
    have hkept : (vRender cfg v s).2.voice v = r := by
      rw [vRender_idle cfg (by rw [hsame, hr])]
      exact hsame
    rw [hkept]
    exact ⟨fun _ => rfl, fun hactive => absurd (hactive.symm.trans hr) (by decide), fun _ _ => rfl⟩
  | true =>
    obtain ⟨hactive, hwc⟩ := hsounding hr
    rw [vRender_voice_same cfg hactive]
    refine ⟨fun hstopped => absurd (hstopped.symm.trans hr) (by decide), fun _ => ⟨hactive, ?_⟩, fun a ha => ?_⟩
    · rw [Function.iterate_succ_apply', ← hwc]
      rfl
    · have hother : a ≠ (s.voice v).wc.toNat := hwc ▸ ha k (Nat.lt_succ_self k)
      exact (memRead_memWrite_ne _ _ hother).trans (hbuffer a fun j hj => ha j (Nat.lt_succ_of_lt hj))

theorem lineAfter_dryPass (cfg : Engine) (n : Nat) (rate depth : F) (s : State nv cw) (v : Fin nv) :
    LineAfter s.len (s.voice v) n ((dryPass cfg n rate depth s).voice v) := by
  induction n with
  | zero => exact .start s.len (s.voice v)
  | succ n ih =>
    obtain ⟨u, hchange, hsame, hvoice⟩ := poolSum_voice cfg (dryPass cfg n rate depth s) v
    have hlen : u.len = s.len := hchange.keeps_len.trans (dryPass_frame cfg n rate depth s).keeps_rate.2
    rw [dryPass_succ, drySample_voice, hvoice, ← hlen]
    rw [← hsame, ← hlen] at ih
    exact ih.after_vRender cfg

/-- A block of `n` frames takes every voice `n` samples on. -/
theorem lineAfter_fxBlock (cfg : Engine) (n : Nat) (gain lowCut rate depth size mix : F) (s : State nv cw)
    (v : Fin nv) : LineAfter s.len (s.voice v) n ((fxBlock cfg n gain lowCut rate depth size mix s).voice v) := by
  rw [fxBlock_voice]
  exact lineAfter_dryPass cfg n rate depth (hpRetune cfg lowCut s) v

/-! ### The scratch memories above the count (46_global_effects R201, R210) -/

/-- The scratch memories of two states agree from word `n` on. -/
def ScratchAgreeFrom (n : Nat) (s t : State nv cw) : Prop :=
  ∀ a, n ≤ a → memRead t.dry a = memRead s.dry a ∧ memRead t.wetL a = memRead s.wetL a ∧
    memRead t.wetR a = memRead s.wetR a

theorem dryPass_scratchAgreeFrom (cfg : Engine) (n : Nat) (rate depth : F) (s : State nv cw) :
    ScratchAgreeFrom n s (dryPass cfg n rate depth s) := by
  refine forIndex_keeps (P := ScratchAgreeFrom n s) (fun _ _ => ⟨rfl, rfl, rfl⟩) fun i hi t ht a ha => ?_
  obtain ⟨x, hx⟩ := drySample_dry cfg rate depth i t
  obtain ⟨hwl, hwr⟩ := (drySample_frame cfg rate depth i t).keeps_wet
  have hne : a ≠ i := by omega
  rw [hx, hwl, hwr, memRead_memWrite_ne _ _ hne]
  exact ht a ha

theorem copyPass_scratchAgreeFrom (n : Nat) {s d : State nv cw} (h : ScratchAgreeFrom n s d) :
    ScratchAgreeFrom n s (copyPass n d) := by
  refine forIndex_keeps (P := ScratchAgreeFrom n s) h fun i hi t ht a ha => ?_
  obtain ⟨hdry, hL, hR⟩ := ht a ha
  have hne : a ≠ i := by omega
  exact ⟨hdry, (memRead_memWrite_ne _ _ hne).trans hL, (memRead_memWrite_ne _ _ hne).trans hR⟩

theorem reverbPass_scratchAgreeFrom (n : Nat) (size : F) {s c : State nv cw} (h : ScratchAgreeFrom n s c) :
    ScratchAgreeFrom n s (reverbPass n size c) := by
  intro a ha
  obtain ⟨hdry, hL, hR⟩ := h a ha
  have hkept (f : Nat → F) (m : Memory) : memRead (writeWords n f m) a = memRead m a :=
    (memRead_writeWords n f m a).trans (if_neg (by omega))
  exact ⟨hdry, (hkept _ _).trans hL, (hkept _ _).trans hR⟩

/-- The three passes of a block of `n` frames write the words below `n` only. -/
theorem fxBlock_scratchAgreeFrom (cfg : Engine) (n : Nat) (gain lowCut rate depth size mix : F) (s : State nv cw) :
    ScratchAgreeFrom n s (fxBlock cfg n gain lowCut rate depth size mix s) :=
  reverbPass_scratchAgreeFrom n size
    (copyPass_scratchAgreeFrom n (dryPass_scratchAgreeFrom cfg n rate depth (hpRetune cfg lowCut s)))

/-! ### The obligation -/

/-- A block keeps the configuration, the parameters, the status registers and the host's list (46_global_effects
R201). -/
theorem fxBlock_keeps_registers (cfg : Engine) (n : Nat) (gain lowCut rate depth size mix : F) (s : State nv cw) :
    let t := fxBlock cfg n gain lowCut rate depth size mix s
    t.sr = s.sr ∧ t.len = s.len ∧ t.blockSize = s.blockSize ∧ t.params = s.params ∧ t.pvalid = s.pvalid ∧
      t.prepared = s.prepared ∧ t.fault = s.fault ∧ t.cause = s.cause ∧ t.hostIn = s.hostIn := by
  intro t
  have h : t = _ := fxBlock_frame cfg n gain lowCut rate depth size mix s
  rw [h]
  exact ⟨rfl, rfl, rfl, rfl, rfl, rfl, rfl, rfl, rfl⟩

/-- Settles O24, from what one block does to the frames, to the registers, to each voice and to the scratch memories. -/
theorem renderCompletesAndKeepsTheRest : Obligations.RenderCompletesAndKeepsTheRest := by
  intro n s hready
  refine ⟨_, render_ready hready, ⟨_, length_blockFrames n _ _ _, fxBlock_frames ksv n _ _ _ _ _ _ s⟩, ?_⟩
  obtain ⟨hsr, hlen, hblock, hparams, hvalid, hprepared, hfault, hcause, hhost⟩ := fxBlock_keeps_registers ksv n
    s.params.gain s.params.lowcut s.params.tremrate s.params.tremdepth s.params.revsize s.params.revmix s
  have hline (v : Fin 16) := lineAfter_fxBlock ksv n s.params.gain s.params.lowcut s.params.tremrate
    s.params.tremdepth s.params.revsize s.params.revmix s v
  refine ⟨hsr, hlen, hblock, hparams, hvalid, hprepared, hfault, hcause, hhost, fun v => ?_, fun v => ?_,
    fxBlock_scratchAgreeFrom ksv n _ _ _ _ _ _ s⟩
  · obtain ⟨hidle, _⟩ := hline v
    exact hidle
  · obtain ⟨_, _, hbuffer⟩ := hline v
    obtain ⟨hactive, hfreq, hdelay, hdecay, hburst, hwave, hgain, hb0, hb1, ha1⟩ := render_keeps_note s n
      s.params.gain s.params.lowcut s.params.tremrate s.params.tremdepth s.params.revsize s.params.revmix v
    exact ⟨hactive, hfreq, hdelay, hdecay, hburst, hwave, hgain, hb0, hb1, ha1, hbuffer⟩

end Sys2Proof.Machine
end

section
/-! PROOFS. The statements about the fault state (60_exceptions R251 to R258): how a word or a command enters it, what
it does with the words at the port, and that hardware reset alone leaves it. -/

namespace Sys2Proof.Machine

open Sys2Proof.Config

variable {nv cw : Nat}

/-! ### Entering the fault state (60_exceptions R251, R255, R257) -/

theorem acceptWord_illegal {run : Instr → State nv cw → Answer nv cw} {w : Word64} {why : Illegal} {s : State nv cw}
    (hf : s.fault = false) (hd : decode w = .illegal why) :
    acceptWord run w s = .next (raiseFault .illegalCmd s) := by
  unfold acceptWord
  rw [hf, hd]
  rfl

/-- `ILLEGAL_CMD`, the one cause with code 1, belongs to words that decode to no command. -/
theorem ne_illegalCmd_of_mayRaise {i : Instr} {c : Cause} (h : MayRaise i c) : c ≠ .illegalCmd := by
  rintro rfl
  cases i <;> simp [MayRaise] at h

theorem causeCode_bounds {c : Cause} (h : c ≠ .illegalCmd) :
    2 ≤ (causeCode c).toNat ∧ (causeCode c).toNat ≤ 5 := by
  cases c with
  | illegalCmd => exact absurd rfl h
  | notPrepared | badPrepare | badBlock | paramUnset => decide

/-- Settles O7: the word is accepted, and outside the fault state an illegal one enters it with code 1. -/
theorem illegalWordRaisesIllegalCmd : Obligations.IllegalWordRaisesIllegalCmd := by
  intro s w rest why hin hport hfault hdecode
  rw [step_word hin hport]
  exact acceptWord_illegal hfault hdecode

/-- Settles O27: a command either keeps `FAULT`, or enters the fault state with a cause of its own. -/
theorem aFaultingCommandChangesOnlyFaultAndCause : Obligations.AFaultingCommandChangesOnlyFaultAndCause := by
  intro i s t hf h hfaulted
  rcases runs_fault_cases (exec_runs h) with ⟨hkept, _⟩ | ⟨c, hc, rfl⟩
  · have hclear : t.fault = false := hkept.trans hf
    exact absurd (hfaulted.symm.trans hclear) (by decide)
  · exact ⟨rfl, causeCode_bounds (ne_illegalCmd_of_mayRaise hc)⟩

/-! ### In the fault state (60_exceptions R256, R258) -/

theorem acceptWord_discards {run : Instr → State nv cw → Answer nv cw} (w : Word64) {s : State nv cw}
    (hf : s.fault = true) : acceptWord run w s = .next s := by
  unfold acceptWord
  exact if_pos hf

/-- Settles O8: no frame waits in the fault state, so the word is accepted at once, and it is discarded. -/
theorem faultStateDiscardsEveryWord : Obligations.FaultStateDiscardsEveryWord := by
  intro s w rest hs hfault hin
  obtain ⟨_, _, hnone⟩ := hs
  rw [step_word hin (hnone hfault)]
  exact acceptWord_discards w hfault

/-- Settles O10: every step but a reset moves frames, takes an action from the port, or discards a word. -/
theorem onlyHardwareResetLeavesTheFaultState : Obligations.OnlyHardwareResetLeavesTheFaultState := by
  intro s t hfault h hreset
  rcases step_cases h with ⟨_, rfl⟩ | ⟨rest, hin, _⟩ | ⟨rest, _, rfl⟩ | ⟨_, _, _, _, rfl⟩ | ⟨w, rest, _, _, ha⟩
  · rfl
  · exact absurd hin (hreset rest)
  · rfl
  · rfl
  · have hkept := (acceptWord_discards w (s := { s with hostIn := rest }) hfault).symm.trans ha
    cases hkept
    rfl

end Sys2Proof.Machine
end

section
/-! PROOFS. The statements about hardware reset and about the step as a whole (70_reset_and_hazards R280, 60_exceptions
R255): what a reset pulse writes, which shapes the state after reset has, and that every step has a next state. -/

namespace Sys2Proof.Machine

open Sys2Proof.Config

variable {nv cw : Nat}

/-! ### The reset pulse (70_reset_and_hazards R280) -/

theorem step_reset {s : State} {rest : List HostEvent} (hin : s.hostIn = .reset :: rest) :
    step s = .next (hardReset { s with hostIn := rest }) := by
  unfold step sequence
  rw [hin]

/-- Settles O9: the pulse acts at once, whatever the engine was doing, and `hardReset` is the list of R280. -/
theorem hardwareResetClearsControlState : Obligations.HardwareResetClearsControlState :=
  fun _ _ hin => step_reset hin

/-! ### The state after reset (10_state R31, R44, 47_host_commands R241) -/

theorem reset_unprepared : ¬ State.reset.prepared = true := Bool.false_ne_true

theorem reset_voice (v : Fin 16) : State.reset.voice v = Voice.zero := voice_mk_replicate State.reset Voice.zero v

/-- Every memory is empty after reset, the sixteen buffers included. -/
theorem memoriesCanonical_reset : MemoriesCanonical State.reset := by
  refine ⟨rfl, rfl, rfl, fun v => ?_⟩
  rw [reset_voice]
  rfl

theorem faultCoded_reset : FaultCoded State.reset := ⟨⟨fun _ => rfl, fun _ => rfl⟩, Nat.zero_le 5⟩

theorem portOrdered_reset : PortOrdered State.reset := ⟨Nat.zero_le _, fun hwait => absurd rfl hwait, fun _ => rfl⟩

/-- The scratch memories are empty; the registers PREPARE sets are promised of a prepared engine only. -/
theorem preparedShape_reset : PreparedShape State.reset :=
  ⟨fun hprep => absurd hprep reset_unprepared, rfl, rfl, rfl⟩

/-- Settles O54, shape by shape: the engine is unprepared, its memories are empty and nothing is at the output port. -/
theorem resetHasEveryShape : Obligations.ResetHasEveryShape :=
  ⟨rfl, memoriesCanonical_reset, faultCoded_reset, portOrdered_reset, preparedShape_reset,
    fun hprep => absurd hprep reset_unprepared, fun hprep => absurd hprep reset_unprepared⟩

/-! ### Every step has a next state (60_exceptions R255) -/

theorem prepareOn_answers (cfg : Engine) (b : Nat) (r : F) (s : State nv cw) :
    ∃ t, prepareOn cfg b r s = .next t := by
  by_cases h : prepareAcceptable cfg b r = true
  · exact ⟨_, prepareOn_acceptable h s⟩
  · exact ⟨_, prepareOn_refused h s⟩

theorem noteonOn_answers (cfg : Engine) (p : Nat) (vel : F) (s : State nv cw) :
    ∃ t, noteonOn cfg p vel s = .next t := by
  unfold noteonOn
  split
  · exact ⟨_, rfl⟩
  · split <;> exact ⟨_, rfl⟩

theorem execNoteoff_answers (s : State nv cw) : ∃ t, execNoteoff s = .next t := by
  cases hp : s.prepared with
  | false => exact ⟨_, execNoteoff_unprepared hp⟩
  | true => exact ⟨_, execNoteoff_prepared hp⟩

theorem renderOn_answers (cfg : Engine) (n : Nat) (s : State nv cw) : ∃ t, renderOn cfg n s = .next t := by
  cases hp : s.prepared with
  | false => exact ⟨_, renderOn_unprepared cfg n hp⟩
  | true =>
    by_cases hbad : n = 0 ∨ s.blockSize.toNat < n
    · exact ⟨_, renderOn_badBlock cfg hp hbad⟩
    · by_cases hready : RenderReady n s
      · exact ⟨_, renderOn_ready cfg hready⟩
      · exact ⟨_, renderOn_paramUnset cfg hp (by omega) (by omega) hready⟩

/-- No command is refused: a broken contract is fault entry, which is a next state. -/
theorem exec_answers (i : Instr) (s : State) : ∃ t, exec i s = .next t := by
  cases i with
  | nop => exact ⟨s, rfl⟩
  | prepare b r => exact prepareOn_answers ksv b r s
  | noteon p vel => exact noteonOn_answers ksv p vel s
  | noteoff => exact execNoteoff_answers s
  | render n => exact renderOn_answers ksv n s
  | setpGain _ | setpWave _ | setpDecay _ | setpBurst _ | setpExcut _ | setpLowcut _ | setpTremrate _
  | setpTremdepth _ | setpRevsize _ | setpRevmix _ => exact ⟨_, rfl⟩

theorem acceptWord_answers (w : Word64) (s : State) : ∃ t, acceptWord exec w s = .next t := by
  cases hf : s.fault with
  | true => exact ⟨s, acceptWord_discards w hf⟩
  | false =>
    cases hd : decode w with
    | illegal why => exact ⟨_, acceptWord_illegal hf hd⟩
    | command i =>
      rw [acceptWord_command hf hd]
      exact exec_answers i s

/-- Settles O11, by the host's next action: only an accepted word runs anything, and every command answers. -/
theorem everyStepAnswersANextState : Obligations.EveryStepAnswersANextState := by
  intro s
  unfold step sequence
  split
  · exact ⟨_, rfl⟩
  · exact ⟨_, rfl⟩
  · exact ⟨_, rfl⟩
  · split
    · exact acceptWord_answers _ _
    · exact ⟨_, rfl⟩

end Sys2Proof.Machine
end
